-- ==== Sys2Proof/Word.lean ====
section
/-! DEFINITION. The widths of R10: a byte, a 32-bit word, a Timer value, a 256-bit frame as the ports carry it. -/

namespace Sys2Proof

/-- u8 (R10). -/
abbrev Byte := BitVec 8

/-- u32 (R10). -/
abbrev Word := BitVec 32

/-- A Timer sample: TIMER_W = 32 bits (R9, R40, D11). -/
abbrev Ms := BitVec 32

/-- A frame as the request and response ports carry it: frame byte i at bits 8i+7:8i (R36, R38). -/
abbrev FrameBits := BitVec 256

end Sys2Proof
end

