-- ==== Sys2Proof/Syntax.lean ====
section
/-! DEFINITION. Requests, responses, wire commands and the instructions: one constructor per row of opcode_table.json. -/

namespace Sys2Proof

/-- A consumer request, the fields of REQ[299:0] (R36, R70). -/
structure Req where
  op    : BitVec 4
  a8    : Byte
  a32   : Word
  frame : FrameBits
  deriving DecidableEq, Repr, Inhabited

/-- A response, the fields of RSP[296:0] (R38, R73). A field an operation does not define is 0. -/
structure Rsp where
  illegal : Bool := false
  byte    : Byte := 0
  word    : Word := 0
  frame   : FrameBits := 0
  deriving DecidableEq, Repr, Inhabited

/-- The all-zero response `ack` (R73). -/
def Rsp.ack : Rsp := {}

/-- A wire transaction (R76) with what its body carries from the block to the peer. -/
inductive WireCmd where
  /-- WRITESTATUS of the word (R78). -/
  | writeStatus (w : Word)
  /-- WRITEDATA of 32 payload bytes, padding included (R80). -/
  | writeData (payload : List Byte)
  /-- READDATA (R79). -/
  | readData
  /-- READSTATUS (R77). -/
  | readStatus
  deriving DecidableEq, Repr, Inhabited

/-- The operations of R71, the reserved codes of R74 and the wire commands of R76. -/
inductive Instr where
  /-- WR_STATUS (R120). -/
  | wrStatus (w : Word)
  /-- WR_DATA (R122): the length operand and the 32 bytes of the frame operand. -/
  | wrData (len : Byte) (frame : List Byte)
  /-- RD_DATA (R121). -/
  | rdData
  /-- RD_STATUS (R119). -/
  | rdStatus
  /-- WAIT_RX (R147), timeout in ms (R92). -/
  | waitRx (timeout : BitVec 16)
  /-- WAIT_TX (R148), timeout in ms (R92). -/
  | waitTx (timeout : BitVec 16)
  /-- WRITE_BYTE (R161). -/
  | writeByte (b : Byte)
  /-- FLUSH_FIN (R162). -/
  | flushFin
  /-- FLUSH_CONT (R163). -/
  | flushCont
  /-- READ_BYTE (R180). -/
  | readByte
  /-- AVAIL (R184). -/
  | avail
  /-- Reserved op code 0x0 (R74, R201). -/
  | reserved0
  /-- Reserved op code 0x7 (R74, R201). -/
  | reserved7
  /-- Reserved op code 0xD (R74, R201). -/
  | reservedD
  /-- Reserved op code 0xE (R74, R201). -/
  | reservedE
  /-- Reserved op code 0xF (R74, R201). -/
  | reservedF
  /-- Wire command WRITESTATUS (R115). -/
  | wireWriteStatus (w : Word)
  /-- Wire command WRITEDATA (R117), the 32 bytes that go on the wire. -/
  | wireWriteData (payload : List Byte)
  /-- Wire command READDATA (R116). -/
  | wireReadData
  /-- Wire command READSTATUS (R114). -/
  | wireReadStatus
  deriving DecidableEq, Repr

/-- The instruction a wire transaction is. -/
def WireCmd.toInstr : WireCmd → Instr
  | .writeStatus w => .wireWriteStatus w
  | .writeData payload => .wireWriteData payload
  | .readData => .wireReadData
  | .readStatus => .wireReadStatus

/-- The two formats of opcode_table.json: a consumer request (R70) and a wire transaction body (R76). -/
inductive Format where
  | request
  | wire
  deriving DecidableEq, Repr

/-- Which format an instruction is written in. -/
def Instr.format : Instr → Format
  | .wireWriteStatus _ | .wireWriteData _ | .wireReadData | .wireReadStatus => .wire
  | .wrStatus _ | .wrData _ _ | .rdData | .rdStatus | .waitRx _ | .waitTx _ | .writeByte _
  | .flushFin | .flushCont | .readByte | .avail
  | .reserved0 | .reserved7 | .reservedD | .reservedE | .reservedF => .request

end Sys2Proof
end

