-- ==== Sys2Proof/Config.lean ====
section
/-! DEFINITION. The constants of R8, the parameters of R9 the model uses, and the free values of the four inputs (log 2). -/

namespace Sys2Proof.Config

/-- FRAME_BYTES (R8). -/
def frameBytes : Nat := 32

/-- DATA_BYTES (R8). -/
def dataBytes : Nat := 31

/-- TX_CAP (R8): the capacity of the transmit buffer. -/
def txCap : Nat := 31

/-- RX_CUR_MAX (R8): the value of rx_cur that means "frame fully consumed". -/
def rxCurMax : Nat := 32

/-- CMD_WRITESTATUS (R8, R76). -/
def cmdWriteStatus : Byte := 0x01#8

/-- CMD_WRITEDATA (R8, R76). -/
def cmdWriteData : Byte := 0x02#8

/-- CMD_READDATA (R8, R76). -/
def cmdReadData : Byte := 0x03#8

/-- CMD_READSTATUS (R8, R76). -/
def cmdReadStatus : Byte := 0x04#8

/-- IND_FINISHED (R8, R85). -/
def indFinished : Byte := 0xDF#8

/-- IND_CONTINUES (R8, R85). -/
def indContinues : Byte := 0xDC#8

/-- RX_READY (R8, R82). -/
def rxReady : BitVec 4 := 0x1#4

/-- The receive-state value BUSY (R8, R82). -/
def rxBusy : BitVec 4 := 0x0#4

/-- TX_NO_DATA (R8, R83). -/
def txNoData : BitVec 4 := 0x0#4

/-- TX_PREPARING (R8, R83). -/
def txPreparing : BitVec 4 := 0x2#4

/-- TX_READY (R8, R83). -/
def txReady : BitVec 4 := 0x1#4

/-- T_READY (R8): budget in ms of the multiplexer's own ready-poll waits. -/
def tReady : Nat := 3000

/-- T_RXPOLL (R8): budget in ms of the frame poll. -/
def tRxPoll : Nat := 1000

/-- T_SS_ASSERT in microseconds (R8, R111, R112). -/
def tSsAssert : Nat := 1

/-- T_SS_GAP in microseconds (R8, R111). -/
def tSsGap : Nat := 15

/-- FILL_BYTE (R9, D6). -/
def fillByte : Byte := 0x00#8

/-- The byte WRITEDATA pads with (R80, R117). -/
def padByte : Byte := 0x00#8

/-- READ_BYTE's sentinel (R15, R180). -/
def sentinel : Byte := 0x00#8

/-- CLK_HZ, an OPEN parameter (R9, D10): the value State.reset carries (log 6). -/
opaque clkHz : Nat

/-- SS_ASSERT_LEVEL, an OPEN parameter (R9, D8): the electrical level of ASSERTED (log 7). -/
opaque ssAssertLevel : Bool

/-- The level of rst at a clock edge that no script fixes (log 2). -/
opaque freeRst : Nat → Bool

/-- The request port at an edge that no script fixes: none is req_valid = 0, some q is req_valid = 1
with the request fields q (log 2). -/
opaque freeRequest : Nat → Option Req

/-- The serializer at an edge that no script fixes: none is sx_done = 0, some b is sx_done = 1 with
sx_rx = b (log 2). -/
opaque freeSerial : Nat → Option Byte

/-- ms_now at a sample that no script fixes (log 2). -/
opaque freeTimer : Nat → Ms

/-- The response fields in a cycle with rsp_valid = 0 (R38, log 10). -/
opaque freeRsp : Nat → Rsp

/-- sx_tx in a cycle with sx_start = 0 (R39, log 10). -/
opaque freeSxTx : Nat → Byte

/-- warn_kind in a cycle with warn_o = 0 (R41, log 10). -/
opaque freeWarnKind : Nat → BitVec 1

end Sys2Proof.Config
end

