-- ==== Sys2Proof/Machine/State.lean ====
section
/-! DEFINITION. The state as plain data: the record of R20, the sequencer of R34, the output ports, the trace, the inputs; reset. -/

namespace Sys2Proof.Machine

/-- One of the block's two byte memories (R50): cells in rising index order. An index not listed holds no
value: nothing has written it since reset (R44, log 4). -/
abbrev Mem := List Host.Cell

/-- The canonical form of a memory: strictly rising indices. -/
def Mem.wf : Mem → Bool
  | [] => true
  | [_] => true
  | c :: d :: m => decide (c.1 < d.1) && Mem.wf (d :: m)

/-- The select line (R31). -/
inductive SelectLine where
  | asserted
  | deasserted
  deriving DecidableEq, Repr

/-- Which status field a ready-poll wait tests (R142). -/
inductive Sel where
  | rx
  | tx
  deriving DecidableEq, Repr

/-- The places of the ready-polling loop of R142. Names are the model's (log 9). -/
inductive WaitAt where
  /-- `t0 <- Now()`, then the first READSTATUS. -/
  | sampleT0
  /-- A READSTATUS has returned: READY test, else `t1 <- Now()` and the expiry test. -/
  | test
  /-- Expired: `Warn`, then return. -/
  | warn
  /-- Not expired: `Yield()`, then the next READSTATUS. -/
  | yieldNext
  deriving DecidableEq, Repr

/-- The places of Flush after its wait (R160). -/
inductive SendAt where
  /-- Build P and start WRITEDATA. -/
  | issue
  /-- WRITEDATA has returned: `tx_cur <- 0`. -/
  | clear
  deriving DecidableEq, Repr

/-- The places of ContinueFetch after its wait (R182). -/
inductive FetchAt where
  /-- Start READDATA. -/
  | issue
  /-- READDATA has returned: `rx_buf <- F`. -/
  | store
  /-- `rx_cur <- 1`. -/
  | setCur
  deriving DecidableEq, Repr

/-- The places of the frame poll (R181). -/
inductive PollAt where
  /-- `t0 <- Now()`, then the first READDATA. -/
  | sampleT0
  /-- READDATA has returned: `rx_buf <- F` and the indicator test. -/
  | store
  /-- Valid: `rx_cur <- 1`. -/
  | setCur
  /-- Not valid: `t1 <- Now()` and the expiry test. -/
  | expire
  /-- Not expired: `Yield()`, then the next READDATA. -/
  | yieldNext
  deriving DecidableEq, Repr

/-- The places of an operation's tail, up to `respond`. -/
inductive RespondAt where
  /-- A raw transaction has returned: respond with what it gave (R119 to R122). -/
  | collect
  /-- `tx_buf[tx_cur] <- b` (R161). -/
  | append
  /-- `tx_cur <- tx_cur + 1` (R161). -/
  | advance
  /-- `r <- rx_buf[rx_cur]`, `rx_cur <- rx_cur + 1` (R180). -/
  | deliver
  /-- `respond(r)`. -/
  | send (r : Rsp)
  deriving DecidableEq, Repr

/-- The sequencer's operation phases: IDLE and the seven names of R34, with the place inside each. -/
inductive Phase where
  /-- IDLE. -/
  | idle
  /-- DECODE: the request has been accepted at the last edge (log 9). -/
  | decode
  /-- WAIT_LOOP. -/
  | waitLoop (p : WaitAt)
  /-- FLUSH_SEND. -/
  | flushSend (p : SendAt)
  /-- RX_CONT_WAIT. -/
  | rxContWait (p : WaitAt)
  /-- RX_CONT_FETCH. -/
  | rxContFetch (p : FetchAt)
  /-- RX_POLL. -/
  | rxPoll (p : PollAt)
  /-- RESPOND. -/
  | respond (p : RespondAt)
  deriving DecidableEq, Repr

/-- The transaction sub-phases of R34. -/
inductive TxnPhase where
  /-- T_START_ASSERT. -/
  | startAssert
  /-- T_START_GAP. -/
  | startGap
  /-- T_BODY(k); `sent` says that sx_start has been pulsed for exchange k and sx_done is awaited (R39, log 8). -/
  | body (k : Nat) (sent : Bool)
  /-- T_END_ASSERT. -/
  | endAssert
  deriving DecidableEq, Repr

/-- The wire transaction in flight. -/
structure Txn where
  cmd : WireCmd
  sub : TxnPhase
  deriving DecidableEq, Repr

/-- The sequencer (R34). R34 gives its registers only while an operation executes, and each has a use in part of one
only; that a register keeps its value outside that part, until its next write, is a DESIGN CHOICE, unsafe (log 23).
The assembly register is empty in IDLE (R28). -/
structure Sequencer where
  /-- The operation phase; `idle` is IDLE. -/
  phase : Phase
  /-- The accepted request q, latched at acceptance (R37). -/
  req   : Req
  /-- The transaction in flight, if any. While there is one, `phase` is the place it returns to. -/
  txn   : Option Txn
  /-- The loop start sample t0. -/
  t0    : Ms
  /-- The assembly register: the bytes captured so far by the transaction (log 17). -/
  asm   : List Byte
  /-- The duration counter for the pulses, in clk cycles (R244). -/
  dur   : Nat
  deriving DecidableEq, Repr

/-- The output ports (R38, R39, R41); req_ready and ss_o are derived (Machine/Ops.lean). -/
structure Outputs where
  /-- rsp_valid. -/
  rspValid : Bool
  /-- rsp_illegal, rsp_byte, rsp_word, rsp_frame. -/
  rsp      : Rsp
  /-- sx_start. -/
  sxStart  : Bool
  /-- sx_tx. -/
  sxTx     : Byte
  /-- yield_o. -/
  yieldO   : Bool
  /-- warn_o. -/
  warnO    : Bool
  /-- warn_kind: 0 RX_READY_TIMEOUT, 1 TX_READY_TIMEOUT. -/
  warnKind : BitVec 1
  deriving DecidableEq, Repr

/-- The trace events (R12, R13), which are what is observed of a run. Two ENVIRONMENT ASSUMPTIONS belong to
that observation (R247): (a) the serializer answers every exchange, else the block stalls inside a transaction
forever and no further event comes; (b) the Timer progresses, else a polling loop that never sees what it waits
for emits its transactions, NOW and YIELD forever and no RSP comes. The model assumes neither: it has both
hangs. A claim that needs (a) or (b) takes `SerializerAnswers` or `TimerProgress` of Safety.lean as a
hypothesis (log 22). -/
inductive Event where
  /-- `REQ(q)`. -/
  | req (q : Req)
  /-- `START`. -/
  | start
  /-- `END`. -/
  | stop
  /-- `X(m, s)`. -/
  | x (mosi miso : Byte)
  /-- `NOW(t)`. -/
  | now (t : Ms)
  /-- `YIELD`. -/
  | yielded
  /-- `WARN(k)`. -/
  | warn (k : BitVec 1)
  /-- `RSP(r)`. -/
  | rsp (r : Rsp)
  deriving DecidableEq, Repr

/-- The inputs, the model's own fields (log 2): what the platform, the Consumer, the Peer and the Timer give
at the coming samples, next first. A sample past the end of its script is a free value of Config. Nothing here
makes the serializer answer or the Timer advance: both are the environment assumptions of R247 (log 22). -/
structure Env where
  /-- rst at the coming clock edges. -/
  rst      : List Bool
  /-- The request port at the coming edges at which the block is idle: none is req_valid = 0. -/
  requests : List (Option Req)
  /-- The serializer at the coming edges at which an exchange is outstanding: none is sx_done = 0. -/
  serial   : List (Option Byte)
  /-- ms_now at the coming samples. -/
  timer    : List Ms
  /-- How many free values have been drawn. -/
  draws    : Nat
  deriving DecidableEq, Repr

/-- The whole state. -/
structure State where
  /-- tx_buf (R21). -/
  txBuf : Mem
  /-- tx_cur (R22). -/
  txCur : Nat
  /-- rx_buf (R23). -/
  rxBuf : Mem
  /-- rx_cur (R24). -/
  rxCur : Nat
  /-- ss (R31). -/
  ss    : SelectLine
  /-- seq (R34). -/
  seq   : Sequencer
  /-- The output ports. -/
  out   : Outputs
  /-- The trace, newest event first (R13, log 11); the environment assumptions of R247 stand at `Event`. -/
  trace : List Event
  /-- The inputs (log 2). -/
  env   : Env
  /-- CLK_HZ, a parameter that no step changes (R9, log 6). -/
  clkHz : Nat
  deriving DecidableEq, Repr

/-- Why the machine stops. A state that meets the invariant of Safety.lean raises none of these. -/
inductive Fault where
  /-- Raised by the primitives of R51 for an index or a length that TXB or RXB does not have. Safe: the
  model stops, and R51 says that no rule accesses one. -/
  | noSuchByte
  /-- Raised by the primitives of R51 for a read of a byte not written since reset. Safe: R44 says that no
  rule reads one, and I12 allows the fault. -/
  | unwrittenByte
  /-- Raised by a meaning when the sequencer stands at a place that the operation's pseudocode does not
  have (log 14). Safe: the model stops, and no run from reset gets there. -/
  | offSequence
  deriving DecidableEq, Repr

/-- Why the model has no meaning for an instruction. -/
inductive Refusal where
  /-- Raised by exec's arm of an instruction that has no meaning yet; no arm does. Safe: nothing runs. -/
  | notModelled (mnemonic : String)
  deriving DecidableEq, Repr

/-- The outcome of a step or of a meaning. -/
abbrev Outcome := Host.Outcome State Fault Refusal

/-- The sequencer after reset (R43): IDLE. The latched request, t0, the assembly register and the duration
counter are unspecified there and unobservable: DESIGN CHOICE, zero and empty (log 5). Unsafe in itself. -/
def Sequencer.reset : Sequencer :=
  { phase := .idle, req := { op := 0, a8 := 0, a32 := 0, frame := 0 }, txn := none, t0 := 0, asm := [], dur := 0 }

/-- The output ports after reset (R43): all 0. -/
def Outputs.reset : Outputs :=
  { rspValid := false, rsp := Rsp.ack, sxStart := false, sxTx := 0, yieldO := false, warnO := false,
    warnKind := 0 }

/-- The inputs at State.reset: nothing scripted (log 3). -/
def Env.reset : Env := { rst := [], requests := [], serial := [], timer := [], draws := 0 }

/-- The machine right after reset (R43). -/
def State.reset : State :=
  { txBuf := [], txCur := 0, rxBuf := [], rxCur := 0, ss := .deasserted, seq := Sequencer.reset,
    out := Outputs.reset, trace := [], env := Env.reset, clkHz := Config.clkHz }

end Sys2Proof.Machine
end

