-- ==== Sys2Proof/Machine/Flags.lean ====
section
/-! DEFINITION. The conditions the operations test: status fields, READY, indicators, elapsed time and expiry. -/

namespace Sys2Proof.Machine

/-- RXS(w) = w[31:28] (R90). -/
def rxs (w : Word) : BitVec 4 := w.extractLsb' 28 4

/-- TXS(w) = w[27:24] (R90). -/
def txs (w : Word) : BitVec 4 := w.extractLsb' 24 4

/-- The field a wait tests (R142, R145, R146). -/
def Sel.field (sel : Sel) (w : Word) : BitVec 4 :=
  match sel with
  | .rx => rxs w
  | .tx => txs w

/-- The value that means READY in the field (R82, R83). -/
def Sel.ready (sel : Sel) : BitVec 4 :=
  match sel with
  | .rx => Config.rxReady
  | .tx => Config.txReady

/-- The warning kind of a soft timeout (R41, R144). -/
def Sel.kind (sel : Sel) : BitVec 1 :=
  match sel with
  | .rx => 0
  | .tx => 1

/-- Elapsed(t0, t1) = (t1 - t0) mod 2^TIMER_W (R140). -/
def elapsed (t0 t1 : Ms) : Nat := (t1 - t0).toNat

/-- The budget has expired at sample t1: Elapsed(t0, t1) >= B (R140). -/
def expired (t0 t1 : Ms) (budget : Nat) : Bool := decide (budget ≤ elapsed t0 t1)

/-- An incoming indicator the frame poll takes: 0xDF or 0xDC (R86). -/
def validIndicator (b : Byte) : Bool := b == Config.indFinished || b == Config.indContinues

end Sys2Proof.Machine
end

