-- ==== Sys2Proof/WellFormed.lean ====
section
/-! DEFINITION. Which instruction terms the encodings can hold: a frame has FRAME_BYTES bytes (R8, R11, R70, R80). -/

namespace Sys2Proof

/-- The check on an instruction term; every frame operand has 32 bytes. -/
def Instr.wf : Instr → Bool
  | .wrData _ frame => frame.length == Config.frameBytes
  | .wireWriteData payload => payload.length == Config.frameBytes
  | .wrStatus _ | .rdData | .rdStatus | .waitRx _ | .waitTx _ | .writeByte _
  | .flushFin | .flushCont | .readByte | .avail
  | .reserved0 | .reserved7 | .reservedD | .reservedE | .reservedF
  | .wireWriteStatus _ | .wireReadData | .wireReadStatus => true

/-- An instruction term the encodings can hold. -/
abbrev WellFormed (i : Instr) : Prop := i.wf = true

end Sys2Proof
end

