-- ==== Sys2Proof/Decode.lean ====
section
/-! DEFINITION. Bytes and bits, the request and wire decoders (total, rejecting by name), the encoder, the host's decodeTableWord. -/

namespace Sys2Proof

/-! ### Bytes and numbers -/

/-- The n low bytes of a number, least significant first. -/
def bytesOfNat : Nat → Nat → List Byte
  | 0, _ => []
  | n + 1, v => BitVec.ofNat 8 v :: bytesOfNat n (v / 256)

/-- The number whose bytes are given, least significant first. -/
def natOfBytes : List Byte → Nat
  | [] => 0
  | b :: bs => b.toNat + 256 * natOfBytes bs

/-- The 32 bytes of a frame on a port: byte i is bits 8i+7:8i (R36). -/
def frameBytesOf (f : FrameBits) : List Byte := bytesOfNat Config.frameBytes f.toNat

/-- A frame's bits from its bytes: byte i at bits 8i+7:8i (R36, R38). -/
def frameBitsOf (bs : List Byte) : FrameBits := BitVec.ofNat 256 (natOfBytes bs)

/-- The four bytes of a status word in wire order, least significant first (R53, R78). -/
def wordBytes (w : Word) : List Byte := bytesOfNat 4 w.toNat

/-- The status word {s3, s2, s1, s0} assembled from its bytes in wire order (R53, R89). -/
def assembleWord (bs : List Byte) : Word := BitVec.ofNat 32 (natOfBytes bs)

/-! ### Packed request and response records -/

/-- REQ[299:0] as a number (R70). -/
def Req.pack (q : Req) : Nat :=
  q.op.toNat + 2 ^ 4 * (q.a8.toNat + 2 ^ 8 * (q.a32.toNat + 2 ^ 32 * q.frame.toNat))

/-- The request whose packed form is the low 300 bits of a number (R70). -/
def Req.unpack (v : Nat) : Req :=
  { op := BitVec.ofNat 4 v
    a8 := BitVec.ofNat 8 (v / 2 ^ 4)
    a32 := BitVec.ofNat 32 (v / 2 ^ 12)
    frame := BitVec.ofNat 256 (v / 2 ^ 44) }

/-- RSP[296:0] as a number (R73). -/
def Rsp.pack (r : Rsp) : Nat :=
  r.illegal.toNat + 2 * (r.byte.toNat + 2 ^ 8 * (r.word.toNat + 2 ^ 32 * r.frame.toNat))

/-! ### Decoding -/

/-- Why bytes are no instruction. -/
inductive DecodeError where
  /-- A request record that is not 38 bytes (300 bits, R70). -/
  | requestLength
  /-- A request record with a bit set above bit 299 (R70). -/
  | requestHighBits
  /-- A wire body with no command byte (R75). -/
  | emptyBody
  /-- A wire body whose command byte is not one of the four of R76. -/
  | unknownCommand
  /-- A wire body shorter than its command byte fixes (R95). -/
  | bodyTooShort
  /-- A wire body longer than its command byte fixes (R95). -/
  | bodyTooLong
  /-- A dummy, address or filler byte that is not FILL_BYTE (R77, R79, R80). -/
  | fillerByte
  deriving DecidableEq, Repr

/-- The operation a request asks for (R71, R74). Fields the operation does not use are dropped (R72). -/
def decodeReq (q : Req) : Instr :=
  match q.op.toNat with
  | 0x0 => .reserved0
  | 0x1 => .wrStatus q.a32
  | 0x2 => .wrData q.a8 (frameBytesOf q.frame)
  | 0x3 => .rdData
  | 0x4 => .rdStatus
  | 0x5 => .waitRx (BitVec.ofNat 16 q.a32.toNat)
  | 0x6 => .waitTx (BitVec.ofNat 16 q.a32.toNat)
  | 0x7 => .reserved7
  | 0x8 => .writeByte q.a8
  | 0x9 => .flushFin
  | 0xA => .flushCont
  | 0xB => .readByte
  | 0xC => .avail
  | 0xD => .reservedD
  | 0xE => .reservedE
  | _ => .reservedF

/-- Decode a packed request record given as 38 bytes, bits 7:0 first. -/
def decodeRequestBytes (bs : List Byte) : Except DecodeError Instr :=
  if bs.length ≠ 38 then .error .requestLength
  else if natOfBytes bs / 2 ^ 44 < 2 ^ 256 then .ok (decodeReq (Req.unpack (natOfBytes bs)))
  else .error .requestHighBits

/-- The body length a wire command byte fixes (R76, R95). -/
def bodyLength (c : Byte) : Option Nat :=
  if c = Config.cmdWriteStatus ∨ c = Config.cmdReadStatus then some 5
  else if c = Config.cmdWriteData ∨ c = Config.cmdReadData then some 34
  else none

/-- The wire command of a body whose command byte is c and whose other bytes, as many as c fixes, are
args (R77 to R80). -/
def decodeBody (c : Byte) (args : List Byte) : Except DecodeError WireCmd :=
  if c = Config.cmdWriteStatus then .ok (.writeStatus (assembleWord args))
  else if c = Config.cmdReadStatus then
    if args.all (· == Config.fillByte) then .ok .readStatus else .error .fillerByte
  else if c = Config.cmdReadData then
    if args.all (· == Config.fillByte) then .ok .readData else .error .fillerByte
  else if args.head? = some Config.fillByte then .ok (.writeData args.tail) else .error .fillerByte

/-- Decode the first transaction body of a stream of MOSI bytes; the length follows from the command
byte alone (R95), and what follows the body is returned. -/
def decodeWire (bs : List Byte) : Except DecodeError (WireCmd × List Byte) :=
  match bs with
  | [] => .error .emptyBody
  | c :: rest =>
    match bodyLength c with
    | none => .error .unknownCommand
    | some n =>
      if rest.length < n - 1 then .error .bodyTooShort
      else
        match decodeBody c (rest.take (n - 1)) with
        | .error e => .error e
        | .ok cmd => .ok (cmd, rest.drop (n - 1))

/-- Decode the bytes of one instruction of a format. Total; what is no instruction is rejected by name. -/
def decode (f : Format) (bs : List Byte) : Except DecodeError Instr :=
  match f with
  | .request => decodeRequestBytes bs
  | .wire =>
    match decodeWire bs with
    | .error e => .error e
    | .ok (cmd, []) => .ok cmd.toInstr
    | .ok (_, _ :: _) => .error .bodyTooLong

/-! ### Encoding -/

/-- The MOSI bytes of a transaction body (R77 to R80). -/
def wireBody : WireCmd → List Byte
  | .writeStatus w => Config.cmdWriteStatus :: wordBytes w
  | .writeData payload => Config.cmdWriteData :: Config.fillByte :: payload
  | .readData => Config.cmdReadData :: Config.fillByte :: List.replicate 32 Config.fillByte
  | .readStatus => Config.cmdReadStatus :: List.replicate 4 Config.fillByte

/-- The packed request record as 38 bytes, bits 7:0 first. -/
def Req.bytes (q : Req) : List Byte := bytesOfNat 38 q.pack

/-- A request with the given op code and every operand field 0 (R93). -/
def Req.plain (op : BitVec 4) : Req := { op := op, a8 := 0, a32 := 0, frame := 0 }

/-- The request that asks for an instruction, fields it does not use 0 (R71, R93); none for a wire command. -/
def Instr.toReq : Instr → Option Req
  | .wrStatus w => some { Req.plain 0x1#4 with a32 := w }
  | .wrData len frame => some { Req.plain 0x2#4 with a8 := len, frame := frameBitsOf frame }
  | .rdData => some (Req.plain 0x3#4)
  | .rdStatus => some (Req.plain 0x4#4)
  | .waitRx timeout => some { Req.plain 0x5#4 with a32 := BitVec.ofNat 32 timeout.toNat }
  | .waitTx timeout => some { Req.plain 0x6#4 with a32 := BitVec.ofNat 32 timeout.toNat }
  | .writeByte b => some { Req.plain 0x8#4 with a8 := b }
  | .flushFin => some (Req.plain 0x9#4)
  | .flushCont => some (Req.plain 0xA#4)
  | .readByte => some (Req.plain 0xB#4)
  | .avail => some (Req.plain 0xC#4)
  | .reserved0 => some (Req.plain 0x0#4)
  | .reserved7 => some (Req.plain 0x7#4)
  | .reservedD => some (Req.plain 0xD#4)
  | .reservedE => some (Req.plain 0xE#4)
  | .reservedF => some (Req.plain 0xF#4)
  | .wireWriteStatus _ | .wireWriteData _ | .wireReadData | .wireReadStatus => none

/-- The wire transaction a wire command is; none for a request. -/
def Instr.toWire : Instr → Option WireCmd
  | .wireWriteStatus w => some (.writeStatus w)
  | .wireWriteData payload => some (.writeData payload)
  | .wireReadData => some .readData
  | .wireReadStatus => some .readStatus
  | .wrStatus _ | .wrData _ _ | .rdData | .rdStatus | .waitRx _ | .waitTx _ | .writeByte _
  | .flushFin | .flushCont | .readByte | .avail
  | .reserved0 | .reserved7 | .reservedD | .reservedE | .reservedF => none

/-- The bytes of an instruction in its own format. -/
def encode (i : Instr) : List Byte :=
  match i.toReq, i.toWire with
  | some q, _ => q.bytes
  | none, some c => wireBody c
  | none, none => []

/-! ### The host's question -/

/-- The format of a word of opcode_table.json by its width: 5 or 34 whole bytes are a wire body, anything
else a request record (log 12). -/
def formatOfWidth (nbits : Nat) : Format :=
  if nbits = 40 ∨ nbits = 272 then .wire else .request

/-- The bytes of an instruction given as the number of its low nbits bits, zeros above them. -/
def tableBytes (nbits w : Nat) : List Byte :=
  match formatOfWidth nbits with
  | .wire => bytesOfNat (nbits / 8) w
  | .request => bytesOfNat ((nbits + 7) / 8) w ++ List.replicate (38 - (nbits + 7) / 8) 0

/-- The instruction the decoder reads from a table word. -/
def decodeTableWord (nbits w : Nat) : Option Instr :=
  match decode (formatOfWidth nbits) (tableBytes nbits w) with
  | .ok i => some i
  | .error _ => none

end Sys2Proof
end

