-- ==== Sys2Proof/Machine/Operands.lean ====
section
/-! DEFINITION. Operand forms: length clamping and padding, timeouts, frames of the multiplexer, results. -/

namespace Sys2Proof.Machine

/-- n = min(len, 32) (R91). -/
def clampLen (len : Nat) : Nat := min len Config.frameBytes

/-- The 32 bytes WRITEDATA sends for a payload P and a length: P[k] for k < n, then zero padding (R80, R117). -/
def payloadOf (P : List Byte) (len : Nat) : List Byte :=
  (List.range Config.frameBytes).map
    (fun k => if k < clampLen len then P.getD k Config.padByte else Config.padByte)

/-- The budget of WAIT_RX and WAIT_TX, unsigned, in ms (R92). -/
def budgetOf (timeout : BitVec 16) : Nat := timeout.toNat

/-- The payload of a multiplexer frame: the indicator, then the pending bytes (R87, R160). -/
def muxPayload (ind : Byte) (pending : List Byte) : List Byte := ind :: pending

/-- The response of RD_STATUS: the word assembled from the four captured bytes (R89, R119). -/
def statusResponse (asm : List Byte) : Rsp := { word := assembleWord asm }

/-- The response of RD_DATA: the captured frame (R121). -/
def frameResponse (asm : List Byte) : Rsp := { frame := frameBitsOf asm }

/-- A response with one byte (R73). -/
def byteResponse (b : Byte) : Rsp := { byte := b }

/-- The response of WAIT_RX and WAIT_TX: zext_8 of the field (R147, R148). -/
def fieldResponse (f : BitVec 4) : Rsp := { byte := f.setWidth 8 }

/-- AVAIL's count: 0 if rx_cur = 0, else 32 - rx_cur (R184). -/
def availCount (rxCur : Nat) : Nat := if rxCur = 0 then 0 else Config.rxCurMax - rxCur

/-- The response of AVAIL (R184). -/
def availResponse (rxCur : Nat) : Rsp := { byte := BitVec.ofNat 8 (availCount rxCur) }

end Sys2Proof.Machine
end

