-- ==== Sys2Proof/Machine/Ops.lean ====
section
/-! DEFINITION. The named operations over the buffers, the inputs, the trace, the sequencer and the ports; IllegalOp; reset. -/

namespace Sys2Proof.Machine

/-! ### The two byte memories (R50, R51) -/

/-- The byte at an index, if one has been written. -/
def Mem.read : Mem → Nat → Option Byte
  | [], _ => none
  | (a, v) :: m, i => if a = i then some v else Mem.read m i

/-- Write one byte, keeping the cells in rising order. -/
def Mem.write : Mem → Nat → Byte → Mem
  | [], i, v => [(i, v)]
  | (a, w) :: m, i, v =>
    if i < a then (i, v) :: (a, w) :: m
    else if i = a then (i, v) :: m
    else (a, w) :: Mem.write m i v

/-- Write bytes at consecutive indices from i. -/
def Mem.writeAll : Mem → Nat → List Byte → Mem
  | m, _, [] => m
  | m, i, b :: bs => Mem.writeAll (m.write i b) (i + 1) bs

/-- A read of a memory with the given number of bytes. -/
def Mem.fetch (m : Mem) (size i : Nat) : Except Fault Byte :=
  if i < size then
    match m.read i with
    | some b => .ok b
    | none => .error .unwrittenByte
  else .error .noSuchByte

/-- `MemRead(TXB, i, 1)` (R51). -/
def State.readTx (s : State) (i : Nat) : Except Fault Byte := s.txBuf.fetch Config.txCap i

/-- `MemRead(RXB, i, 1)` (R51). -/
def State.readRx (s : State) (i : Nat) : Except Fault Byte := s.rxBuf.fetch Config.frameBytes i

/-- `MemWrite(TXB, i, 1, v)` (R51). -/
def State.writeTx (s : State) (i : Nat) (v : Byte) : Except Fault State :=
  if i < Config.txCap then .ok { s with txBuf := s.txBuf.write i v } else .error .noSuchByte

/-- `MemWrite(RXB, 0, 32, F)` (R51): all 32 bytes as a unit. -/
def State.writeRx (s : State) (frame : List Byte) : Except Fault State :=
  if frame.length = Config.frameBytes then .ok { s with rxBuf := s.rxBuf.writeAll 0 frame }
  else .error .noSuchByte

/-- n bytes of TXB from index i, oldest first (R21). -/
def State.readTxMany (s : State) : Nat → Nat → Except Fault (List Byte)
  | _, 0 => .ok []
  | i, n + 1 =>
    match s.readTx i with
    | .error f => .error f
    | .ok b =>
      match s.readTxMany (i + 1) n with
      | .error f => .error f
      | .ok bs => .ok (b :: bs)

/-- Go on with the value of a buffer access, or stop with its fault. -/
def andThen {α : Type} (r : Except Fault α) (k : α → Outcome) : Outcome :=
  match r with
  | .ok a => k a
  | .error f => .fault f

/-- `tx_cur <- n`. -/
def State.setTxCur (s : State) (n : Nat) : State := { s with txCur := n }

/-- `rx_cur <- n`. -/
def State.setRxCur (s : State) (n : Nat) : State := { s with rxCur := n }

/-! ### The inputs: one sample each (R36, R39, R40, R42, log 2) -/

/-- Sample rst at a clock edge. -/
def State.sampleRst (s : State) : Bool × State :=
  match s.env.rst with
  | b :: bs => (b, { s with env := { s.env with rst := bs } })
  | [] => (Config.freeRst s.env.draws, { s with env := { s.env with draws := s.env.draws + 1 } })

/-- Sample the request port at an idle clock edge. -/
def State.sampleRequest (s : State) : Option Req × State :=
  match s.env.requests with
  | q :: qs => (q, { s with env := { s.env with requests := qs } })
  | [] => (Config.freeRequest s.env.draws, { s with env := { s.env with draws := s.env.draws + 1 } })

/-- Sample sx_done and sx_rx at a clock edge at which an exchange is outstanding. -/
def State.sampleSerial (s : State) : Option Byte × State :=
  match s.env.serial with
  | b :: bs => (b, { s with env := { s.env with serial := bs } })
  | [] => (Config.freeSerial s.env.draws, { s with env := { s.env with draws := s.env.draws + 1 } })

/-- Sample ms_now. -/
def State.sampleTimer (s : State) : Ms × State :=
  match s.env.timer with
  | t :: ts => (t, { s with env := { s.env with timer := ts } })
  | [] => (Config.freeTimer s.env.draws, { s with env := { s.env with draws := s.env.draws + 1 } })

/-! ### The trace, the ports and the primitives of R12 other than the link's -/

/-- Append an event to the trace (R13). -/
def State.emit (s : State) (e : Event) : State := { s with trace := e :: s.trace }

/-- End the one-cycle pulses of the last cycle (R38, R39, R41). The data outputs are valid in the cycle of
their pulse only: outside it they are free values (log 10). -/
def State.clearPulses (s : State) : State :=
  { s with
    out :=
      { rspValid := false, rsp := Config.freeRsp s.env.draws
        sxStart := false, sxTx := Config.freeSxTx s.env.draws
        yieldO := false
        warnO := false, warnKind := Config.freeWarnKind s.env.draws }
    env := { s.env with draws := s.env.draws + 1 } }

/-- `Now()`: sample the Timer and emit NOW(t) (R12). -/
def State.now (s : State) : Ms × State :=
  (s.sampleTimer.1, s.sampleTimer.2.emit (.now s.sampleTimer.1))

/-- `Yield()`: pulse yield_o and emit YIELD (R12, R41). -/
def State.yieldNow (s : State) : State :=
  { s with out := { s.out with yieldO := true }, trace := .yielded :: s.trace }

/-- `Warn(k)`: pulse warn_o with warn_kind k and emit WARN(k) (R12, R41). -/
def State.warn (s : State) (k : BitVec 1) : State :=
  { s with out := { s.out with warnO := true, warnKind := k }, trace := .warn k :: s.trace }

/-- `respond(r)`: the response pulse, RSP(r), and the return to IDLE (R12, R37, R38). R37 holds req_ready at 0
until the response has been delivered. DESIGN CHOICE, unsafe (log 21): the edge that raises rsp_valid is the
delivery, so the block is IDLE, and req_ready already 1, in the cycle of rsp_valid. The
assembly register is emptied, so that the block keeps no copy of the peer's status word between operations (R28).
R34 gives the sequencer's registers only while an operation executes: that the register is emptied of a frame's bytes
too, and that req, t0 and dur stay in IDLE as the operation left them, until the next write of each, is a DESIGN
CHOICE, unsafe (log 23). -/
def State.respond (s : State) (r : Rsp) : State :=
  { s with
    out := { s.out with rspValid := true, rsp := r }
    trace := .rsp r :: s.trace
    seq := { s.seq with phase := .idle, asm := [] } }

/-! ### Taking IllegalOp (R201): the block's one `raise`. There is no trap and no return from one (R204). -/

/-- `raise IllegalOp(op)`: the response with illegal = 1 and every other field 0, nothing else. -/
def State.raiseIllegalOp (s : State) : State := s.respond { illegal := true }

/-! ### The sequencer (R34) -/

/-- Move to another place of the operation. -/
def State.goto (s : State) (p : Phase) : State := { s with seq := { s.seq with phase := p } }

/-- Keep the loop start sample. R206 gives it for the duration of its loop only: that it stays after the loop, until
the next loop's sample replaces it, is a DESIGN CHOICE, unsafe (log 23). -/
def State.setT0 (s : State) (t : Ms) : State := { s with seq := { s.seq with t0 := t } }

/-- Enter a transaction subroutine that returns to place p (R114 to R118). The assembly register starts empty (log 17). -/
def State.call (s : State) (c : WireCmd) (p : Phase) : State :=
  { s with seq := { s.seq with phase := p, txn := some ⟨c, .startAssert⟩, asm := [] } }

/-- Move to another sub-phase of the transaction in flight. -/
def State.gotoTxn (s : State) (p : TxnPhase) : State :=
  { s with seq := { s.seq with txn := s.seq.txn.map (fun t => { t with sub := p }) } }

/-- Leave the transaction in flight: it returns to its caller. The assembly register and the duration counter stay
as they are in the operation: DESIGN CHOICE, unsafe, after the caller has used them (log 23). -/
def State.endTxn (s : State) : State := { s with seq := { s.seq with txn := none } }

/-- Latch an accepted request, emit REQ(q) and leave IDLE (R37). -/
def State.accept (s : State) (q : Req) : State :=
  { s with
    seq := { s.seq with phase := .decode, req := q, txn := none }
    trace := .req q :: s.trace }

/-! ### The link (R31, R39, R111 to R113, R244) -/

/-- ceil(T x CLK_HZ) clk cycles for a duration of T microseconds (R244). -/
def cyclesOf (micros clkHz : Nat) : Nat :=
  micros * clkHz / 1000000 + (if micros * clkHz % 1000000 = 0 then 0 else 1)

/-- Set the select line. -/
def State.setSs (s : State) (l : SelectLine) : State := { s with ss := l }

/-- Load the duration counter. -/
def State.setDur (s : State) (n : Nat) : State := { s with seq := { s.seq with dur := n } }

/-- `ss <- ASSERTED`, to be held for T_SS_ASSERT (R111, R112). -/
def State.assertSs (s : State) : State :=
  (s.setSs .asserted).setDur (cyclesOf Config.tSsAssert s.clkHz)

/-- One cycle of a hold: count down, or, in its last cycle, go on. The counter keeps its last count after the hold:
DESIGN CHOICE, unsafe (log 23). -/
def State.hold (s : State) (done : State → State) : State :=
  if s.seq.dur ≤ 1 then done s else s.setDur (s.seq.dur - 1)

/-- Pulse sx_start with sx_tx = m (R39). -/
def State.startByte (s : State) (m : Byte) : State :=
  { s with out := { s.out with sxStart := true, sxTx := m } }

/-- Shift a captured byte into the assembly register. -/
def State.capture (s : State) (b : Byte) : State :=
  { s with seq := { s.seq with asm := s.seq.asm ++ [b] } }

/-! ### Derived outputs -/

/-- ss_o: the select line at the level of SS_ASSERT_LEVEL (R31, R39, log 7). -/
def State.ssO (s : State) : Bool :=
  match s.ss with
  | .asserted => Config.ssAssertLevel
  | .deasserted => !Config.ssAssertLevel

/-- req_ready: 1 exactly when the sequencer is IDLE, held at 0 while rst = 1 (R37, R230). It is 1 in the cycle
of rsp_valid: DESIGN CHOICE (log 21). -/
def State.reqReady (s : State) (rst : Bool) : Bool := decide (s.seq.phase = .idle) && !rst

/-! ### Reset of a running block (R230 to R232) -/

/-- The effect of rst = 1 at a clock edge: every piece of state takes its reset value. The trace, the inputs
and CLK_HZ are not state of the block and stay (log 11). -/
def State.applyReset (s : State) : State :=
  { State.reset with trace := s.trace, env := s.env, clkHz := s.clkHz }

end Sys2Proof.Machine
end

