-- ==== Sys2Proof/Machine/FlowControl.lean ====
section
/-! DEFINITION. The ready-polling loop (R142 to R146) and the consumer wait operations (R147, R148). -/

namespace Sys2Proof.Machine

/-- The field last seen by the loop, from the assembly register (R28, R142). -/
def lastField (sel : Sel) (s : State) : BitVec 4 := sel.field (assembleWord s.seq.asm)

/-- `WaitReady(sel, B)` (R142) at one of its places. `here` names the phase the loop runs in; `back` is where
it returns with the field it last read. The loop ends only on READY or expiry, after any number of turns
(R150); that the Timer progresses is an assumption on the environment (log 22). -/
def waitReady (sel : Sel) (budget : Nat) (here : WaitAt → Phase) (back : BitVec 4 → Phase)
    (p : WaitAt) (s : State) : State :=
  match p with
  | .sampleT0 => (s.now.2.setT0 s.now.1).call .readStatus (here .test)
  | .test =>
    if lastField sel s = sel.ready then s.goto (back (lastField sel s))
    else if expired s.seq.t0 s.now.1 budget then s.now.2.goto (here .warn)
    else s.now.2.goto (here .yieldNext)
  | .warn => (s.warn sel.kind).goto (back (lastField sel s))
  | .yieldNext => s.yieldNow.call .readStatus (here .test)

/-- A consumer wait: the loop with the operand's budget, then the field as response. -/
def consumerWait (sel : Sel) (timeout : BitVec 16) (s : State) : Outcome :=
  match s.seq.phase with
  | .decode => .next (s.goto (.waitLoop .sampleT0))
  | .waitLoop p =>
    .next (waitReady sel (budgetOf timeout) .waitLoop (fun f => .respond (.send (fieldResponse f))) p s)
  | .respond (.send r) => .next (s.respond r)
  | _ => .fault .offSequence

/-- WAIT_RX (R147). -/
def execWaitRx (timeout : BitVec 16) (s : State) : Outcome := consumerWait .rx timeout s

/-- WAIT_TX (R148). -/
def execWaitTx (timeout : BitVec 16) (s : State) : Outcome := consumerWait .tx timeout s

end Sys2Proof.Machine
end

