-- ==== Sys2Proof/Machine/MuxIn.lean ====
section
/-! DEFINITION. The incoming multiplexer path (R180 to R184): READ_BYTE with its frame poll and continuation fetch, AVAIL. -/

namespace Sys2Proof.Machine

/-- `tx_cur <- 0` and the three ways of R180: continue or end a consumed frame, poll, deliver. -/
def readDecode (s : State) : Outcome :=
  if s.rxCur = Config.rxCurMax then
    andThen (s.readRx 0) (fun ind =>
      .next ((s.setTxCur 0).goto
        (if ind = Config.indContinues then .rxContWait .sampleT0
         else .respond (.send (byteResponse Config.sentinel)))))
  else if s.rxCur = 0 then .next ((s.setTxCur 0).goto (.rxPoll .sampleT0))
  else .next ((s.setTxCur 0).goto (.respond .deliver))

/-- RX_CONT_FETCH (R182): exactly one READDATA, accepted whatever its byte 0 is. -/
def contFetch (p : FetchAt) (s : State) : Outcome :=
  match p with
  | .issue => .next (s.call .readData (.rxContFetch .store))
  | .store => andThen (s.writeRx s.seq.asm) (fun u => .next (u.goto (.rxContFetch .setCur)))
  | .setCur => .next ((s.setRxCur 1).goto (.respond .deliver))

/-- RX_POLL (R181). Exhaustion leaves rx_cur at 0 and warns of nothing. Like the wait loop it has no bound on its
turns but the Timer (R150, R242, log 22). -/
def pollFrame (p : PollAt) (s : State) : Outcome :=
  match p with
  | .sampleT0 => .next ((s.now.2.setT0 s.now.1).call .readData (.rxPoll .store))
  | .store =>
    andThen (s.writeRx s.seq.asm) (fun u =>
      andThen (u.readRx 0) (fun ind =>
        .next (u.goto (.rxPoll (if validIndicator ind then .setCur else .expire)))))
  | .setCur => .next ((s.setRxCur 1).goto (.respond .deliver))
  | .expire =>
    .next (s.now.2.goto
      (if expired s.seq.t0 s.now.1 Config.tRxPoll then .respond (.send (byteResponse Config.sentinel))
       else .rxPoll .yieldNext))
  | .yieldNext => .next (s.yieldNow.call .readData (.rxPoll .store))

/-- The common tail of R180: return the byte at the cursor and advance it. -/
def deliverByte (s : State) : Outcome :=
  andThen (s.readRx s.rxCur) (fun r =>
    .next ((s.setRxCur (s.rxCur + 1)).goto (.respond (.send (byteResponse r)))))

/-- READ_BYTE (R180). -/
def execReadByte (s : State) : Outcome :=
  match s.seq.phase with
  | .decode => readDecode s
  | .rxContWait p =>
    .next (waitReady .tx Config.tReady .rxContWait (fun _ => .rxContFetch .issue) p s)
  | .rxContFetch p => contFetch p s
  | .rxPoll p => pollFrame p s
  | .respond .deliver => deliverByte s
  | .respond (.send r) => .next (s.respond r)
  | _ => .fault .offSequence

/-- AVAIL (R184): no traffic, no state written. -/
def execAvail (s : State) : Outcome :=
  match s.seq.phase with
  | .decode => .next (s.respond (availResponse s.rxCur))
  | _ => .fault .offSequence

end Sys2Proof.Machine
end

