-- ==== Sys2Proof/Machine/MuxOut.lean ====
section
/-! DEFINITION. The outgoing multiplexer path (R160 to R163): Flush, WRITE_BYTE, FLUSH_FIN, FLUSH_CONT. -/

namespace Sys2Proof.Machine

/-- FLUSH_SEND (R160): build P, send it, then `tx_cur <- 0` and return. -/
def flushSend (ind : Byte) (back : Phase) (p : SendAt) (s : State) : Outcome :=
  match p with
  | .issue =>
    andThen (s.readTxMany 0 s.txCur) (fun pending =>
      .next (s.call (.writeData (payloadOf (muxPayload ind pending) (1 + s.txCur))) (.flushSend .clear)))
  | .clear => .next ((s.setTxCur 0).goto back)

/-- The gating wait of Flush (R160): receiver-ready, T_READY, result ignored. -/
def flushWait (p : WaitAt) (s : State) : State :=
  waitReady .rx Config.tReady .waitLoop (fun _ => .flushSend .issue) p s

/-- `rx_buf` is not touched; `rx_cur <- 0` abandons the incoming frame (R161, R168); then the automatic flush
if tx_cur = 31. -/
def writeDecode (s : State) : State :=
  (s.setRxCur 0).goto (if s.txCur = Config.txCap then .waitLoop .sampleT0 else .respond .append)

/-- WRITE_BYTE (R161). -/
def execWriteByte (b : Byte) (s : State) : Outcome :=
  match s.seq.phase with
  | .decode => .next (writeDecode s)
  | .waitLoop p => .next (flushWait p s)
  | .flushSend p => flushSend Config.indContinues (.respond .append) p s
  | .respond .append => andThen (s.writeTx s.txCur b) (fun u => .next (u.goto (.respond .advance)))
  | .respond .advance => .next ((s.setTxCur (s.txCur + 1)).goto (.respond (.send Rsp.ack)))
  | .respond (.send r) => .next (s.respond r)
  | _ => .fault .offSequence

/-- `Flush(ind); respond(ack)` (R160, R162, R163): with tx_cur = 0 only the response (R164). -/
def flushOp (ind : Byte) (s : State) : Outcome :=
  match s.seq.phase with
  | .decode => .next (if s.txCur = 0 then s.respond Rsp.ack else s.goto (.waitLoop .sampleT0))
  | .waitLoop p => .next (flushWait p s)
  | .flushSend p => flushSend ind (.respond (.send Rsp.ack)) p s
  | .respond (.send r) => .next (s.respond r)
  | _ => .fault .offSequence

/-- FLUSH_FIN (R162, R88). -/
def execFlushFin (s : State) : Outcome := flushOp Config.indFinished s

/-- FLUSH_CONT (R163, R88). -/
def execFlushCont (s : State) : Outcome := flushOp Config.indContinues s

end Sys2Proof.Machine
end

