-- ==== Sys2Proof/Machine/Reserved.lean ====
section
/-! DEFINITION. The reserved op codes (R74, R201): IllegalOp, answered at once. -/

namespace Sys2Proof.Machine

/-- A reserved request at DECODE: IllegalOp before anything else (R201, R203). -/
def illegalStep (s : State) : Outcome :=
  match s.seq.phase with
  | .decode => .next s.raiseIllegalOp
  | _ => .fault .offSequence

/-- Op code 0x0. -/
def execReserved0 (s : State) : Outcome := illegalStep s

/-- Op code 0x7. -/
def execReserved7 (s : State) : Outcome := illegalStep s

/-- Op code 0xD. -/
def execReservedD (s : State) : Outcome := illegalStep s

/-- Op code 0xE. -/
def execReservedE (s : State) : Outcome := illegalStep s

/-- Op code 0xF. -/
def execReservedF (s : State) : Outcome := illegalStep s

end Sys2Proof.Machine
end

