-- ==== Sys2Proof/Machine/Transport.lean ====
section
/-! DEFINITION. The consumer transport operations (R119 to R122): one raw transaction, then the response. -/

namespace Sys2Proof.Machine

/-- A raw transport operation: at DECODE it calls its transaction, which returns to RESPOND; there it
responds with what `result` makes of the assembly register. -/
def rawStep (c : WireCmd) (result : List Byte → Rsp) (s : State) : Outcome :=
  match s.seq.phase with
  | .decode => .next (s.call c (.respond .collect))
  | .respond .collect => .next (s.respond (result s.seq.asm))
  | _ => .fault .offSequence

/-- WR_STATUS (R120): all 32 bits as given. -/
def execWrStatus (w : Word) (s : State) : Outcome :=
  rawStep (.writeStatus w) (fun _ => Rsp.ack) s

/-- WR_DATA (R122): the first min(len, 32) operand bytes, zero-padded; not gated. -/
def execWrData (len : Byte) (frame : List Byte) (s : State) : Outcome :=
  rawStep (.writeData (payloadOf frame len.toNat)) (fun _ => Rsp.ack) s

/-- RD_DATA (R121): the frame goes to the response, not to rx_buf. -/
def execRdData (s : State) : Outcome :=
  rawStep .readData frameResponse s

/-- RD_STATUS (R119): all 32 bits as received. -/
def execRdStatus (s : State) : Outcome :=
  rawStep .readStatus statusResponse s

end Sys2Proof.Machine
end

