-- ==== Sys2Proof/Machine/Wire.lean ====
section
/-! DEFINITION. The four wire commands (R110 to R118): start pulse, body of byte exchanges, end pulse, one clock edge at a time. -/

namespace Sys2Proof.Machine

/-- `SelStart()` step 1, then 2 and 3 (R111): assert, hold, deassert; the gap's hold is loaded. -/
def State.startAssertStep (s : State) : State :=
  match s.ss with
  | .deasserted => s.assertSs
  | .asserted =>
    s.hold (fun u => ((u.setSs .deasserted).setDur (cyclesOf Config.tSsGap u.clkHz)).gotoTxn .startGap)

/-- `SelStart()` steps 4 and 5 (R111): hold the gap, then START; the body begins. -/
def State.startGapStep (s : State) : State :=
  s.hold (fun u => (u.emit .start).gotoTxn (.body 0 false))

/-- `SelEnd()` (R112): assert, hold, deassert, END; the transaction returns. -/
def State.endAssertStep (s : State) : State :=
  match s.ss with
  | .deasserted => s.assertSs
  | .asserted => s.hold (fun u => ((u.setSs .deasserted).emit .stop).endTxn)

/-- Where exchange k of a body of n bytes leads: the next exchange or the end pulse. -/
def afterByte (k n : Nat) : TxnPhase := if k + 1 < n then .body (k + 1) false else .endAssert

/-- The end of exchange k: X(m, b), and b is captured if the transaction returns it (R113). -/
def State.finishByte (s : State) (m b : Byte) (captured : Bool) (next : TxnPhase) : State :=
  ((if captured then s.capture b else s).emit (.x m b)).gotoTxn next

/-- `Xfer(m)` (R39, R113): pulse sx_start, then wait for sx_done, as many edges as the serializer takes, forever
if it never answers (R247 (a), log 22). -/
def State.byteStep (s : State) (m : Byte) (captured : Bool) (k n : Nat) (sent : Bool) : State :=
  if sent then
    match s.sampleSerial with
    | (none, u) => u
    | (some b, u) => u.finishByte m b captured (afterByte k n)
  else (s.startByte m).gotoTxn (.body k true)

/-- One clock edge of a transaction whose MOSI bytes are `body` and which returns the MISO bytes of the
exchanges from `capFrom` on (R114 to R118). -/
def txnStep (body : List Byte) (capFrom : Nat) (s : State) : Outcome :=
  match s.seq.txn with
  | none => .fault .offSequence
  | some t =>
    match t.sub with
    | .startAssert => .next s.startAssertStep
    | .startGap => .next s.startGapStep
    | .body k sent =>
      match body[k]? with
      | none => .fault .offSequence
      | some m => .next (s.byteStep m (decide (capFrom ≤ k)) k body.length sent)
    | .endAssert => .next s.endAssertStep

/-- WRITESTATUS (R115, R78): 5 exchanges, nothing returned. -/
def execWireWriteStatus (w : Word) (s : State) : Outcome :=
  txnStep (wireBody (.writeStatus w)) 5 s

/-- WRITEDATA (R117, R80): 34 exchanges, nothing returned. -/
def execWireWriteData (payload : List Byte) (s : State) : Outcome :=
  txnStep (wireBody (.writeData payload)) 34 s

/-- READDATA (R116, R79): 34 exchanges, the last 32 returned. -/
def execWireReadData (s : State) : Outcome :=
  txnStep (wireBody .readData) 2 s

/-- READSTATUS (R114, R77): 5 exchanges, the last 4 returned. -/
def execWireReadStatus (s : State) : Outcome :=
  txnStep (wireBody .readStatus) 1 s

end Sys2Proof.Machine
end

