-- ==== Sys2Proof/Machine/Dispatch.lean ====
section
/-! DEFINITION. exec: one arm per instruction, each one call of its meaning. -/

namespace Sys2Proof.Machine

def exec (i : Instr) (s : State) : Host.Outcome State Fault Refusal :=
  match i with
  | .wrStatus w => Sys2Proof.Machine.execWrStatus w s
  | .wrData len frame => Sys2Proof.Machine.execWrData len frame s
  | .rdData => Sys2Proof.Machine.execRdData s
  | .rdStatus => Sys2Proof.Machine.execRdStatus s
  | .waitRx timeout => Sys2Proof.Machine.execWaitRx timeout s
  | .waitTx timeout => Sys2Proof.Machine.execWaitTx timeout s
  | .writeByte b => Sys2Proof.Machine.execWriteByte b s
  | .flushFin => Sys2Proof.Machine.execFlushFin s
  | .flushCont => Sys2Proof.Machine.execFlushCont s
  | .readByte => Sys2Proof.Machine.execReadByte s
  | .avail => Sys2Proof.Machine.execAvail s
  | .reserved0 => Sys2Proof.Machine.execReserved0 s
  | .reserved7 => Sys2Proof.Machine.execReserved7 s
  | .reservedD => Sys2Proof.Machine.execReservedD s
  | .reservedE => Sys2Proof.Machine.execReservedE s
  | .reservedF => Sys2Proof.Machine.execReservedF s
  | .wireWriteStatus w => Sys2Proof.Machine.execWireWriteStatus w s
  | .wireWriteData payload => Sys2Proof.Machine.execWireWriteData payload s
  | .wireReadData => Sys2Proof.Machine.execWireReadData s
  | .wireReadStatus => Sys2Proof.Machine.execWireReadStatus s

end Sys2Proof.Machine
end

