-- ==== Sys2Proof/Machine/Fetch.lean ====
section
/-! DEFINITION. What a clock edge does: a reset, an acceptance, nothing, or one edge of the wire command or the operation in flight. -/

namespace Sys2Proof.Machine

/-- What there is to do at a clock edge. -/
inductive Fetched where
  /-- Nothing to execute: the edge leaves this state (a reset, an acceptance, or idle with no request). -/
  | quiet (s : State)
  /-- Execute the instruction on the state. -/
  | run (i : Instr) (s : State)
  deriving DecidableEq, Repr

/-- The instruction in flight: the wire command if a transaction runs, else the latched request's operation. -/
def State.inFlight (s : State) : Instr :=
  match s.seq.txn with
  | some t => t.cmd.toInstr
  | none => decodeReq s.seq.req

/-- An edge at which the block is idle: accept a request if one is presented (R37). The operation's DECODE is
the next edge (log 9). -/
def State.fetchIdle (s : State) : Fetched :=
  match s.sampleRequest with
  | (none, u) => .quiet u
  | (some q, u) => .quiet (u.accept q)

/-- An edge with rst = 0. -/
def State.fetchLive (s : State) : Fetched :=
  match s.seq.phase with
  | .idle => s.fetchIdle
  | _ => .run s.inFlight s

/-- One clock edge (R42): rst first (R203, R230, R231), then the sequencer. -/
def State.fetch (s : State) : Fetched :=
  match s.sampleRst with
  | (true, u) => .quiet u.applyReset
  | (false, u) => u.clearPulses.fetchLive

/-- The operation whose raw form issues a wire command. -/
def WireCmd.hostReq : WireCmd → Req
  | .writeStatus w => { Req.plain 0x1#4 with a32 := w }
  | .writeData payload => { Req.plain 0x2#4 with a8 := 32, frame := frameBitsOf payload }
  | .readData => Req.plain 0x3#4
  | .readStatus => Req.plain 0x4#4

/-- The state in which request q has just been accepted and the next edge, with rst = 0, is the DECODE of its
operation (log 13). -/
def State.presentRequest (s : State) (q : Req) : State :=
  { s.accept q with env := { s.env with rst := false :: s.env.rst } }

/-- The state in which the next edge, with rst = 0, is the first of wire command c (log 13). -/
def State.presentWire (s : State) (c : WireCmd) : State :=
  { s with
    seq := { s.seq with
      phase := .respond .collect, req := WireCmd.hostReq c, txn := some ⟨c, .startAssert⟩, asm := [] }
    env := { s.env with rst := false :: s.env.rst } }

/-- Place a table word where the next edge fetches it: as the request just accepted, or, for the width of a wire
body, as the transaction in flight. -/
def State.placeWord (s : State) (nbits w : Nat) : State :=
  match formatOfWidth nbits with
  | .request => s.presentRequest (Req.unpack (natOfBytes (tableBytes nbits w)))
  | .wire =>
    match decodeWire (tableBytes nbits w) with
    | .ok (c, _) => s.presentWire c
    | .error _ => s

end Sys2Proof.Machine
end

