-- ==== Sys2Proof/Machine/Step.lean ====
section
/-! DEFINITION. step: one rising clock edge (R42, log 1); where a table word is placed for it. -/

namespace Sys2Proof.Machine

/-- One rising clock edge: what `State.fetch` finds to do, done. -/
def step (s : State) : Host.Outcome State Fault Refusal :=
  match s.fetch with
  | .quiet u => .next u
  | .run i u => exec i u

/-- s with the instruction placed where step fetches its next one. -/
def State.withFetchWord (s : State) (nbits w : Nat) : State := s.placeWord nbits w

end Sys2Proof.Machine
end

