-- ==== Sys2Proof/Safety.lean ====
section
/-! DEFINITION. What claims are stated in: invariants of the state, runs of clock edges with rst low, the environment assumptions of R150 and R247, event lists of transactions. -/

namespace Sys2Proof.Machine

/-! ### Unchanged parts -/

/-- Both buffers and both cursors are the same. -/
def SameBuffers (s t : State) : Prop :=
  t.txBuf = s.txBuf ∧ t.txCur = s.txCur ∧ t.rxBuf = s.rxBuf ∧ t.rxCur = s.rxCur

/-- Everything the link engine owns is the same: select line, transaction ports, duration counter, serializer. That
the counter keeps its value outside a pulse is the model's choice (log 23). -/
def SameLink (s t : State) : Prop :=
  t.ss = s.ss ∧ t.seq.dur = s.seq.dur ∧ t.out.sxStart = s.out.sxStart ∧ t.out.sxTx = s.out.sxTx ∧
    t.env.serial = s.env.serial

/-- Everything only an operation (not a wire command) writes is the same, the buffers and the trace aside. That t0
keeps its value outside its loop is the model's choice (log 23). -/
def SameOperation (s t : State) : Prop :=
  t.seq.phase = s.seq.phase ∧ t.seq.req = s.seq.req ∧ t.seq.t0 = s.seq.t0 ∧
    t.out.rspValid = s.out.rspValid ∧ t.out.rsp = s.out.rsp ∧ t.out.yieldO = s.out.yieldO ∧
    t.out.warnO = s.out.warnO ∧ t.out.warnKind = s.out.warnKind ∧ t.env.timer = s.env.timer

/-- What no instruction touches: the coming rst and request samples and CLK_HZ. That a busy edge takes nothing from
the request script is the model's choice (log 20, log 2). -/
def SameWorld (s t : State) : Prop :=
  t.env.rst = s.env.rst ∧ t.env.requests = s.env.requests ∧ t.clkHz = s.clkHz

/-- The operation has ended with response r: rsp_valid pulses, RSP(r) is the newest event, the block is IDLE. IDLE
in the cycle of rsp_valid is the model's choice (log 21). -/
def Responds (s t : State) (r : Rsp) : Prop :=
  t.out.rspValid = true ∧ t.out.rsp = r ∧ t.trace = .rsp r :: s.trace ∧ t.seq.phase = .idle

/-! ### Memory -/

/-- Both memories are in canonical form and list only indices they have (R50). -/
def MemInv (s : State) : Prop :=
  s.txBuf.wf = true ∧ s.rxBuf.wf = true ∧
    (∀ c ∈ s.txBuf, c.1 < Config.txCap) ∧ (∀ c ∈ s.rxBuf, c.1 < Config.frameBytes)

/-- Every one of the first n bytes has been written. -/
def Written (m : Mem) (n : Nat) : Prop := ∀ i, i < n → (m.read i).isSome = true

/-! ### The invariant of the sequencer -/

/-- How many bytes a wire command returns (R114 to R117). -/
def captureCount : WireCmd → Nat
  | .writeStatus _ => 0
  | .writeData _ => 0
  | .readData => 32
  | .readStatus => 4

/-- The exchange from which a wire command's bytes are returned (R114 to R117). -/
def captureFrom : WireCmd → Nat
  | .writeStatus _ => 5
  | .writeData _ => 34
  | .readData => 2
  | .readStatus => 1

/-- The transaction a raw operation issues (R119 to R122). -/
def rawCmd : Instr → Option WireCmd
  | .wrStatus w => some (.writeStatus w)
  | .wrData len frame => some (.writeData (payloadOf frame len.toNat))
  | .rdData => some .readData
  | .rdStatus => some .readStatus
  | .waitRx _ | .waitTx _ | .writeByte _ | .flushFin | .flushCont | .readByte | .avail
  | .reserved0 | .reserved7 | .reservedD | .reservedE | .reservedF
  | .wireWriteStatus _ | .wireWriteData _ | .wireReadData | .wireReadStatus => none

/-- WRITE_BYTE and the flushes: the operations with FLUSH_SEND in their pseudocode (R160 to R163). -/
def flushes : Instr → Bool
  | .writeByte _ | .flushFin | .flushCont => true
  | _ => false

/-- WAIT_RX and WAIT_TX (R147, R148). -/
def waits : Instr → Bool
  | .waitRx _ | .waitTx _ => true
  | _ => false

/-- WRITE_BYTE (R161). -/
def appends : Instr → Bool
  | .writeByte _ => true
  | _ => false

/-- The places of each operation's tail. -/
def ownsTail (i : Instr) : RespondAt → Bool
  | .collect => (rawCmd i).isSome
  | .append => appends i
  | .advance => appends i
  | .deliver => decide (i = .readByte)
  | .send _ => waits i || flushes i || decide (i = .readByte)

/-- The places of each operation's pseudocode at which a clock edge can find it. DECODE is a place of every one. -/
def ownsPlace (i : Instr) : Phase → Bool
  | .idle => false
  | .decode => true
  | .waitLoop _ => waits i || flushes i
  | .flushSend _ => flushes i
  | .rxContWait _ => decide (i = .readByte)
  | .rxContFetch _ => decide (i = .readByte)
  | .rxPoll _ => decide (i = .readByte)
  | .respond p => ownsTail i p

/-- The transaction that returns to a place of an operation: which one it may be. -/
def callsAt (i : Instr) (p : Phase) (c : WireCmd) : Prop :=
  match p with
  | .waitLoop .test | .rxContWait .test => c = .readStatus
  | .rxContFetch .store | .rxPoll .store => c = .readData
  | .flushSend .clear => ∃ payload, c = .writeData payload
  | .respond .collect => rawCmd i = some c
  | _ => False

/-- How many bytes the assembly register holds in IDLE, where it keeps no copy of the status word (R28), and at a
place a transaction has returned to. -/
def returnedAt (i : Instr) (p : Phase) : Option Nat :=
  match p with
  | .idle => some 0
  | .waitLoop .test | .rxContWait .test => some 4
  | .rxContFetch .store | .rxPoll .store => some 32
  | .flushSend .clear => some 0
  | .respond .collect => (rawCmd i).map captureCount
  | _ => none

/-- A wire command whose payload is a whole frame. -/
def cmdWf (c : WireCmd) : Prop :=
  match c with
  | .writeData payload => payload.length = Config.frameBytes
  | .writeStatus _ | .readData | .readStatus => True

/-- The transaction in flight: its command, how far its body is, and how many bytes it has captured. -/
def TxnInv (s : State) (t : Txn) : Prop :=
  cmdWf t.cmd ∧ callsAt (decodeReq s.seq.req) s.seq.phase t.cmd ∧
    match t.sub with
    | .startAssert => s.seq.asm = []
    | .startGap => s.seq.asm = [] ∧ s.ss = .deasserted
    | .body k _ =>
      k < (wireBody t.cmd).length ∧ s.seq.asm.length = k - captureFrom t.cmd ∧ s.ss = .deasserted
    | .endAssert => s.seq.asm.length = captureCount t.cmd

/-- The sequencer stands at a place of the operation in flight (R34, R61); in IDLE its assembly register is empty
(R28, log 23). -/
def PlaceInv (s : State) : Prop :=
  (s.seq.phase = .idle ∨ ownsPlace (decodeReq s.seq.req) s.seq.phase = true) ∧
    match s.seq.txn with
    | some t => TxnInv s t
    | none =>
      s.ss = .deasserted ∧
        ∀ n, returnedAt (decodeReq s.seq.req) s.seq.phase = some n → s.seq.asm.length = n

/-- The range of rx_cur at each place (R24, R26): 1 exists only between a fetch and the return of byte 1. -/
def rxCurAt (p : Phase) (n : Nat) : Prop :=
  match p with
  | .respond .deliver => 1 ≤ n ∧ n ≤ 31
  | .rxContWait _ | .rxContFetch _ => n = 32
  | .rxPoll _ => n = 0
  | _ => n = 0 ∨ (2 ≤ n ∧ n ≤ 32)

/-- The range of tx_cur while a flush is under way: WRITE_BYTE flushes a full buffer only, FLUSH_FIN and
FLUSH_CONT a buffer that is not empty (R160, R161, R164). -/
def txCurInFlush (i : Instr) (n : Nat) : Prop :=
  (appends i = true → n = 31) ∧ (flushes i = true → 1 ≤ n)

/-- The range of tx_cur at each place, beside its range 0 to 31 (R160, R161). -/
def txCurWithin (i : Instr) (n : Nat) : Phase → Prop
  | .waitLoop _ => txCurInFlush i n
  | .flushSend _ => txCurInFlush i n
  | .rxContWait _ => n = 0
  | .rxContFetch _ => n = 0
  | .rxPoll _ => n = 0
  | .respond .append => n < 31
  | .respond .advance => n < 31
  | .respond .deliver => n = 0
  | _ => True

/-- The range of tx_cur at each place (R22, R160, R161). -/
def txCurAt (i : Instr) (p : Phase) (n : Nat) : Prop := n ≤ 31 ∧ txCurWithin i n p

/-- Both cursors are in range (R22, R24, R26). -/
def CursorInv (s : State) : Prop :=
  txCurAt (decodeReq s.seq.req) s.seq.phase s.txCur ∧ rxCurAt s.seq.phase s.rxCur

/-- Every byte the rules can read has been written since reset (R44). -/
def WrittenInv (s : State) : Prop :=
  Written s.txBuf s.txCur ∧
    (s.seq.phase = .respond .advance → (s.txBuf.read s.txCur).isSome = true) ∧
    (s.rxCur ≠ 0 → Written s.rxBuf Config.frameBytes) ∧
    (s.seq.phase = .rxPoll .setCur → Written s.rxBuf Config.frameBytes)

/-- The invariant of the machine at a clock edge. -/
def MachineInv (s : State) : Prop := PlaceInv s ∧ CursorInv s ∧ WrittenInv s

/-! ### The trace (newest event first) -/

/-- The MOSI bytes since the last START, if nothing but exchanges has happened since it. -/
def openBody : List Event → Option (List Byte)
  | .start :: _ => some []
  | .x m _ :: tr => (openBody tr).map (· ++ [m])
  | _ => none

/-- Every exchange lies in a bracket, and every END ends the whole body of one of the four wire commands
(R75, R76, R110). -/
def Bracketed : List Event → Prop
  | [] => True
  | .x _ _ :: tr => (openBody tr).isSome = true ∧ Bracketed tr
  | .stop :: tr => (∃ c, cmdWf c ∧ openBody tr = some (wireBody c)) ∧ Bracketed tr
  | .start :: tr | .req _ :: tr | .now _ :: tr | .yielded :: tr | .warn _ :: tr | .rsp _ :: tr => Bracketed tr

/-- The trace is bracketed, and the open bracket is the transaction in flight, as far as it has come. -/
def WireInv (s : State) : Prop :=
  Bracketed s.trace ∧
    ∀ t, s.seq.txn = some t → cmdWf t.cmd ∧
      match t.sub with
      | .startAssert | .startGap => True
      | .body k _ => k < (wireBody t.cmd).length ∧ openBody s.trace = some ((wireBody t.cmd).take k)
      | .endAssert => openBody s.trace = some (wireBody t.cmd)

/-- A request has been accepted and not yet answered. -/
def awaiting : List Event → Bool
  | [] => false
  | .req _ :: _ => true
  | .rsp _ :: _ => false
  | _ :: tr => awaiting tr

/-- Every response answers a request that had none yet (R37). -/
def Replied : List Event → Prop
  | [] => True
  | .rsp _ :: tr => awaiting tr = true ∧ Replied tr
  | .req _ :: tr | .start :: tr | .stop :: tr | .x _ _ :: tr | .now _ :: tr | .yielded :: tr | .warn _ :: tr =>
    Replied tr

/-- One response per request, and an operation in flight is still to be answered (R37): an answered
one is over in the cycle of rsp_valid, the model's choice (log 21). -/
def ReplyInv (s : State) : Prop := Replied s.trace ∧ (s.seq.phase ≠ .idle → awaiting s.trace = true)

/-! ### Runs of clock edges with rst = 0 -/

/-- s with rst = 0 at the coming edge. -/
def State.rstLow (s : State) : State := { s with env := { s.env with rst := false :: s.env.rst } }

/-- n clock edges with rst = 0. -/
def runEdges : Nat → State → Outcome
  | 0, s => .next s
  | n + 1, s =>
    match step s.rstLow with
    | .next t => runEdges n t
    | .fault f => .fault f
    | .refused r => .refused r

/-- Some number of edges with rst = 0 leads from s to t. -/
def Reaches (s t : State) : Prop := ∃ n, runEdges n s = .next t

/-- A run from s gets to an edge that executes i, and exec answers t there. -/
def Executes (s : State) (i : Instr) (t : State) : Prop :=
  ∃ u v, Reaches s u ∧ u.rstLow.fetch = .run i v ∧ exec i v = .next t

/-- The block is idle and the Consumer presents q at its next edge with rst = 0, the head of the request script
(log 2, log 20). -/
def Presents (s : State) (q : Req) : Prop :=
  s.seq.phase = .idle ∧ s.seq.txn = none ∧ s.ss = .deasserted ∧ ∃ more, s.env.requests = some q :: more

/-- From s, q is accepted and its operation i runs to its response r; `evs` are the events between REQ(q) and
RSP(r), oldest first. IDLE in the cycle of rsp_valid is the model's choice (log 21). -/
def Performs (s : State) (q : Req) (i : Instr) (evs : List Event) (r : Rsp) (t : State) : Prop :=
  decodeReq q = i ∧ Executes s i t ∧ t.seq.phase = .idle ∧ t.seq.txn = none ∧ t.ss = .deasserted ∧
    t.out.rspValid = true ∧ t.out.rsp = r ∧
    t.trace = .rsp r :: evs.reverse ++ .req q :: s.trace

/-! ### Endless runs, and what they assume of the environment (R150, R247)

The observation is the trace. R247 demands that two assumptions on the environment be listed where it is
defined: `SerializerAnswers` is (a), `TimerProgress` is (b), the fairness assumption of R150. No definition of
the machine rests on either (log 22): without (a) the block stalls inside a transaction forever, without (b) a
polling loop may go on forever, and how often it goes round has no bound. -/

/-- What the Consumer, the Peer and the Timer give at one clock edge with rst = 0: a request or req_valid = 0,
sx_rx or sx_done = 0, ms_now. -/
structure Ports where
  request : Option Req
  serial  : Option Byte
  msNow   : Ms

/-- s with these samples, and no others, at the coming edge. -/
def State.drive (s : State) (p : Ports) : State :=
  { s with
    env := { s.env with rst := [false], requests := [p.request], serial := [p.serial], timer := [p.msNow] } }

/-- An endless run with rst = 0: before edge n the block is in state `run n`, and `ports n` are the samples at
that edge. -/
def EndlessRun (ports : Nat → Ports) (run : Nat → State) : Prop :=
  ∀ n, step ((run n).drive (ports n)) = .next (run (n + 1))

/-- Edge n samples the Timer: it emits NOW(ms_now). -/
def SamplesTimer (ports : Nat → Ports) (run : Nat → State) (n : Nat) : Prop :=
  (run (n + 1)).trace = .now (ports n).msNow :: (run n).trace

/-- A byte exchange is outstanding: sx_start has been pulsed for it and sx_done has not come (R39). -/
def Outstanding (s : State) : Prop := ∃ c k, s.seq.txn = some ⟨c, .body k true⟩

/-- ENVIRONMENT ASSUMPTION (a) of R247: the serializer answers sx_done, however late, whenever an exchange is
outstanding. -/
def SerializerAnswers (ports : Nat → Ports) (run : Nat → State) : Prop :=
  ∀ n, Outstanding (run n) → ∃ m, n ≤ m ∧ (ports m).serial ≠ none

/-- ENVIRONMENT ASSUMPTION (b) of R247, the Timer progress of R150, a fairness assumption: if the run goes on
sampling the Timer, then for every budget B, the greatest timeout operand included, it some time samples a
value whose Elapsed from the loop's t0 has reached B. It bounds no number of turns. -/
def TimerProgress (ports : Nat → Ports) (run : Nat → State) : Prop :=
  ∀ n budget, budget ≤ 65535 → (∀ m, ∃ k, m ≤ k ∧ SamplesTimer ports run k) →
    ∃ k, n ≤ k ∧ SamplesTimer ports run k ∧ budget ≤ ((ports k).msNow - (run n).seq.t0).toNat

/-! ### What the peer answers, and the events of transactions (oldest first) -/

/-- The serializer's samples for exchanges answered one after the other: each (n, b) is n edges with sx_done
low, then b. -/
def answers (ws : List (Nat × Byte)) : List (Option Byte) :=
  ws.flatMap (fun w => List.replicate w.1 none ++ [some w.2])

/-- The MISO bytes of the answers. -/
def misoOf (ws : List (Nat × Byte)) : List Byte := ws.map (fun w => w.2)

/-- The events of a transaction of command c answered by the given MISO bytes (R111 to R117). -/
def txnEvents (c : WireCmd) (miso : List Byte) : List Event :=
  .start :: List.zipWith Event.x (wireBody c) miso ++ [.stop]

/-- A READSTATUS answered so that the status word is w: any byte during the command byte, then w's bytes, the
least significant first (R89). -/
def statusAnswer (ws : List (Nat × Byte)) (w : Word) : Prop :=
  ∃ discarded, misoOf ws =
    [discarded, w.extractLsb' 0 8, w.extractLsb' 8 8, w.extractLsb' 16 8, w.extractLsb' 24 8]

/-- A READDATA answered with frame F: two bytes that are discarded, then F. -/
def frameAnswer (ws : List (Nat × Byte)) (F : List Byte) : Prop :=
  F.length = 32 ∧ ∃ d e, misoOf ws = d :: e :: F

/-- One turn of a ready-polling loop that goes on: the status read, then the Timer sample after it. -/
structure Turn where
  ws : List (Nat × Byte)
  t1 : Ms

/-- The events of turns of the ready-polling loop that go on. -/
def turnEvents (c : WireCmd) : List Turn → List Event
  | [] => []
  | p :: ps => txnEvents c (misoOf p.ws) ++ [.now p.t1, .yielded] ++ turnEvents c ps

/-- The serializer's samples over turns. -/
def turnAnswers : List Turn → List (Option Byte)
  | [] => []
  | p :: ps => answers p.ws ++ turnAnswers ps

/-- The field a wait tests, by the bits of the status word: w[31:28] for the receiver, w[27:24] for the
transmitter (R81, R90). -/
def waitField (sel : Sel) (w : Word) : BitVec 4 :=
  match sel with
  | .rx => w.extractLsb' 28 4
  | .tx => w.extractLsb' 24 4

/-- The warning of an expired wait: WARN(0) for the receiver, WARN(1) for the transmitter (R41, R144). -/
def waitWarning (sel : Sel) : Event :=
  match sel with
  | .rx => .warn 0#1
  | .tx => .warn 1#1

/-- One whole ready-polling wait as its environment answers it (R142): the turns that go on, the last status
read with its word, and, unless that read shows READY, the Timer sample at which the budget has expired. -/
structure WaitRun where
  t0    : Ms
  turns : List Turn
  ws    : List (Nat × Byte)
  w     : Word
  late  : Option Ms

/-- The answers make a wait of this field and budget that ends with its last status read. -/
def WaitRun.ok (r : WaitRun) (sel : Sel) (budget : Nat) : Prop :=
  (∀ p ∈ r.turns, (∃ v, statusAnswer p.ws v ∧ waitField sel v ≠ 0x1#4) ∧ (p.t1 - r.t0).toNat < budget) ∧
    statusAnswer r.ws r.w ∧
    match r.late with
    | none => waitField sel r.w = 0x1#4
    | some t1 => waitField sel r.w ≠ 0x1#4 ∧ budget ≤ (t1 - r.t0).toNat

/-- The events of the wait (R142, R143, R144). -/
def WaitRun.events (r : WaitRun) (sel : Sel) : List Event :=
  .now r.t0 :: turnEvents .readStatus r.turns ++ txnEvents .readStatus (misoOf r.ws) ++
    match r.late with
    | none => []
    | some t1 => [.now t1, waitWarning sel]

/-- The serializer's samples over the wait. -/
def WaitRun.serial (r : WaitRun) : List (Option Byte) := turnAnswers r.turns ++ answers r.ws

/-- The Timer's samples over the wait. -/
def WaitRun.timer (r : WaitRun) : List Ms := r.t0 :: r.turns.map (fun p => p.t1) ++ r.late.toList

/-- One whole frame poll as its environment answers it (R181): the polls that go on, the last frame, and,
unless that frame is valid, the Timer sample at which the budget has expired. -/
structure PollRun where
  t0    : Ms
  turns : List Turn
  ws    : List (Nat × Byte)
  frame : List Byte
  late  : Option Ms

/-- A frame whose byte 0 is 0xDF or 0xDC (R86). -/
def validFrame (F : List Byte) : Prop := F.head? = some 0xDF#8 ∨ F.head? = some 0xDC#8

/-- The answers make a frame poll that ends with its last frame. -/
def PollRun.ok (r : PollRun) : Prop :=
  (∀ p ∈ r.turns, (∃ F, frameAnswer p.ws F ∧ ¬ validFrame F) ∧ (p.t1 - r.t0).toNat < 1000) ∧
    frameAnswer r.ws r.frame ∧
    match r.late with
    | none => validFrame r.frame
    | some t1 => ¬ validFrame r.frame ∧ 1000 ≤ (t1 - r.t0).toNat

/-- The events of the frame poll (R181): no warning on exhaustion. -/
def PollRun.events (r : PollRun) : List Event :=
  .now r.t0 :: turnEvents .readData r.turns ++ txnEvents .readData (misoOf r.ws) ++
    match r.late with
    | none => []
    | some t1 => [.now t1]

/-- The serializer's samples over the poll. -/
def PollRun.serial (r : PollRun) : List (Option Byte) := turnAnswers r.turns ++ answers r.ws

/-- The Timer's samples over the poll. -/
def PollRun.timer (r : PollRun) : List Ms := r.t0 :: r.turns.map (fun p => p.t1) ++ r.late.toList

/-- The MOSI bodies of the transactions completed in a list of events, oldest first; `cur` is the open one. -/
def bodiesFrom (cur : List Byte) : List Event → List (List Byte)
  | [] => []
  | .start :: es => bodiesFrom [] es
  | .x m _ :: es => bodiesFrom (cur ++ [m]) es
  | .stop :: es => cur :: bodiesFrom [] es
  | .req _ :: es | .now _ :: es | .yielded :: es | .warn _ :: es | .rsp _ :: es => bodiesFrom cur es

/-- The frames sent by the WRITEDATA transactions in a list of events, oldest first. -/
def sentFrames (es : List Event) : List (List Byte) :=
  ((bodiesFrom [] es).filter (fun b => b.head? == some Config.cmdWriteData)).map (fun b => b.drop 2)

/-- A memory's first bytes are the given ones. -/
def Holds (m : Mem) (bs : List Byte) : Prop := ∀ k, k < bs.length → m.read k = bs[k]?

/-- A multiplexer frame (R87): the indicator, the data bytes, zeros up to 32 bytes. -/
def muxFrame (ind : Byte) (data : List Byte) : List Byte :=
  ind :: data ++ List.replicate (31 - data.length) Config.padByte

/-- How many frames a message of n bytes takes: ceil(n / 31) (R165). -/
def frameCount (n : Nat) : Nat := (n + 30) / 31

/-- The frames of a message (R165): 31 bytes a frame, CONTINUES on all but the last, FINISHED on the last. -/
def messageFrames (msg : List Byte) : List (List Byte) :=
  (List.range (frameCount msg.length)).map (fun j =>
    muxFrame (if j + 1 = frameCount msg.length then 0xDF#8 else 0xDC#8) ((msg.drop (31 * j)).take 31))

/-- What one flush of a message meets: the gating wait, then the answers to its WRITEDATA. -/
structure FlushRun where
  gate : WaitRun
  ws   : List (Nat × Byte)

/-- The answers make one flush: a receiver-ready wait of T_READY, then 34 answered exchanges. -/
def FlushRun.ok (r : FlushRun) : Prop := r.gate.ok .rx 3000 ∧ r.ws.length = 34

end Sys2Proof.Machine
end

