-- ==== Sys2Proof/Certificates/Slice0/Obligations.lean ====
section
/-! DEFINITION. The statements for the provers. Where one says that env or env.requests is as before, a meaning takes
no sample of the input scripts: their form, and that a busy edge takes no request sample, is the model's choice
(log 2, log 20). Where one says that a register of the sequencer stays as it was outside the part of an operation
that uses it, IDLE included, that is the model's choice (log 23). -/

open Sys2Proof Sys2Proof.Machine

/-! ### Encodings -/

/-- R70, R71, R95: every well-formed request, with every operand at every value, decodes from its 38 bytes.
The 38 bytes of a 300-bit record are the model's (log 12). -/
def Obligations.RequestEncodingRoundTrips : Prop :=
  ∀ i : Instr, WellFormed i → i.format = .request → decode .request (encode i) = .ok i

/-- R76 to R80, R95: every well-formed wire command decodes from its MOSI bytes.
Wire commands as instructions are the model's (log 12). -/
def Obligations.WireEncodingRoundTrips : Prop :=
  ∀ i : Instr, WellFormed i → i.format = .wire → decode .wire (encode i) = .ok i

/-- R95: a wire body is read from a longer stream by its command byte alone, and the rest is left.
Decoding a
stream of MOSI bytes is the model's (log 12). -/
def Obligations.WireStreamSplitsAtBody : Prop :=
  ∀ (c : WireCmd) (more : List Byte), cmdWf c → decodeWire (wireBody c ++ more) = .ok (c, more)

/-- Words written out from R70, R71, R76 to R80 (95_test_vectors.md, section 0). -/
def Obligations.SampleWordsDecode : Prop :=
  decodeReq (Req.unpack 0xA1B2C3D4001) = .wrStatus 0xA1B2C3D4#32 ∧
    decodeReq (Req.unpack 0x4241DF00000000032) =
      .wrData 3#8 (0xDF#8 :: 0x41#8 :: 0x42#8 :: List.replicate 29 0#8) ∧
    decodeReq (Req.unpack 0x3) = .rdData ∧ decodeReq (Req.unpack 0x4) = .rdStatus ∧
    decodeReq (Req.unpack 0xBB8005) = .waitRx 3000#16 ∧
    decodeReq (Req.unpack 0x64006) = .waitTx 100#16 ∧
    decodeReq (Req.unpack 0x438) = .writeByte 0x43#8 ∧
    decodeReq (Req.unpack 0x9) = .flushFin ∧ decodeReq (Req.unpack 0xA) = .flushCont ∧
    decodeReq (Req.unpack 0xB) = .readByte ∧ decodeReq (Req.unpack 0xC) = .avail ∧
    decodeReq (Req.unpack 0x41F) = .reservedF ∧
    decode .wire [0x01#8, 0xD4#8, 0xC3#8, 0xB2#8, 0xA1#8] = .ok (.wireWriteStatus 0xA1B2C3D4#32) ∧
    decode .wire [0x04#8, 0#8, 0#8, 0#8, 0#8] = .ok .wireReadStatus

/-- R72: two requests for one operation that agree on the operands it uses are executed alike in every state. -/
def Obligations.UnusedOperandsIgnored : Prop :=
  ∀ (p q : Req), p.op = q.op →
    (p.op = 0x1#4 → p.a32 = q.a32) →
    (p.op = 0x5#4 ∨ p.op = 0x6#4 → p.a32.extractLsb' 0 16 = q.a32.extractLsb' 0 16) →
    (p.op = 0x8#4 → p.a8 = q.a8) →
    (p.op = 0x2#4 → p.a8 = q.a8 ∧
      ∀ k, k < min p.a8.toNat 32 → p.frame.extractLsb' (8 * k) 8 = q.frame.extractLsb' (8 * k) 8) →
    ∀ s, exec (decodeReq p) s = exec (decodeReq q) s

/-- R89, R90: the status word from its four bytes in wire order, and its two fields. -/
def Obligations.StatusWordAssembled : Prop :=
  ∀ s0 s1 s2 s3 : Byte,
    assembleWord [s0, s1, s2, s3] =
        (s0.setWidth 32 ||| s1.setWidth 32 <<< 8 ||| s2.setWidth 32 <<< 16 ||| s3.setWidth 32 <<< 24) ∧
      assembleWord [s0, s1, s2, s3] = s3 ++ s2 ++ s1 ++ s0 ∧
      (rxs (assembleWord [s0, s1, s2, s3])).toNat = s3.toNat / 16 ∧
      (txs (assembleWord [s0, s1, s2, s3])).toNat = s3.toNat % 16

/-- R77 to R80: the MOSI bytes of the four bodies; WRITESTATUS sends its word least significant byte first. -/
def Obligations.WireBodiesAsTabulated : Prop :=
  (∀ w : Word, wireBody (.writeStatus w) =
      [0x01#8, w.extractLsb' 0 8, w.extractLsb' 8 8, w.extractLsb' 16 8, w.extractLsb' 24 8]) ∧
    (∀ (P : List Byte) (len : Nat), P.length = 32 →
      wireBody (.writeData (payloadOf P len)) =
        0x02#8 :: 0x00#8 :: (P.take (min len 32) ++ List.replicate (32 - min len 32) 0x00#8)) ∧
    wireBody .readData = 0x03#8 :: 0x00#8 :: List.replicate 32 0x00#8 ∧
    wireBody .readStatus = [0x04#8, 0x00#8, 0x00#8, 0x00#8, 0x00#8]

/-- R140, R141: Elapsed is the difference modulo 2^32 and expiry is Elapsed >= B; an elapsed time below 2^32 ms
is measured exactly, wrap or not, and expiry is decided by it. -/
def Obligations.ElapsedAcrossWrap : Prop :=
  (∀ (t0 t1 : Ms) (budget : Nat),
    (elapsed t0 t1 : Int) = ((t1.toNat : Int) - t0.toNat) % 2 ^ 32 ∧
      (expired t0 t1 budget = true ↔ budget ≤ elapsed t0 t1)) ∧
    ∀ (t0 : Ms) (d budget : Nat), d < 2 ^ 32 →
      elapsed t0 (t0 + BitVec.ofNat 32 d) = d ∧
        (expired t0 (t0 + BitVec.ofNat 32 d) budget = true ↔ budget ≤ d)

/-! ### The clock edge, reset -/

/-- What a clock edge does (R37, R42, R203, R230, R231): a reset, an acceptance (the request latched, REQ(q),
IDLE left, req_ready 0), an idle wait, the wire command in flight, or the operation in flight, at DECODE in the
edge after the acceptance. The pulses of the last edge end first. DECODE as an edge of its own, wire commands as
instructions, a request script from which only an idle edge with rst = 0 takes an entry, and that the sequencer's
registers stay while the block is idle, are the model's choice (log 9, log 12, log 20 with log 2, log 23). So is what
the reset leaves in those registers and in the trace (log 5, log 11). -/
def Obligations.StepRunsDecodedInstruction : Prop :=
  ∀ (s : State) (rs : List Bool) (u : State), u = { s with env := { s.env with rst := rs } } →
    (s.env.rst = true :: rs → step s = .next u.applyReset) ∧
    (s.env.rst = false :: rs → s.seq.phase = .idle → ∀ (q : Req) (more : List (Option Req)),
      s.env.requests = some q :: more →
        ∃ t, step s = .next t ∧
          t = ({ u with env := { u.env with requests := more } }).clearPulses.accept q ∧
          t.seq.req = q ∧ t.seq.phase = .decode ∧ t.seq.txn = none ∧ t.trace = .req q :: s.trace ∧
          t.reqReady false = false ∧ SameBuffers s t ∧ t.ss = s.ss ∧ t.env.requests = more) ∧
    (s.env.rst = false :: rs → s.seq.phase = .idle → ∀ more : List (Option Req),
      s.env.requests = none :: more →
        step s = .next ({ u with env := { u.env with requests := more } }).clearPulses) ∧
    (s.env.rst = false :: rs → s.seq.phase ≠ .idle → ∀ t, s.seq.txn = some t →
      step s = exec t.cmd.toInstr u.clearPulses) ∧
    (s.env.rst = false :: rs → s.seq.phase ≠ .idle → s.seq.txn = none →
      step s = exec (decodeReq s.seq.req) u.clearPulses)

/-- R43: the reset values the spec gives. -/
def Obligations.ResetLeavesGivenValues : Prop :=
  State.reset.txCur = 0 ∧ State.reset.rxCur = 0 ∧ State.reset.ss = .deasserted ∧
    State.reset.seq.phase = .idle ∧ State.reset.seq.txn = none ∧
    State.reset.reqReady false = true ∧
    State.reset.out.rspValid = false ∧ State.reset.out.sxStart = false ∧
    State.reset.out.yieldO = false ∧ State.reset.out.warnO = false ∧
    State.reset.out.rsp = { illegal := false, byte := 0, word := 0, frame := 0 } ∧
    State.reset.out.sxTx = 0 ∧ State.reset.out.warnKind = 0

/-- R231, R203: rst = 1 at an edge overrides whatever is in flight: no response, no END, nothing sent, the
select line deasserted at once, both cursors 0, the block idle; req_ready is low while rst is high, and no request
is accepted (R230). That the request port is not even sampled under rst = 1, and the scripts of the serializer and
the Timer stay too, is the model's choice (log 20, log 2); so is that the trace survives (log 11). -/
def Obligations.RstAbortsEverything : Prop :=
  ∀ (s : State) (rs : List Bool), s.env.rst = true :: rs →
    ∃ t, step s = .next t ∧ t.trace = s.trace ∧ t.ss = .deasserted ∧ t.txCur = 0 ∧ t.rxCur = 0 ∧
      t.seq.phase = .idle ∧ t.seq.txn = none ∧
      t.out.rspValid = false ∧ t.out.sxStart = false ∧ t.out.yieldO = false ∧ t.out.warnO = false ∧
      t.env.requests = s.env.requests ∧ t.env.serial = s.env.serial ∧ t.env.timer = s.env.timer ∧
      t.reqReady true = false ∧ t.reqReady false = true

/-- R61, R12, R13, R37, R38, R39, R41: an edge only adds events, at most one, REQ at an idle edge only; and the
output pulses show what the edge did, for one cycle: rsp_valid is 1 exactly after an edge that adds RSP(r), with
the fields of r; yield_o exactly after YIELD; warn_o exactly after WARN(k), with warn_kind = k; sx_start exactly
after an edge that starts a byte, with sx_tx that byte. One primitive an edge is the model's choice (log 1), and so
is that the trace stays over an edge with rst = 1 (log 11). -/
def Obligations.EdgeEventsMatchPulses : Prop :=
  ∀ s t : State, step s = .next t →
    ∃ es : List Event, t.trace = es ++ s.trace ∧ es.length ≤ 1 ∧
      (s.seq.phase ≠ .idle → ∀ q, Event.req q ∉ es) ∧
      (s.seq.phase = .idle → es = [] ∨ ∃ q, es = [.req q]) ∧
      (t.out.rspValid = true ↔ ∃ r, es = [.rsp r]) ∧ (∀ r, es = [.rsp r] → t.out.rsp = r) ∧
      (t.out.yieldO = true ↔ es = [.yielded]) ∧
      (t.out.warnO = true ↔ ∃ k, es = [.warn k]) ∧ (∀ k, es = [.warn k] → t.out.warnKind = k) ∧
      (t.out.sxStart = true ↔
        ∃ c k, s.seq.txn = some ⟨c, .body k false⟩ ∧ t.seq.txn = some ⟨c, .body k true⟩) ∧
      (t.out.sxStart = true → ∀ c k, s.seq.txn = some ⟨c, .body k false⟩ →
        (wireBody c)[k]? = some t.out.sxTx)

/-- R37: while an operation is in flight req_ready is 0 and no request is accepted. That the request port is
not even sampled then is the model's choice (log 20, log 2). -/
def Obligations.BusyAcceptsNothing : Prop :=
  ∀ s t : State, s.seq.phase ≠ .idle → step s = .next t →
    s.reqReady false = false ∧ t.env.requests = s.env.requests ∧
      (t.seq.phase ≠ .idle → t.seq.req = s.seq.req)

/-! ### Invariants -/

/-- The reset state meets every invariant stated here. That the assembly register is empty there, as IDLE asks
of it, is the model's choice (log 5). -/
def Obligations.ResetMeetsInvariants : Prop :=
  MachineInv State.reset ∧ MemInv State.reset ∧ WireInv State.reset ∧ ReplyInv State.reset

/-- R22, R24, R26, R28, R31, R34, R44: the invariant of the sequencer, the cursors and the written bytes; in
IDLE no byte of a status word is kept. The places, that the register is empty in IDLE after any other operation, and
that it is empty after an edge with rst = 1, are the model's (log 9, log 23, log 5). -/
def Obligations.StepKeepsSequencerInv : Prop :=
  ∀ s t : State, MachineInv s → step s = .next t → MachineInv t

/-- R44, R51, R204: from a state of the invariant every edge gives a next state: no byte is read that was
not written, no index is out of range, nothing stops the block. -/
def Obligations.InvariantNeverStops : Prop :=
  ∀ s : State, MachineInv s → ∃ t, step s = .next t

/-- R50, R51: both memories keep their canonical form and their sizes. The list form is the model's
(log 4). -/
def Obligations.StepKeepsMemoryCanonical : Prop :=
  ∀ s t : State, MemInv s → step s = .next t → MemInv t

/-- R58, R75, R76, R110: every exchange lies in a bracket, and every END ends the whole body of one of the
four commands, whatever the peer answers. That the trace stays over an edge with rst = 1 is the model's choice
(log 11). -/
def Obligations.StepKeepsTransactionsWhole : Prop :=
  ∀ s t : State, WireInv s → step s = .next t → WireInv t

/-- R37: each response answers the one request accepted before it. That the block is IDLE in the cycle of
rsp_valid, and that the trace stays over an edge with rst = 1, is the model's choice (log 21, log 11). -/
def Obligations.StepKeepsOneReplyPerRequest : Prop :=
  ∀ s t : State, ReplyInv s → step s = .next t → ReplyInv t

/-- R26: between operations the cursors are in range, and rx_cur = 1 exists only inside a READ_BYTE, at the
place between the fetch of a frame and the return of its byte 1. The places are the model's (log 9). -/
def Obligations.CursorsBetweenOperations : Prop :=
  ∀ (n : Nat) (s t : State), MachineInv s → runEdges n s = .next t →
    (t.seq.phase = .idle → t.txCur ≤ 31 ∧ (t.rxCur = 0 ∨ (2 ≤ t.rxCur ∧ t.rxCur ≤ 32))) ∧
      (t.rxCur = 1 → t.seq.phase = .respond .deliver ∧ decodeReq t.seq.req = .readByte)

/-- R31: the select line is ASSERTED only in the two pulses of a transaction. -/
def Obligations.SelectLineOnlyInPulses : Prop :=
  ∀ s t : State, MachineInv s → step s = .next t → t.ss = .asserted →
    t.seq.phase ≠ .idle ∧ ∃ x, t.seq.txn = some x ∧ (x.sub = .startAssert ∨ x.sub = .endAssert)

/-! ### Frames -/

/-- R30: only WRITE_BYTE, FLUSH_FIN, FLUSH_CONT and READ_BYTE write the buffers or their cursors. -/
def Obligations.OnlyMultiplexerWritesBuffers : Prop :=
  ∀ (i : Instr) (s t : State), (∀ b, i ≠ .writeByte b) → i ≠ .flushFin → i ≠ .flushCont → i ≠ .readByte →
    exec i s = .next t → SameBuffers s t

/-- No consumer operation touches the link, the latched request, the coming rst and request samples or
CLK_HZ; t0 changes only where a polling loop samples it (R34, R206); the memories keep every byte but those
of the two stores; the response, yield and warn ports, the Timer, and the transaction in flight change only
with a response, YIELD, WARN, NOW, and a transaction's start; a response empties the assembly register (R28). The
places are the model's (log 9), and so are IDLE in the cycle of rsp_valid (log 21), that the request port is not
sampled while the block is busy (log 20, log 2), that t0, after its loop has ended, and the captured bytes, the
duration counter and the request, after their last use in the operation, stay as they were, and that a response
empties the register of other bytes than a status word's too (log 23). -/
def Obligations.OperationFrame : Prop :=
  ∀ (i : Instr) (s t : State), i.format = .request → exec i s = .next t →
    SameLink s t ∧ SameWorld s t ∧ t.seq.req = s.seq.req ∧
      (s.seq.phase ≠ .waitLoop .sampleT0 → s.seq.phase ≠ .rxContWait .sampleT0 →
        s.seq.phase ≠ .rxPoll .sampleT0 → t.seq.t0 = s.seq.t0) ∧
      (∀ k, k ≠ s.txCur ∨ s.seq.phase ≠ .respond .append → t.txBuf.read k = s.txBuf.read k) ∧
      (∀ k, 32 ≤ k ∨ (s.seq.phase ≠ .rxContFetch .store ∧ s.seq.phase ≠ .rxPoll .store) →
        t.rxBuf.read k = s.rxBuf.read k) ∧
      (t.seq.phase ≠ .idle → t.out.rspValid = s.out.rspValid ∧ t.out.rsp = s.out.rsp) ∧
      (t.out.yieldO = s.out.yieldO ∨ t.trace = .yielded :: s.trace) ∧
      ((t.out.warnO = s.out.warnO ∧ t.out.warnKind = s.out.warnKind) ∨
        t.trace = .warn t.out.warnKind :: s.trace) ∧
      (t.env.timer = s.env.timer ∨ ∃ v, t.trace = .now v :: s.trace) ∧
      ((t.seq.txn = s.seq.txn ∧ t.seq.asm = if t.seq.phase = .idle then [] else s.seq.asm) ∨
        ∃ c, t.seq.txn = some ⟨c, .startAssert⟩ ∧ t.seq.asm = [])

/-- No wire command touches the buffers, the operation's place and registers, the response, yield and warn
ports, the Timer, or CLK_HZ (R114 to R118). That the request port is not sampled while the block is busy (log 20,
log 2), and that t0 keeps its value in a transaction of no polling loop (log 23), is the model's choice. -/
def Obligations.WireCommandFrame : Prop :=
  ∀ (i : Instr) (s t : State), i.format = .wire → exec i s = .next t →
    SameBuffers s t ∧ SameOperation s t ∧ SameWorld s t

/-- R161: WRITE_BYTE writes tx_buf[tx_cur], tx_cur and rx_cur only: rx_buf stays, rx_cur stays or becomes 0,
tx_cur stays, becomes 0 or grows by one. -/
def Obligations.WriteByteFrame : Prop :=
  ∀ (b : Byte) (s t : State), exec (.writeByte b) s = .next t →
    t.rxBuf = s.rxBuf ∧ (t.rxCur = s.rxCur ∨ t.rxCur = 0) ∧
      (t.txCur = s.txCur ∨ t.txCur = 0 ∨ t.txCur = s.txCur + 1) ∧
      (∀ k, k ≠ s.txCur → t.txBuf.read k = s.txBuf.read k)

/-- R160, R162, R163, D16: a flush writes tx_cur only, and only to 0: tx_buf is not cleared, the receive
side is not touched. -/
def Obligations.FlushFrame : Prop :=
  ∀ (i : Instr) (s t : State), i = .flushFin ∨ i = .flushCont → exec i s = .next t →
    t.txBuf = s.txBuf ∧ t.rxBuf = s.rxBuf ∧ t.rxCur = s.rxCur ∧ (t.txCur = s.txCur ∨ t.txCur = 0)

/-- R180: READ_BYTE leaves tx_buf, sets tx_cur only to 0, and writes rx_buf only where a fetched frame is
stored, all 32 bytes of it (R23, R51). The places are the model's (log 9). -/
def Obligations.ReadByteFrame : Prop :=
  ∀ (s t : State), exec .readByte s = .next t →
    t.txBuf = s.txBuf ∧ (t.txCur = s.txCur ∨ t.txCur = 0) ∧
      (t.rxCur = s.rxCur ∨ t.rxCur = 1 ∨ t.rxCur = s.rxCur + 1) ∧
      (s.seq.phase = .rxContFetch .store ∨ s.seq.phase = .rxPoll .store →
        s.seq.asm.length = 32 ∧ Holds t.rxBuf s.seq.asm) ∧
      (s.seq.phase ≠ .rxContFetch .store → s.seq.phase ≠ .rxPoll .store → t.rxBuf = s.rxBuf)

/-! ### What each instruction answers, at its places -/

/-- R184: AVAIL answers the count of unread bytes at once, writes nothing and samples nothing. The assembly
register is emptied, as at every response (R28). The places, IDLE in the cycle of rsp_valid, and that the other
registers of the sequencer stay in IDLE as they were, are the model's (log 9, log 21, log 23). -/
def Obligations.AvailAnswers : Prop :=
  ∀ s : State, s.seq.phase = .decode →
    ∃ t, exec .avail s = .next t ∧
      Responds s t { byte := if s.rxCur = 0 then 0 else BitVec.ofNat 8 (32 - s.rxCur) } ∧
      SameBuffers s t ∧ SameLink s t ∧ t.env = s.env ∧ t.seq = { s.seq with phase := .idle, asm := [] }

/-- R201: a reserved code answers illegal = 1 and every other field 0, with no other effect. The assembly
register is emptied, as at every response (R28). The places, IDLE in the cycle of rsp_valid, and that the other
registers of the sequencer stay in IDLE as they were, are the model's (log 9, log 21, log 23). -/
def Obligations.ReservedCodesAnswerIllegal : Prop :=
  ∀ (i : Instr) (s : State),
    i = .reserved0 ∨ i = .reserved7 ∨ i = .reservedD ∨ i = .reservedE ∨ i = .reservedF →
    s.seq.phase = .decode →
    ∃ t, exec i s = .next t ∧
      Responds s t { illegal := true, byte := 0, word := 0, frame := 0 } ∧
      SameBuffers s t ∧ SameLink s t ∧ t.env = s.env ∧ t.seq = { s.seq with phase := .idle, asm := [] }

/-- R119 to R122: at DECODE a raw operation enters its transaction; WR_DATA is not gated by any wait.
The places, and that the duration counter stays as it was, are the model's (log 9, log 23). -/
def Obligations.RawOperationsEnterTransaction : Prop :=
  ∀ (i : Instr) (c : WireCmd) (s : State), s.seq.phase = .decode →
    ((∃ w, i = .wrStatus w ∧ c = .writeStatus w) ∨
      (∃ len P, i = .wrData len P ∧ P.length = 32 ∧
        c = .writeData (P.take (min len.toNat 32) ++ List.replicate (32 - min len.toNat 32) 0x00#8)) ∨
      (i = .rdData ∧ c = .readData) ∨ (i = .rdStatus ∧ c = .readStatus)) →
    ∃ t, exec i s = .next t ∧ t.seq.txn = some ⟨c, .startAssert⟩ ∧ t.seq.phase = .respond .collect ∧
      t.seq.asm = [] ∧ t.trace = s.trace ∧ SameBuffers s t ∧ SameLink s t ∧ t.env = s.env

/-- R119 to R122: when its transaction has returned, a raw operation responds: ack, the captured frame, or
the status word. The places, and IDLE in the cycle of rsp_valid, are the model's (log 9, log 21). -/
def Obligations.RawOperationsAnswer : Prop :=
  ∀ s : State, s.seq.phase = .respond .collect →
    (∀ w, ∃ t, exec (.wrStatus w) s = .next t ∧ Responds s t Rsp.ack ∧ SameBuffers s t) ∧
    (∀ len P, ∃ t, exec (.wrData len P) s = .next t ∧ Responds s t Rsp.ack ∧ SameBuffers s t) ∧
    (s.seq.asm.length = 32 →
      ∃ t, exec .rdData s = .next t ∧ SameBuffers s t ∧
        (∃ f : FrameBits, Responds s t { frame := f } ∧
          ∀ k, k < 32 → some (f.extractLsb' (8 * k) 8) = s.seq.asm[k]?)) ∧
    (∀ s0 s1 s2 s3, s.seq.asm = [s0, s1, s2, s3] →
      ∃ t, exec .rdStatus s = .next t ∧ SameBuffers s t ∧
        Responds s t { word := s3 ++ s2 ++ s1 ++ s0 })

/-- R142 to R144: the wait operations at their test: READY returns the field with no Timer sample; otherwise
one Timer sample decides between the warning and the next turn. The places are the model's (log 9). -/
def Obligations.WaitTestsReadyFirst : Prop :=
  ∀ (i : Instr) (sel : Sel) (timeout : BitVec 16) (s : State) (s0 s1 s2 s3 : Byte) (f : BitVec 4),
    (i = .waitRx timeout ∧ sel = .rx ∧ f = s3.extractLsb' 4 4) ∨
      (i = .waitTx timeout ∧ sel = .tx ∧ f = s3.extractLsb' 0 4) →
    s.seq.phase = .waitLoop .test → s.seq.asm = [s0, s1, s2, s3] →
    (f = 0x1#4 →
      ∃ t, exec i s = .next t ∧ t.seq.phase = .respond (.send { byte := 0x01#8 }) ∧
        t.trace = s.trace ∧ t.env = s.env ∧ SameBuffers s t) ∧
    (f ≠ 0x1#4 → ∀ (t1 : Ms) (ts : List Ms), s.env.timer = t1 :: ts →
      ∃ t, exec i s = .next t ∧ t.trace = .now t1 :: s.trace ∧ t.env.timer = ts ∧ SameBuffers s t ∧
        t.seq.phase =
          if timeout.toNat ≤ (t1 - s.seq.t0).toNat then .waitLoop .warn else .waitLoop .yieldNext)

/-- R12, R28, R37, R38: `respond(r)`: every operation that ends through RESPOND sends its response and returns
to IDLE; the assembly register is emptied, so that no status word stays; nothing else changes. The places, IDLE in
the cycle of rsp_valid, and that the other registers of the sequencer stay in IDLE as they were, are the model's
(log 9, log 21, log 23). -/
def Obligations.RespondEndsOperation : Prop :=
  ∀ (i : Instr) (s : State) (r : Rsp), s.seq.phase = .respond (.send r) →
    ((∃ timeout, i = .waitRx timeout) ∨ (∃ timeout, i = .waitTx timeout) ∨ (∃ b, i = .writeByte b) ∨
      i = .flushFin ∨ i = .flushCont ∨ i = .readByte) →
    ∃ t, exec i s = .next t ∧ Responds s t r ∧ SameBuffers s t ∧ SameLink s t ∧ t.env = s.env ∧
      t.seq = { s.seq with phase := .idle, asm := [] } ∧ t.out = { s.out with rspValid := true, rsp := r } ∧
      t.clkHz = s.clkHz

/-- R161: WRITE_BYTE at its places: the receive cursor dropped and the full buffer flushed first, then the
byte appended, then the cursor advanced. The places are the model's (log 9). -/
def Obligations.WriteByteAppends : Prop :=
  ∀ (b : Byte) (s : State),
    (s.seq.phase = .decode →
      ∃ t, exec (.writeByte b) s = .next t ∧ t.rxCur = 0 ∧ t.txCur = s.txCur ∧ t.txBuf = s.txBuf ∧
        t.rxBuf = s.rxBuf ∧ t.trace = s.trace ∧
        t.seq.phase = if s.txCur = 31 then .waitLoop .sampleT0 else .respond .append) ∧
    (s.seq.phase = .respond .append → s.txCur < 31 →
      ∃ t, exec (.writeByte b) s = .next t ∧ t.txBuf.read s.txCur = some b ∧
        (∀ k, k ≠ s.txCur → t.txBuf.read k = s.txBuf.read k) ∧ t.txCur = s.txCur ∧
        t.rxBuf = s.rxBuf ∧ t.rxCur = s.rxCur ∧ t.trace = s.trace ∧ t.seq.phase = .respond .advance) ∧
    (s.seq.phase = .respond .advance →
      ∃ t, exec (.writeByte b) s = .next t ∧ t.txCur = s.txCur + 1 ∧ t.txBuf = s.txBuf ∧
        t.rxBuf = s.rxBuf ∧ t.rxCur = s.rxCur ∧ t.trace = s.trace ∧
        t.seq.phase = .respond (.send Rsp.ack))

/-- R164: a flush of an empty transmit buffer answers ack and emits no other event. The assembly register is
emptied, as at every response (R28). The places, IDLE in the cycle of rsp_valid, and that the other registers of the
sequencer stay in IDLE as they were, are the model's (log 9, log 21, log 23). -/
def Obligations.FlushOfEmptyBufferIsSilent : Prop :=
  ∀ (i : Instr) (s : State), i = .flushFin ∨ i = .flushCont → s.seq.phase = .decode → s.txCur = 0 →
    ∃ t, exec i s = .next t ∧ Responds s t Rsp.ack ∧ SameBuffers s t ∧ SameLink s t ∧ t.env = s.env ∧
      t.seq = { s.seq with phase := .idle, asm := [] }

/-- R87, R88, R160: a flush sends its indicator, the pending bytes in order and zeros; then tx_cur is 0.
The places are the model's (log 9). -/
def Obligations.FlushSendsPendingBytes : Prop :=
  ∀ (i : Instr) (ind : Byte) (s : State),
    (i = .flushFin ∧ ind = 0xDF#8) ∨ (i = .flushCont ∧ ind = 0xDC#8) ∨
      (∃ b, i = .writeByte b ∧ ind = 0xDC#8) →
    (s.seq.phase = .flushSend .issue → ∀ data : List Byte, data.length = s.txCur → s.txCur ≤ 31 →
      Holds s.txBuf data →
      ∃ t, exec i s = .next t ∧ t.seq.txn = some ⟨.writeData (muxFrame ind data), .startAssert⟩ ∧
        t.seq.phase = .flushSend .clear ∧ t.trace = s.trace ∧ SameBuffers s t) ∧
    (s.seq.phase = .flushSend .clear →
      ∃ t, exec i s = .next t ∧ t.txCur = 0 ∧ t.txBuf = s.txBuf ∧ t.rxBuf = s.rxBuf ∧
        t.rxCur = s.rxCur ∧ t.trace = s.trace)

/-- R180, R183: READ_BYTE at DECODE drops the unsent bytes and takes one of four ways by rx_cur.
The places are the model's (log 9). -/
def Obligations.ReadByteChoosesItsPath : Prop :=
  ∀ (s : State) (ind : Byte), s.seq.phase = .decode → (s.rxCur = 32 → s.rxBuf.read 0 = some ind) →
    ∃ t, exec .readByte s = .next t ∧ t.txCur = 0 ∧ t.txBuf = s.txBuf ∧ t.rxBuf = s.rxBuf ∧
      t.rxCur = s.rxCur ∧ t.trace = s.trace ∧ t.env = s.env ∧
      t.seq.phase =
        if s.rxCur = 32 then
          if ind = 0xDC#8 then .rxContWait .sampleT0 else .respond (.send { byte := 0x00#8 })
        else if s.rxCur = 0 then .rxPoll .sampleT0
        else .respond .deliver

/-- R24, R180: the byte at the cursor is the response and the cursor advances, and nothing else changes.
The places, and that the sequencer's registers stay after their last use, are the model's (log 9, log 23). -/
def Obligations.ReadByteDeliversAtCursor : Prop :=
  ∀ (s : State) (r : Byte), s.seq.phase = .respond .deliver → s.rxCur < 32 →
    s.rxBuf.read s.rxCur = some r →
    ∃ t, exec .readByte s = .next t ∧ t.seq.phase = .respond (.send { byte := r }) ∧
      t.rxCur = s.rxCur + 1 ∧ t.rxBuf = s.rxBuf ∧ t.txBuf = s.txBuf ∧ t.txCur = s.txCur ∧
      t.trace = s.trace ∧ t.ss = s.ss ∧ t.seq = { s.seq with phase := t.seq.phase } ∧ t.out = s.out ∧
      t.env = s.env ∧ t.clkHz = s.clkHz

/-- R23, R25, R86, R181, R182: a fetched frame replaces all of rx_buf; the poll tests its indicator, the
continuation fetch does not; an accepted frame sets rx_cur to 1. The places are the model's (log 9). -/
def Obligations.FetchedFrameIsStored : Prop :=
  ∀ (s : State) (F : List Byte) (ind : Byte), s.seq.asm = ind :: F → F.length = 31 →
    (s.seq.phase = .rxPoll .store →
      ∃ t, exec .readByte s = .next t ∧ Holds t.rxBuf (ind :: F) ∧ t.rxCur = s.rxCur ∧
        t.seq.phase = .rxPoll (if ind = 0xDF#8 ∨ ind = 0xDC#8 then .setCur else .expire)) ∧
    (s.seq.phase = .rxContFetch .store →
      ∃ t, exec .readByte s = .next t ∧ Holds t.rxBuf (ind :: F) ∧ t.rxCur = s.rxCur ∧
        t.seq.phase = .rxContFetch .setCur) ∧
    (s.seq.phase = .rxPoll .setCur ∨ s.seq.phase = .rxContFetch .setCur →
      ∃ t, exec .readByte s = .next t ∧ t.rxCur = 1 ∧ t.rxBuf = s.rxBuf ∧
        t.seq.phase = .respond .deliver)

/-- R39, R113: one byte exchange of a wire command: sx_start with the body's byte, then, when the serializer
answers, X(m, b); while it does not answer, the block waits and nothing else changes (R247 (a)). One edge for
sx_start and a later one for sx_done is the model's choice (log 8), and so is that registers of no use in the exchange
stay as they were (log 23). -/
def Obligations.WireExchangeMovesOneByte : Prop :=
  ∀ (c : WireCmd) (s : State) (k : Nat) (m : Byte), (wireBody c)[k]? = some m →
    (s.seq.txn = some ⟨c, .body k false⟩ →
      ∃ t, exec c.toInstr s = .next t ∧ t.out.sxStart = true ∧ t.out.sxTx = m ∧
        t.seq.txn = some ⟨c, .body k true⟩ ∧ t.trace = s.trace ∧ t.env = s.env ∧ t.ss = s.ss) ∧
    (s.seq.txn = some ⟨c, .body k true⟩ → ∀ more, s.env.serial = none :: more →
      exec c.toInstr s = .next { s with env := { s.env with serial := more } }) ∧
    (s.seq.txn = some ⟨c, .body k true⟩ → ∀ (b : Byte) (more : List (Option Byte)),
      s.env.serial = some b :: more →
      ∃ t, exec c.toInstr s = .next t ∧ t.trace = .x m b :: s.trace ∧ t.env.serial = more ∧ t.ss = s.ss ∧
        t.seq.asm = (if captureFrom c ≤ k then s.seq.asm ++ [b] else s.seq.asm) ∧
        t.seq.txn = some ⟨c, if k + 1 < (wireBody c).length then .body (k + 1) false else .endAssert⟩)

/-- R112, R244: the end pulse. In the last cycle of its hold an edge deasserts the line, emits END and returns
to the caller. From the end of the body, with the line DEASSERTED, the line is ASSERTED for ceil(1 us x CLK_HZ)
edges, at least one, with no event, and at the next edge DEASSERTED with END, the transaction over. A hold of at
least one cycle, and END in the edge that deasserts, are the model's choice (log 1, log 6). -/
def Obligations.WireCommandReturnsAfterEndPulse : Prop :=
  ∀ (c : WireCmd) (s : State), s.seq.txn = some ⟨c, .endAssert⟩ →
    (s.ss = .asserted → s.seq.dur ≤ 1 →
      ∃ t, exec c.toInstr s = .next t ∧ t.ss = .deasserted ∧ t.trace = .stop :: s.trace ∧
        t.seq.txn = none ∧ t.seq.phase = s.seq.phase ∧ t.seq.asm = s.seq.asm) ∧
    (s.ss = .deasserted → s.seq.phase ≠ .idle →
      ∃ a : Nat, 1 ≤ a ∧ 1 * s.clkHz ≤ a * 1000000 ∧ (a = 1 ∨ (a - 1) * 1000000 < 1 * s.clkHz) ∧
        (∀ k, 1 ≤ k → k ≤ a → ∃ t, runEdges k s = .next t ∧ t.ss = .asserted ∧ t.trace = s.trace) ∧
        ∃ t, runEdges (a + 1) s = .next t ∧ t.ss = .deasserted ∧ t.trace = .stop :: s.trace ∧
          t.seq.txn = none ∧ t.seq.phase = s.seq.phase ∧ t.seq.asm = s.seq.asm)

/-! ### Whole runs -/

/-- R111, R244: the start pulse. The line is ASSERTED for ceil(1 us x CLK_HZ) edges, then DEASSERTED for
ceil(15 us x CLK_HZ) edges, at least one each, before START and the body.
A hold of at least one cycle and the
edge of START are the model's choice (log 1, log 6). -/
def Obligations.StartPulseTiming : Prop :=
  ∀ (s : State) (c : WireCmd), s.seq.phase ≠ .idle → s.seq.txn = some ⟨c, .startAssert⟩ →
    s.ss = .deasserted →
    ∃ a g : Nat, 1 ≤ a ∧ 1 ≤ g ∧ 1 * s.clkHz ≤ a * 1000000 ∧ 15 * s.clkHz ≤ g * 1000000 ∧
      (a = 1 ∨ (a - 1) * 1000000 < 1 * s.clkHz) ∧ (g = 1 ∨ (g - 1) * 1000000 < 15 * s.clkHz) ∧
      (∀ k, 1 ≤ k → k ≤ a → ∃ t, runEdges k s = .next t ∧ t.ss = .asserted ∧ t.trace = s.trace) ∧
      (∀ k, a < k → k ≤ a + g → ∃ t, runEdges k s = .next t ∧ t.ss = .deasserted ∧ t.trace = s.trace) ∧
      ∃ t, runEdges (a + g + 1) s = .next t ∧ t.ss = .deasserted ∧ t.trace = .start :: s.trace ∧
        t.seq.txn = some ⟨c, .body 0 false⟩

/-- R110 to R117: every wire transaction, from its start pulse to its end pulse, however long the serializer
takes: its events, the bytes it returns, and the buffers, the operation's place, request and t0, the Timer samples
and CLK_HZ as they were. The edges of an exchange are the model's choice (log 8), and so is that the request port is
not sampled over the run, so that its script is as it was (log 20, log 2), and that t0 is as it was where the
transaction is of no polling loop (log 23). -/
def Obligations.TransactionRunsWhole : Prop :=
  ∀ (s : State) (c : WireCmd) (ws : List (Nat × Byte)) (rest : List (Option Byte)),
    s.seq.phase ≠ .idle → s.seq.txn = some ⟨c, .startAssert⟩ → s.ss = .deasserted → s.seq.asm = [] →
    cmdWf c → ws.length = (wireBody c).length → s.env.serial = answers ws ++ rest →
    ∃ t, Executes s c.toInstr t ∧ t.seq.txn = none ∧ t.ss = .deasserted ∧
      t.trace = (txnEvents c (misoOf ws)).reverse ++ s.trace ∧
      t.seq.asm = (misoOf ws).drop (captureFrom c) ∧
      t.seq.phase = s.seq.phase ∧ t.seq.req = s.seq.req ∧ t.seq.t0 = s.seq.t0 ∧
      SameBuffers s t ∧ t.env.serial = rest ∧ t.env.timer = s.env.timer ∧
      t.env.requests = s.env.requests ∧ t.clkHz = s.clkHz

/-- R119: RD_STATUS, from its request to its response.
IDLE in the cycle of rsp_valid is the model's choice (log 21). -/
def Obligations.RdStatusPerforms : Prop :=
  ∀ (s : State) (q : Req) (ws : List (Nat × Byte)) (rest : List (Option Byte)) (d s0 s1 s2 s3 : Byte),
    Presents s q → q.op = 0x4#4 → misoOf ws = [d, s0, s1, s2, s3] → s.env.serial = answers ws ++ rest →
    ∃ t, Performs s q .rdStatus
        [.start, .x 0x04#8 d, .x 0x00#8 s0, .x 0x00#8 s1, .x 0x00#8 s2, .x 0x00#8 s3, .stop]
        { word := s3 ++ s2 ++ s1 ++ s0 } t ∧
      SameBuffers s t ∧ t.env.serial = rest ∧ t.env.timer = s.env.timer

/-- R120: WR_STATUS, from its request to its response.
IDLE in the cycle of rsp_valid is the model's choice (log 21). -/
def Obligations.WrStatusPerforms : Prop :=
  ∀ (s : State) (q : Req) (ws : List (Nat × Byte)) (rest : List (Option Byte)) (d0 d1 d2 d3 d4 : Byte),
    Presents s q → q.op = 0x1#4 → misoOf ws = [d0, d1, d2, d3, d4] → s.env.serial = answers ws ++ rest →
    ∃ t, Performs s q (.wrStatus q.a32)
        [.start, .x 0x01#8 d0, .x (q.a32.extractLsb' 0 8) d1, .x (q.a32.extractLsb' 8 8) d2,
          .x (q.a32.extractLsb' 16 8) d3, .x (q.a32.extractLsb' 24 8) d4, .stop] Rsp.ack t ∧
      SameBuffers s t ∧ t.env.serial = rest ∧ t.env.timer = s.env.timer

/-- R121: RD_DATA, from its request to its response.
IDLE in the cycle of rsp_valid is the model's choice (log 21). -/
def Obligations.RdDataPerforms : Prop :=
  ∀ (s : State) (q : Req) (ws : List (Nat × Byte)) (rest : List (Option Byte)) (F : List Byte),
    Presents s q → q.op = 0x3#4 → frameAnswer ws F → s.env.serial = answers ws ++ rest →
    ∃ (t : State) (f : FrameBits),
      Performs s q .rdData (txnEvents .readData (misoOf ws)) { frame := f } t ∧
      (∀ k, k < 32 → some (f.extractLsb' (8 * k) 8) = F[k]?) ∧
      SameBuffers s t ∧ t.env.serial = rest ∧ t.env.timer = s.env.timer

/-- R122, R91: WR_DATA, from its request to its response: the first min(a8, 32) operand bytes, then zeros.
IDLE in the cycle of rsp_valid is the model's choice (log 21). -/
def Obligations.WrDataPerforms : Prop :=
  ∀ (s : State) (q : Req) (ws : List (Nat × Byte)) (rest : List (Option Byte)) (P : List Byte),
    Presents s q → q.op = 0x2#4 → ws.length = 34 → s.env.serial = answers ws ++ rest →
    P = (List.range 32).map (fun k => if k < q.a8.toNat then q.frame.extractLsb' (8 * k) 8 else 0x00#8) →
    ∃ (t : State) (operand : List Byte),
      Performs s q (.wrData q.a8 operand)
        (.start :: List.zipWith Event.x (0x02#8 :: 0x00#8 :: P) (misoOf ws) ++ [.stop]) Rsp.ack t ∧
      SameBuffers s t ∧ t.env.serial = rest ∧ t.env.timer = s.env.timer

/-- R41, R84, R142 to R148: WAIT_RX and WAIT_TX, from request to response, for every number of turns the Timer
admits: READY ends the wait with no warning, expiry ends it with one, of kind 0 for the receiver and 1 for the
transmitter; the response is the field of the word last read, w[31:28] or w[27:24], whatever it is. IDLE in the
cycle of rsp_valid is the model's choice (log 21). -/
def Obligations.WaitsPerform : Prop :=
  ∀ (s : State) (q : Req) (sel : Sel) (i : Instr) (r : WaitRun) (f : BitVec 4) (kind : BitVec 1)
    (rest : List (Option Byte)) (ts : List Ms),
    Presents s q →
    (q.op = 0x5#4 ∧ sel = .rx ∧ i = .waitRx (q.a32.extractLsb' 0 16) ∧ f = r.w.extractLsb' 28 4 ∧ kind = 0#1) ∨
      (q.op = 0x6#4 ∧ sel = .tx ∧ i = .waitTx (q.a32.extractLsb' 0 16) ∧ f = r.w.extractLsb' 24 4 ∧
        kind = 1#1) →
    r.ok sel (q.a32.extractLsb' 0 16).toNat → s.env.serial = r.serial ++ rest →
    s.env.timer = r.timer ++ ts →
    ∃ (t : State) (evs : List Event), Performs s q i evs { byte := f.setWidth 8 } t ∧
      evs = .now r.t0 :: turnEvents .readStatus r.turns ++ txnEvents .readStatus (misoOf r.ws) ++
        (match r.late with
          | none => []
          | some t1 => [.now t1, .warn kind]) ∧
      SameBuffers s t ∧ t.env.serial = rest ∧ t.env.timer = ts

/-- R161: WRITE_BYTE with room in the buffer: the byte appended, rx_cur dropped, no wire traffic. A full buffer
is in WriteByteToFullBufferFlushes. IDLE in the cycle of rsp_valid is the model's choice (log 21). -/
def Obligations.WriteBytePerforms : Prop :=
  ∀ (s : State) (q : Req), Presents s q → q.op = 0x8#4 → s.txCur < 31 →
    ∃ t, Performs s q (.writeByte q.a8) [] Rsp.ack t ∧ t.txCur = s.txCur + 1 ∧
      t.txBuf.read s.txCur = some q.a8 ∧ (∀ k, k ≠ s.txCur → t.txBuf.read k = s.txBuf.read k) ∧
      t.rxCur = 0 ∧ t.rxBuf = s.rxBuf ∧ t.env.serial = s.env.serial ∧ t.env.timer = s.env.timer

/-- R22, R161: WRITE_BYTE with a full buffer: one CONTINUES frame of all 31 bytes first, whether or not the
receiver got ready, then the byte alone in the buffer. IDLE in the cycle of rsp_valid is the model's choice
(log 21). -/
def Obligations.WriteByteToFullBufferFlushes : Prop :=
  ∀ (s : State) (q : Req) (data : List Byte) (r : FlushRun) (rest : List (Option Byte)) (ts : List Ms),
    Presents s q → q.op = 0x8#4 → s.txCur = 31 → data.length = 31 → Holds s.txBuf data → r.ok →
    s.env.serial = r.gate.serial ++ answers r.ws ++ rest → s.env.timer = r.gate.timer ++ ts →
    ∃ t, Performs s q (.writeByte q.a8)
        (r.gate.events .rx ++ txnEvents (.writeData (0xDC#8 :: data)) (misoOf r.ws)) Rsp.ack t ∧
      t.txCur = 1 ∧ t.txBuf.read 0 = some q.a8 ∧ (∀ k, k ≠ 0 → t.txBuf.read k = s.txBuf.read k) ∧
      t.rxCur = 0 ∧ t.rxBuf = s.rxBuf ∧ t.env.serial = rest ∧ t.env.timer = ts

/-- R160, R162, R163, R167: FLUSH_FIN and FLUSH_CONT with pending bytes: the gating wait, one frame whatever
the wait returned, ack, and an empty buffer. The empty buffer is in EmptyFlushPerforms. IDLE in the cycle of
rsp_valid is the model's choice (log 21). -/
def Obligations.FlushesPerform : Prop :=
  ∀ (s : State) (q : Req) (i : Instr) (ind : Byte) (data : List Byte) (r : FlushRun)
    (rest : List (Option Byte)) (ts : List Ms),
    Presents s q →
    (q.op = 0x9#4 ∧ i = .flushFin ∧ ind = 0xDF#8) ∨ (q.op = 0xA#4 ∧ i = .flushCont ∧ ind = 0xDC#8) →
    1 ≤ s.txCur → s.txCur ≤ 31 → data.length = s.txCur → Holds s.txBuf data → r.ok →
    s.env.serial = r.gate.serial ++ answers r.ws ++ rest → s.env.timer = r.gate.timer ++ ts →
    ∃ t, Performs s q i
        (r.gate.events .rx ++ txnEvents (.writeData (muxFrame ind data)) (misoOf r.ws)) Rsp.ack t ∧
      t.txCur = 0 ∧ t.txBuf = s.txBuf ∧ t.rxBuf = s.rxBuf ∧ t.rxCur = s.rxCur ∧
      t.env.serial = rest ∧ t.env.timer = ts

/-- R180, R183, R186: READ_BYTE with no fetch: the byte at the cursor, or the sentinel past the end of a
message; no wire traffic, no Timer sample, and the unsent bytes are dropped. The fetches are in
ReadByteContinuesMessage and ReadBytePollsForFrame. IDLE in the cycle of rsp_valid is the model's choice (log 21). -/
def Obligations.ReadByteWithoutFetch : Prop :=
  ∀ (s : State) (q : Req) (r : Byte), Presents s q → q.op = 0xB#4 →
    (1 ≤ s.rxCur → s.rxCur ≤ 31 → s.rxBuf.read s.rxCur = some r →
      ∃ t, Performs s q .readByte [] { byte := r } t ∧ t.rxCur = s.rxCur + 1 ∧ t.txCur = 0 ∧
        t.rxBuf = s.rxBuf ∧ t.txBuf = s.txBuf ∧ t.env.serial = s.env.serial ∧ t.env.timer = s.env.timer) ∧
    (s.rxCur = 32 → s.rxBuf.read 0 = some r → r ≠ 0xDC#8 →
      ∃ t, Performs s q .readByte [] { byte := 0x00#8 } t ∧ t.rxCur = 32 ∧ t.txCur = 0 ∧
        t.rxBuf = s.rxBuf ∧ t.txBuf = s.txBuf ∧ t.env.serial = s.env.serial ∧ t.env.timer = s.env.timer)

/-- R182: READ_BYTE on the continuation path: a transmitter-ready wait of T_READY, then one READDATA whatever
the wait returned, accepted whatever its byte 0; byte 1 is the response. IDLE in the cycle of rsp_valid is the
model's choice (log 21). -/
def Obligations.ReadByteContinuesMessage : Prop :=
  ∀ (s : State) (q : Req) (r : WaitRun) (ws : List (Nat × Byte)) (G : List Byte) (b : Byte)
    (rest : List (Option Byte)) (ts : List Ms),
    Presents s q → q.op = 0xB#4 → s.rxCur = 32 → s.rxBuf.read 0 = some 0xDC#8 → r.ok .tx 3000 →
    frameAnswer ws G → G[1]? = some b →
    s.env.serial = r.serial ++ answers ws ++ rest → s.env.timer = r.timer ++ ts →
    ∃ t, Performs s q .readByte (r.events .tx ++ txnEvents .readData (misoOf ws)) { byte := b } t ∧
      Holds t.rxBuf G ∧ t.rxCur = 2 ∧ t.txCur = 0 ∧ t.txBuf = s.txBuf ∧
      t.env.serial = rest ∧ t.env.timer = ts

/-- R181, R180: READ_BYTE with no frame yet: the frame poll, for every number of polls the Timer admits. A
valid frame delivers its byte 1; exhaustion answers the sentinel with no warning and leaves rx_cur at 0. IDLE in the
cycle of rsp_valid is the model's choice (log 21). -/
def Obligations.ReadBytePollsForFrame : Prop :=
  ∀ (s : State) (q : Req) (r : PollRun) (rest : List (Option Byte)) (ts : List Ms),
    Presents s q → q.op = 0xB#4 → s.rxCur = 0 → r.ok →
    s.env.serial = r.serial ++ rest → s.env.timer = r.timer ++ ts →
    ∃ (t : State) (b : Byte), Performs s q .readByte r.events { byte := b } t ∧
      Holds t.rxBuf r.frame ∧ t.txCur = 0 ∧ t.txBuf = s.txBuf ∧
      t.env.serial = rest ∧ t.env.timer = ts ∧
      (r.late = none → r.frame[1]? = some b ∧ t.rxCur = 2) ∧
      (r.late ≠ none → b = 0x00#8 ∧ t.rxCur = 0)

/-- R184: AVAIL, from its request to its response: the count, no other event, nothing sampled or written;
between operations (R26) the count is at most 30. IDLE in the cycle of rsp_valid is the model's choice (log 21). -/
def Obligations.AvailPerforms : Prop :=
  ∀ (s : State) (q : Req), Presents s q → q.op = 0xC#4 →
    ∃ t, Performs s q .avail [] { byte := if s.rxCur = 0 then 0 else BitVec.ofNat 8 (32 - s.rxCur) } t ∧
      SameBuffers s t ∧ t.env.serial = s.env.serial ∧ t.env.timer = s.env.timer ∧
      (s.rxCur = 0 ∨ (2 ≤ s.rxCur ∧ s.rxCur ≤ 32) → t.out.rsp.byte.toNat ≤ 30)

/-- R201: a request with a reserved op code is accepted and answered with illegal = 1 and every other field 0;
no other event, no Timer sample, nothing on the link, every buffer and cursor unchanged, back to IDLE. IDLE in the
cycle of rsp_valid already is the model's choice (log 21). -/
def Obligations.ReservedRequestsPerform : Prop :=
  ∀ (s : State) (q : Req) (i : Instr), Presents s q →
    (q.op = 0x0#4 ∧ i = .reserved0) ∨ (q.op = 0x7#4 ∧ i = .reserved7) ∨ (q.op = 0xD#4 ∧ i = .reservedD) ∨
      (q.op = 0xE#4 ∧ i = .reservedE) ∨ (q.op = 0xF#4 ∧ i = .reservedF) →
    ∃ t, Performs s q i [] { illegal := true, byte := 0, word := 0, frame := 0 } t ∧
      SameBuffers s t ∧ t.ss = s.ss ∧ t.env.serial = s.env.serial ∧ t.env.timer = s.env.timer

/-- R164: a flush of an empty transmit buffer, from request to response: no event but REQ and RSP.
IDLE in the cycle of rsp_valid is the model's choice (log 21). -/
def Obligations.EmptyFlushPerforms : Prop :=
  ∀ (s : State) (q : Req) (i : Instr), Presents s q →
    (q.op = 0x9#4 ∧ i = .flushFin) ∨ (q.op = 0xA#4 ∧ i = .flushCont) → s.txCur = 0 →
    ∃ t, Performs s q i [] Rsp.ack t ∧ SameBuffers s t ∧ t.env.serial = s.env.serial ∧
      t.env.timer = s.env.timer

/-- From rx_cur = 0, a FINISHED frame at the first poll: 31 READ_BYTE return its data bytes in order, with one
READDATA in the first; a 32nd returns 0x00 with no wire traffic. It is narrower than R188: every operand of the
requests is 0, and one is presented at every idle edge, with no pause. The script form of the request port, of which
a busy edge takes nothing (`t.env.requests = more`), is the model's choice (log 2, log 20). -/
def Obligations.FinishedFrameReadsInOrder : Prop :=
  ∀ (s : State) (ws : List (Nat × Byte)) (F : List Byte) (b : Byte) (more : List (Option Req))
    (rest : List (Option Byte)) (t0 : Ms) (ts : List Ms),
    s.seq.phase = .idle → s.seq.txn = none → s.ss = .deasserted → s.rxCur = 0 →
    s.env.requests = List.replicate 32 (some (Req.plain 0xB#4)) ++ more →
    frameAnswer ws (0xDF#8 :: b :: F) → s.env.serial = answers ws ++ rest → s.env.timer = t0 :: ts →
    ∃ t, Reaches s t ∧ t.seq.phase = .idle ∧ t.rxCur = 32 ∧ t.env.requests = more ∧
      t.env.serial = rest ∧ t.env.timer = ts ∧
      t.trace =
        ([Event.req (Req.plain 0xB#4), .now t0] ++ txnEvents .readData (misoOf ws) ++ [Event.rsp { byte := b }] ++
          F.flatMap (fun x => [Event.req (Req.plain 0xB#4), .rsp { byte := x }]) ++
          [Event.req (Req.plain 0xB#4), .rsp { byte := 0x00#8 }]).reverse ++ s.trace

/-- R165: a message of N >= 1 bytes and a FLUSH_FIN, from an empty buffer, sends exactly ceil(N / 31) frames:
31 bytes each with CONTINUES, the last with FINISHED, zero-padded, whatever the gating waits return. One request is
presented at every idle edge: pauses and other operations in between are not covered. The script form of the request
port, of which a busy edge takes nothing (`t.env.requests = more`), is the model's choice (log 2, log 20). -/
def Obligations.MessageIsFramed : Prop :=
  ∀ (s : State) (msg : List Byte) (rs : List FlushRun) (more : List (Option Req))
    (rest : List (Option Byte)) (ts : List Ms),
    s.seq.phase = .idle → s.seq.txn = none → s.ss = .deasserted → s.txCur = 0 → 1 ≤ msg.length →
    rs.length = frameCount msg.length → (∀ r ∈ rs, r.ok) →
    s.env.requests =
      msg.map (fun b => some { Req.plain 0x8#4 with a8 := b }) ++ some (Req.plain 0x9#4) :: more →
    s.env.serial = rs.flatMap (fun r => r.gate.serial ++ answers r.ws) ++ rest →
    s.env.timer = rs.flatMap (fun r => r.gate.timer) ++ ts →
    ∃ (t : State) (es : List Event), Reaches s t ∧ t.seq.phase = .idle ∧ t.txCur = 0 ∧
      t.env.requests = more ∧ t.env.serial = rest ∧ t.env.timer = ts ∧
      t.trace = es.reverse ++ s.trace ∧ sentFrames es = messageFrames msg

/-- R150, R247, R242: the block has no hang but the listed two. In an endless run with rst = 0 from a state of
the invariant, if the serializer answers every exchange (a) and the Timer progresses (b), then every operation
in flight comes to its response. The number of turns of its loops has no bound. (a) and (b) are assumptions on
the environment, not facts of the machine (log 22). -/
def Obligations.OperationsEndInFairRuns : Prop :=
  ∀ (ports : Nat → Ports) (run : Nat → State), EndlessRun ports run → MachineInv (run 0) →
    SerializerAnswers ports run → TimerProgress ports run →
    ∀ n, (run n).seq.phase ≠ .idle →
      ∃ m r, n ≤ m ∧ (run (m + 1)).trace = .rsp r :: (run m).trace ∧
        (run (m + 1)).out.rspValid = true ∧ (run (m + 1)).out.rsp = r ∧ (run (m + 1)).seq.phase = .idle
end

