-- ==== Sys2Proof/Laws/Bytes.lean ====
section
/-! SUPPORT. Bytes and numbers: lengths, round trips, status words, frames on the ports, payloads. -/

namespace Sys2Proof

@[simp] theorem bytesOfNat_length (n v : Nat) : (bytesOfNat n v).length = n := by
  induction n generalizing v with
  | zero => rfl
  | succ n ih => simp [bytesOfNat, ih]

/-- The number of n low bytes is the number modulo 256^n. -/
theorem natOfBytes_bytesOfNat (n v : Nat) : natOfBytes (bytesOfNat n v) = v % 256 ^ n := by
  induction n generalizing v with
  | zero => simp [bytesOfNat, natOfBytes, Nat.mod_one]
  | succ n ih =>
    rw [bytesOfNat, natOfBytes, ih, BitVec.toNat_ofNat, pow_succ' 256, Nat.mod_mul (x := v) (a := 256)]

/-- The bytes of the number of some bytes are these bytes. -/
theorem bytesOfNat_natOfBytes (bs : List Byte) : bytesOfNat bs.length (natOfBytes bs) = bs := by
  induction bs with
  | nil => rfl
  | cons b bs ih =>
    have h1 : (b.toNat + 256 * natOfBytes bs) / 256 = natOfBytes bs := by have := b.isLt; omega
    have h2 : BitVec.ofNat 8 (b.toNat + 256 * natOfBytes bs) = b := by
      apply BitVec.eq_of_toNat_eq
      have := b.isLt
      simp only [BitVec.toNat_ofNat]
      omega
    simp only [List.length_cons, natOfBytes, bytesOfNat, h1, h2, ih]

theorem natOfBytes_lt (bs : List Byte) : natOfBytes bs < 256 ^ bs.length := by
  induction bs with
  | nil => simp [natOfBytes]
  | cons b bs ih =>
    have := b.isLt
    simp only [natOfBytes, List.length_cons, pow_succ']
    omega

/-- Byte k of the n low bytes. -/
theorem getElem?_bytesOfNat (n v k : Nat) (h : k < n) :
    (bytesOfNat n v)[k]? = some (BitVec.ofNat 8 (v / 256 ^ k)) := by
  induction n generalizing v k with
  | zero => omega
  | succ n ih =>
    cases k with
    | zero => simp [bytesOfNat]
    | succ k =>
      rw [bytesOfNat, List.getElem?_cons_succ, ih _ _ (by omega), Nat.div_div_eq_div_mul, pow_succ']

@[simp] theorem wordBytes_length (w : Word) : (wordBytes w).length = 4 := bytesOfNat_length 4 _

@[simp] theorem frameBytesOf_length (f : FrameBits) : (frameBytesOf f).length = 32 := bytesOfNat_length 32 _

/-- The four bytes of a word, the least significant first (R78). -/
theorem wordBytes_eq (w : Word) :
    wordBytes w = [w.extractLsb' 0 8, w.extractLsb' 8 8, w.extractLsb' 16 8, w.extractLsb' 24 8] := by
  have byte (k : Nat) : w.extractLsb' k 8 = BitVec.ofNat 8 (w.toNat / 2 ^ k) := by
    apply BitVec.eq_of_toNat_eq
    simp [Nat.shiftRight_eq_div_pow]
  simp [byte, wordBytes, bytesOfNat, Nat.div_div_eq_div_mul]

/-- A word is assembled from its own bytes. -/
@[simp] theorem assembleWord_wordBytes (w : Word) : assembleWord (wordBytes w) = w := by
  apply BitVec.eq_of_toNat_eq
  have := w.isLt
  simp only [assembleWord, wordBytes, natOfBytes_bytesOfNat, BitVec.toNat_ofNat]
  omega

/-- A frame of 32 bytes comes back from its port form. -/
@[simp] theorem frameBytesOf_frameBitsOf (bs : List Byte) (h : bs.length = 32) :
    frameBytesOf (frameBitsOf bs) = bs := by
  have h1 := natOfBytes_lt bs
  rw [h] at h1
  have h2 : natOfBytes bs % 2 ^ 256 = natOfBytes bs := Nat.mod_eq_of_lt (by simpa using h1)
  simp only [frameBytesOf, frameBitsOf, BitVec.toNat_ofNat, h2, Config.frameBytes]
  simpa [h] using bytesOfNat_natOfBytes bs

/-- Byte k of a frame's bits from its bytes (R36). -/
theorem extractLsb'_eq_ofNat (f : FrameBits) (k : Nat) :
    f.extractLsb' (8 * k) 8 = BitVec.ofNat 8 (f.toNat / 256 ^ k) := by
  apply BitVec.eq_of_toNat_eq
  simp [Nat.shiftRight_eq_div_pow, Nat.pow_mul]

/-- Byte k of a frame on a port (R36). -/
theorem getElem?_frameBytesOf (f : FrameBits) (k : Nat) (h : k < 32) :
    (frameBytesOf f)[k]? = some (f.extractLsb' (8 * k) 8) := by
  rw [frameBytesOf, Config.frameBytes, getElem?_bytesOfNat _ _ _ h, extractLsb'_eq_ofNat]

namespace Machine

@[simp] theorem payloadOf_length (P : List Byte) (len : Nat) : (payloadOf P len).length = 32 := by
  simp [payloadOf, Config.frameBytes]

/-- The payload of at most 32 bytes is the operand bytes, then zeros (R80). -/
theorem payloadOf_eq (P : List Byte) (len : Nat) (h : min len 32 ≤ P.length) :
    payloadOf P len = P.take (min len 32) ++ List.replicate (32 - min len 32) Config.padByte := by
  apply List.ext_getElem?
  intro k
  simp only [payloadOf, clampLen, Config.frameBytes, List.getElem?_map, List.getElem?_append,
    List.length_take, List.getElem?_take, List.getElem?_replicate]
  by_cases hk : k < 32
  · by_cases h2 : k < min len 32
    · simp [hk, h2, show k < len by omega, show k < P.length by omega]
    · simp [hk, show ¬ (k < len) by omega, show min (min len 32) P.length = min len 32 by omega]
      omega
  · simp [hk]
    omega

end Machine

end Sys2Proof
end

