-- ==== Sys2Proof/Laws/Memory.lean ====
section
/-! SUPPORT. The byte memories: read after write, writes elsewhere, the canonical form, and what the primitives of R51 answer. -/

namespace Sys2Proof.Machine

theorem Mem.read_write_same (m : Mem) (i : Nat) (v : Byte) : (m.write i v).read i = some v := by
  induction m with
  | nil => simp [Mem.write, Mem.read]
  | cons c m ih =>
    obtain ⟨a, w⟩ := c
    by_cases h1 : i < a
    · simp [Mem.write, Mem.read, h1]
    · by_cases h2 : i = a
      · simp [Mem.write, Mem.read, h2]
      · simp [Mem.write, Mem.read, h1, h2, ih, Ne.symm h2]

theorem Mem.read_write_other (m : Mem) (i j : Nat) (v : Byte) (h : j ≠ i) :
    (m.write i v).read j = m.read j := by
  induction m with
  | nil => simp [Mem.write, Mem.read, Ne.symm h]
  | cons c m ih =>
    obtain ⟨a, w⟩ := c
    by_cases h1 : i < a
    · simp [Mem.write, Mem.read, h1, Ne.symm h]
    · by_cases h2 : i = a
      · subst h2; simp [Mem.write, Mem.read, Ne.symm h]
      · simp [Mem.write, Mem.read, h1, h2, ih]

theorem Mem.read_write (m : Mem) (i j : Nat) (v : Byte) :
    (m.write i v).read j = if j = i then some v else m.read j := by
  by_cases h : j = i
  · subst h; simp [Mem.read_write_same]
  · simp [h, Mem.read_write_other m i j v h]

theorem Mem.isSome_write (m : Mem) (i j : Nat) (v : Byte) (h : (m.read j).isSome = true) :
    ((m.write i v).read j).isSome = true := by
  rw [Mem.read_write]; split <;> simp_all

/-- Reading after a write of bytes at consecutive indices. -/
theorem Mem.read_writeAll (m : Mem) (i : Nat) (bs : List Byte) (j : Nat) :
    (m.writeAll i bs).read j = if i ≤ j ∧ j < i + bs.length then bs[j - i]? else m.read j := by
  induction bs generalizing m i with
  | nil => simp [Mem.writeAll]
  | cons b bs ih =>
    simp only [Mem.writeAll, ih, Mem.read_write, List.length_cons]
    by_cases h : j = i
    · subst h; simp
    · by_cases h1 : i + 1 ≤ j ∧ j < i + 1 + bs.length
      · have e : j - i = (j - (i + 1)) + 1 := by omega
        rw [if_pos h1, if_pos (by omega), e, List.getElem?_cons_succ]
      · rw [if_neg h1, if_neg h, if_neg (by omega)]

/-- The canonical form, as a pairwise order. -/
theorem Mem.wf_iff (m : Mem) : m.wf = true ↔ m.Pairwise (fun c d => c.1 < d.1) := by
  induction m with
  | nil => simp [Mem.wf]
  | cons c m ih =>
    cases m with
    | nil => simp [Mem.wf]
    | cons d m =>
      simp only [Mem.wf, Bool.and_eq_true, decide_eq_true_eq, ih, List.pairwise_cons, List.mem_cons]
      constructor
      · rintro ⟨h, hd, hm⟩
        exact ⟨fun a ha => ha.elim (fun e => e ▸ h) (fun h' => h.trans (hd a h')), hd, hm⟩
      · rintro ⟨h, hd, hm⟩
        exact ⟨h d (Or.inl rfl), hd, hm⟩

theorem Mem.mem_write (m : Mem) (i : Nat) (v : Byte) (c : Host.Cell) (h : c ∈ m.write i v) :
    c = (i, v) ∨ c ∈ m := by
  induction m with
  | nil => simpa [Mem.write] using h
  | cons d m ih =>
    obtain ⟨a, w⟩ := d
    by_cases h1 : i < a
    · simpa [Mem.write, h1] using h
    · by_cases h2 : i = a
      · subst h2
        rcases (by simpa [Mem.write] using h : c = (i, v) ∨ c ∈ m) with h' | h' <;> simp [h']
      · rcases (by simpa [Mem.write, h1, h2] using h : c = (a, w) ∨ c ∈ Mem.write m i v) with h' | h'
        · simp [h']
        · rcases ih h' with h'' | h'' <;> simp [h'']

/-- A write keeps the canonical form. -/
theorem Mem.wf_write (m : Mem) (i : Nat) (v : Byte) (h : m.wf = true) : (m.write i v).wf = true := by
  rw [Mem.wf_iff] at h ⊢
  induction m with
  | nil => simp [Mem.write]
  | cons c m ih =>
    obtain ⟨a, w⟩ := c
    rw [List.pairwise_cons] at h
    by_cases h1 : i < a
    · simp only [Mem.write, h1, if_true, List.pairwise_cons, List.mem_cons]
      refine ⟨fun c hc => hc.elim (fun e => by simpa [e] using h1) (fun hc => h1.trans (h.1 c hc)), h⟩
    · by_cases h2 : i = a
      · subst h2
        simpa [Mem.write, List.pairwise_cons] using h
      · simp only [Mem.write, h1, h2, if_false, List.pairwise_cons]
        refine ⟨fun c hc => ?_, ih h.2⟩
        rcases Mem.mem_write m i v c hc with e | hc
        · simp only [e]; omega
        · exact h.1 c hc

/-- Writing bytes at consecutive indices keeps the canonical form. -/
theorem Mem.wf_writeAll (m : Mem) (i : Nat) (bs : List Byte) (h : m.wf = true) :
    (m.writeAll i bs).wf = true := by
  induction bs generalizing m i with
  | nil => simpa [Mem.writeAll] using h
  | cons b bs ih => exact ih _ _ (Mem.wf_write m i b h)

theorem Mem.mem_writeAll (m : Mem) (i : Nat) (bs : List Byte) (c : Host.Cell) (h : c ∈ m.writeAll i bs) :
    (i ≤ c.1 ∧ c.1 < i + bs.length) ∨ c ∈ m := by
  induction bs generalizing m i with
  | nil => exact Or.inr (by simpa [Mem.writeAll] using h)
  | cons b bs ih =>
    rcases ih _ _ h with h' | h'
    · left; simp only [List.length_cons]; omega
    · rcases Mem.mem_write m i b c h' with e | h''
      · left; simp [e]
      · exact Or.inr h''

/-- An operation on a memory finds every index it lists: a listed byte reads as listed. -/
theorem Mem.fetch_ok (m : Mem) (size i : Nat) (b : Byte) :
    m.fetch size i = .ok b ↔ i < size ∧ m.read i = some b := by
  unfold Mem.fetch
  split
  · split <;> simp_all
  · simp_all

theorem Mem.fetch_written (m : Mem) (size i : Nat) (h : i < size) (w : (m.read i).isSome = true) :
    ∃ b, m.fetch size i = .ok b ∧ m.read i = some b := by
  obtain ⟨b, hb⟩ := Option.isSome_iff_exists.mp w
  exact ⟨b, (Mem.fetch_ok m size i b).mpr ⟨h, hb⟩, hb⟩

theorem State.writeTx_ok (s t : State) (i : Nat) (v : Byte) :
    s.writeTx i v = .ok t ↔ i < Config.txCap ∧ t = { s with txBuf := s.txBuf.write i v } := by
  unfold State.writeTx
  split <;> simp_all [eq_comm]

theorem State.writeRx_ok (s t : State) (F : List Byte) :
    s.writeRx F = .ok t ↔ F.length = Config.frameBytes ∧ t = { s with rxBuf := s.rxBuf.writeAll 0 F } := by
  unfold State.writeRx
  split <;> simp_all [eq_comm]

/-- Reading n written bytes of TXB gives them, oldest first. -/
theorem State.readTxMany_written (s : State) (i n : Nat) (h : i + n ≤ Config.txCap)
    (w : ∀ j, i ≤ j → j < i + n → (s.txBuf.read j).isSome = true) :
    ∃ bs, s.readTxMany i n = .ok bs ∧ bs.length = n ∧ ∀ k, k < n → bs[k]? = s.txBuf.read (i + k) := by
  induction n generalizing i with
  | zero => exact ⟨[], rfl, rfl, by omega⟩
  | succ n ih =>
    obtain ⟨b, hb, hr⟩ := Mem.fetch_written s.txBuf Config.txCap i (by omega) (w i le_rfl (by omega))
    obtain ⟨bs, h1, h2, h3⟩ := ih (i + 1) (by omega) (fun j h1 h2 => w j (by omega) (by omega))
    refine ⟨b :: bs, ?_, by simp [h2], ?_⟩
    · simp [State.readTxMany, State.readTx, hb, h1]
    · intro k hk
      cases k with
      | zero => simp [hr]
      | succ k => rw [List.getElem?_cons_succ, h3 k (by omega)]; congr 1; omega

end Sys2Proof.Machine
end

