-- ==== Sys2Proof/Laws/State.lean ====
section
/-! SUPPORT. What each named operation does to each field of the state, one lemma a field. -/

namespace Sys2Proof.Machine

/-! #### emit -/

@[simp] theorem State.emit_txBuf (s : State) (e : Event) : (s.emit e).txBuf = s.txBuf := rfl
@[simp] theorem State.emit_txCur (s : State) (e : Event) : (s.emit e).txCur = s.txCur := rfl
@[simp] theorem State.emit_rxBuf (s : State) (e : Event) : (s.emit e).rxBuf = s.rxBuf := rfl
@[simp] theorem State.emit_rxCur (s : State) (e : Event) : (s.emit e).rxCur = s.rxCur := rfl
@[simp] theorem State.emit_ss (s : State) (e : Event) : (s.emit e).ss = s.ss := rfl
@[simp] theorem State.emit_seq (s : State) (e : Event) : (s.emit e).seq = s.seq := rfl
@[simp] theorem State.emit_out (s : State) (e : Event) : (s.emit e).out = s.out := rfl
@[simp] theorem State.emit_trace (s : State) (e : Event) : (s.emit e).trace = e :: s.trace := rfl
@[simp] theorem State.emit_env (s : State) (e : Event) : (s.emit e).env = s.env := rfl
@[simp] theorem State.emit_clkHz (s : State) (e : Event) : (s.emit e).clkHz = s.clkHz := rfl

/-! #### setTxCur -/

@[simp] theorem State.setTxCur_txBuf (s : State) (n : Nat) : (s.setTxCur n).txBuf = s.txBuf := rfl
@[simp] theorem State.setTxCur_txCur (s : State) (n : Nat) : (s.setTxCur n).txCur = n := rfl
@[simp] theorem State.setTxCur_rxBuf (s : State) (n : Nat) : (s.setTxCur n).rxBuf = s.rxBuf := rfl
@[simp] theorem State.setTxCur_rxCur (s : State) (n : Nat) : (s.setTxCur n).rxCur = s.rxCur := rfl
@[simp] theorem State.setTxCur_ss (s : State) (n : Nat) : (s.setTxCur n).ss = s.ss := rfl
@[simp] theorem State.setTxCur_seq (s : State) (n : Nat) : (s.setTxCur n).seq = s.seq := rfl
@[simp] theorem State.setTxCur_out (s : State) (n : Nat) : (s.setTxCur n).out = s.out := rfl
@[simp] theorem State.setTxCur_trace (s : State) (n : Nat) : (s.setTxCur n).trace = s.trace := rfl
@[simp] theorem State.setTxCur_env (s : State) (n : Nat) : (s.setTxCur n).env = s.env := rfl
@[simp] theorem State.setTxCur_clkHz (s : State) (n : Nat) : (s.setTxCur n).clkHz = s.clkHz := rfl

/-! #### setRxCur -/

@[simp] theorem State.setRxCur_txBuf (s : State) (n : Nat) : (s.setRxCur n).txBuf = s.txBuf := rfl
@[simp] theorem State.setRxCur_txCur (s : State) (n : Nat) : (s.setRxCur n).txCur = s.txCur := rfl
@[simp] theorem State.setRxCur_rxBuf (s : State) (n : Nat) : (s.setRxCur n).rxBuf = s.rxBuf := rfl
@[simp] theorem State.setRxCur_rxCur (s : State) (n : Nat) : (s.setRxCur n).rxCur = n := rfl
@[simp] theorem State.setRxCur_ss (s : State) (n : Nat) : (s.setRxCur n).ss = s.ss := rfl
@[simp] theorem State.setRxCur_seq (s : State) (n : Nat) : (s.setRxCur n).seq = s.seq := rfl
@[simp] theorem State.setRxCur_out (s : State) (n : Nat) : (s.setRxCur n).out = s.out := rfl
@[simp] theorem State.setRxCur_trace (s : State) (n : Nat) : (s.setRxCur n).trace = s.trace := rfl
@[simp] theorem State.setRxCur_env (s : State) (n : Nat) : (s.setRxCur n).env = s.env := rfl
@[simp] theorem State.setRxCur_clkHz (s : State) (n : Nat) : (s.setRxCur n).clkHz = s.clkHz := rfl

/-! #### setSs -/

@[simp] theorem State.setSs_txBuf (s : State) (l : SelectLine) : (s.setSs l).txBuf = s.txBuf := rfl
@[simp] theorem State.setSs_txCur (s : State) (l : SelectLine) : (s.setSs l).txCur = s.txCur := rfl
@[simp] theorem State.setSs_rxBuf (s : State) (l : SelectLine) : (s.setSs l).rxBuf = s.rxBuf := rfl
@[simp] theorem State.setSs_rxCur (s : State) (l : SelectLine) : (s.setSs l).rxCur = s.rxCur := rfl
@[simp] theorem State.setSs_ss (s : State) (l : SelectLine) : (s.setSs l).ss = l := rfl
@[simp] theorem State.setSs_seq (s : State) (l : SelectLine) : (s.setSs l).seq = s.seq := rfl
@[simp] theorem State.setSs_out (s : State) (l : SelectLine) : (s.setSs l).out = s.out := rfl
@[simp] theorem State.setSs_trace (s : State) (l : SelectLine) : (s.setSs l).trace = s.trace := rfl
@[simp] theorem State.setSs_env (s : State) (l : SelectLine) : (s.setSs l).env = s.env := rfl
@[simp] theorem State.setSs_clkHz (s : State) (l : SelectLine) : (s.setSs l).clkHz = s.clkHz := rfl

/-! #### clearPulses -/

@[simp] theorem State.clearPulses_txBuf (s : State) : (s.clearPulses).txBuf = s.txBuf := rfl
@[simp] theorem State.clearPulses_txCur (s : State) : (s.clearPulses).txCur = s.txCur := rfl
@[simp] theorem State.clearPulses_rxBuf (s : State) : (s.clearPulses).rxBuf = s.rxBuf := rfl
@[simp] theorem State.clearPulses_rxCur (s : State) : (s.clearPulses).rxCur = s.rxCur := rfl
@[simp] theorem State.clearPulses_ss (s : State) : (s.clearPulses).ss = s.ss := rfl
@[simp] theorem State.clearPulses_seq (s : State) : (s.clearPulses).seq = s.seq := rfl
@[simp] theorem State.clearPulses_out_rspValid (s : State) : (s.clearPulses).out.rspValid = false := rfl
@[simp] theorem State.clearPulses_out_rsp (s : State) : (s.clearPulses).out.rsp = Config.freeRsp s.env.draws := rfl
@[simp] theorem State.clearPulses_out_sxStart (s : State) : (s.clearPulses).out.sxStart = false := rfl
@[simp] theorem State.clearPulses_out_sxTx (s : State) : (s.clearPulses).out.sxTx = Config.freeSxTx s.env.draws := rfl
@[simp] theorem State.clearPulses_out_yieldO (s : State) : (s.clearPulses).out.yieldO = false := rfl
@[simp] theorem State.clearPulses_out_warnO (s : State) : (s.clearPulses).out.warnO = false := rfl
@[simp] theorem State.clearPulses_out_warnKind (s : State) : (s.clearPulses).out.warnKind = Config.freeWarnKind s.env.draws := rfl
@[simp] theorem State.clearPulses_trace (s : State) : (s.clearPulses).trace = s.trace := rfl
@[simp] theorem State.clearPulses_env (s : State) :
    (s.clearPulses).env = { s.env with draws := s.env.draws + 1 } := rfl
@[simp] theorem State.clearPulses_clkHz (s : State) : (s.clearPulses).clkHz = s.clkHz := rfl

/-! #### yieldNow -/

@[simp] theorem State.yieldNow_txBuf (s : State) : (s.yieldNow).txBuf = s.txBuf := rfl
@[simp] theorem State.yieldNow_txCur (s : State) : (s.yieldNow).txCur = s.txCur := rfl
@[simp] theorem State.yieldNow_rxBuf (s : State) : (s.yieldNow).rxBuf = s.rxBuf := rfl
@[simp] theorem State.yieldNow_rxCur (s : State) : (s.yieldNow).rxCur = s.rxCur := rfl
@[simp] theorem State.yieldNow_ss (s : State) : (s.yieldNow).ss = s.ss := rfl
@[simp] theorem State.yieldNow_seq (s : State) : (s.yieldNow).seq = s.seq := rfl
@[simp] theorem State.yieldNow_out_rspValid (s : State) : (s.yieldNow).out.rspValid = s.out.rspValid := rfl
@[simp] theorem State.yieldNow_out_rsp (s : State) : (s.yieldNow).out.rsp = s.out.rsp := rfl
@[simp] theorem State.yieldNow_out_sxStart (s : State) : (s.yieldNow).out.sxStart = s.out.sxStart := rfl
@[simp] theorem State.yieldNow_out_sxTx (s : State) : (s.yieldNow).out.sxTx = s.out.sxTx := rfl
@[simp] theorem State.yieldNow_out_yieldO (s : State) : (s.yieldNow).out.yieldO = true := rfl
@[simp] theorem State.yieldNow_out_warnO (s : State) : (s.yieldNow).out.warnO = s.out.warnO := rfl
@[simp] theorem State.yieldNow_out_warnKind (s : State) : (s.yieldNow).out.warnKind = s.out.warnKind := rfl
@[simp] theorem State.yieldNow_trace (s : State) : (s.yieldNow).trace = .yielded :: s.trace := rfl
@[simp] theorem State.yieldNow_env (s : State) : (s.yieldNow).env = s.env := rfl
@[simp] theorem State.yieldNow_clkHz (s : State) : (s.yieldNow).clkHz = s.clkHz := rfl

/-! #### warn -/

@[simp] theorem State.warn_txBuf (s : State) (k : BitVec 1) : (s.warn k).txBuf = s.txBuf := rfl
@[simp] theorem State.warn_txCur (s : State) (k : BitVec 1) : (s.warn k).txCur = s.txCur := rfl
@[simp] theorem State.warn_rxBuf (s : State) (k : BitVec 1) : (s.warn k).rxBuf = s.rxBuf := rfl
@[simp] theorem State.warn_rxCur (s : State) (k : BitVec 1) : (s.warn k).rxCur = s.rxCur := rfl
@[simp] theorem State.warn_ss (s : State) (k : BitVec 1) : (s.warn k).ss = s.ss := rfl
@[simp] theorem State.warn_seq (s : State) (k : BitVec 1) : (s.warn k).seq = s.seq := rfl
@[simp] theorem State.warn_out_rspValid (s : State) (k : BitVec 1) : (s.warn k).out.rspValid = s.out.rspValid := rfl
@[simp] theorem State.warn_out_rsp (s : State) (k : BitVec 1) : (s.warn k).out.rsp = s.out.rsp := rfl
@[simp] theorem State.warn_out_sxStart (s : State) (k : BitVec 1) : (s.warn k).out.sxStart = s.out.sxStart := rfl
@[simp] theorem State.warn_out_sxTx (s : State) (k : BitVec 1) : (s.warn k).out.sxTx = s.out.sxTx := rfl
@[simp] theorem State.warn_out_yieldO (s : State) (k : BitVec 1) : (s.warn k).out.yieldO = s.out.yieldO := rfl
@[simp] theorem State.warn_out_warnO (s : State) (k : BitVec 1) : (s.warn k).out.warnO = true := rfl
@[simp] theorem State.warn_out_warnKind (s : State) (k : BitVec 1) : (s.warn k).out.warnKind = k := rfl
@[simp] theorem State.warn_trace (s : State) (k : BitVec 1) : (s.warn k).trace = .warn k :: s.trace := rfl
@[simp] theorem State.warn_env (s : State) (k : BitVec 1) : (s.warn k).env = s.env := rfl
@[simp] theorem State.warn_clkHz (s : State) (k : BitVec 1) : (s.warn k).clkHz = s.clkHz := rfl

/-! #### respond -/

@[simp] theorem State.respond_txBuf (s : State) (r : Rsp) : (s.respond r).txBuf = s.txBuf := rfl
@[simp] theorem State.respond_txCur (s : State) (r : Rsp) : (s.respond r).txCur = s.txCur := rfl
@[simp] theorem State.respond_rxBuf (s : State) (r : Rsp) : (s.respond r).rxBuf = s.rxBuf := rfl
@[simp] theorem State.respond_rxCur (s : State) (r : Rsp) : (s.respond r).rxCur = s.rxCur := rfl
@[simp] theorem State.respond_ss (s : State) (r : Rsp) : (s.respond r).ss = s.ss := rfl
@[simp] theorem State.respond_seq_phase (s : State) (r : Rsp) : (s.respond r).seq.phase = .idle := rfl
@[simp] theorem State.respond_seq_req (s : State) (r : Rsp) : (s.respond r).seq.req = s.seq.req := rfl
@[simp] theorem State.respond_seq_txn (s : State) (r : Rsp) : (s.respond r).seq.txn = s.seq.txn := rfl
@[simp] theorem State.respond_seq_t0 (s : State) (r : Rsp) : (s.respond r).seq.t0 = s.seq.t0 := rfl
@[simp] theorem State.respond_seq_asm (s : State) (r : Rsp) : (s.respond r).seq.asm = [] := rfl
@[simp] theorem State.respond_seq_dur (s : State) (r : Rsp) : (s.respond r).seq.dur = s.seq.dur := rfl
@[simp] theorem State.respond_out_rspValid (s : State) (r : Rsp) : (s.respond r).out.rspValid = true := rfl
@[simp] theorem State.respond_out_rsp (s : State) (r : Rsp) : (s.respond r).out.rsp = r := rfl
@[simp] theorem State.respond_out_sxStart (s : State) (r : Rsp) : (s.respond r).out.sxStart = s.out.sxStart := rfl
@[simp] theorem State.respond_out_sxTx (s : State) (r : Rsp) : (s.respond r).out.sxTx = s.out.sxTx := rfl
@[simp] theorem State.respond_out_yieldO (s : State) (r : Rsp) : (s.respond r).out.yieldO = s.out.yieldO := rfl
@[simp] theorem State.respond_out_warnO (s : State) (r : Rsp) : (s.respond r).out.warnO = s.out.warnO := rfl
@[simp] theorem State.respond_out_warnKind (s : State) (r : Rsp) : (s.respond r).out.warnKind = s.out.warnKind := rfl
@[simp] theorem State.respond_trace (s : State) (r : Rsp) : (s.respond r).trace = .rsp r :: s.trace := rfl
@[simp] theorem State.respond_env (s : State) (r : Rsp) : (s.respond r).env = s.env := rfl
@[simp] theorem State.respond_clkHz (s : State) (r : Rsp) : (s.respond r).clkHz = s.clkHz := rfl

/-! #### goto -/

@[simp] theorem State.goto_txBuf (s : State) (p : Phase) : (s.goto p).txBuf = s.txBuf := rfl
@[simp] theorem State.goto_txCur (s : State) (p : Phase) : (s.goto p).txCur = s.txCur := rfl
@[simp] theorem State.goto_rxBuf (s : State) (p : Phase) : (s.goto p).rxBuf = s.rxBuf := rfl
@[simp] theorem State.goto_rxCur (s : State) (p : Phase) : (s.goto p).rxCur = s.rxCur := rfl
@[simp] theorem State.goto_ss (s : State) (p : Phase) : (s.goto p).ss = s.ss := rfl
@[simp] theorem State.goto_seq_phase (s : State) (p : Phase) : (s.goto p).seq.phase = p := rfl
@[simp] theorem State.goto_seq_req (s : State) (p : Phase) : (s.goto p).seq.req = s.seq.req := rfl
@[simp] theorem State.goto_seq_txn (s : State) (p : Phase) : (s.goto p).seq.txn = s.seq.txn := rfl
@[simp] theorem State.goto_seq_t0 (s : State) (p : Phase) : (s.goto p).seq.t0 = s.seq.t0 := rfl
@[simp] theorem State.goto_seq_asm (s : State) (p : Phase) : (s.goto p).seq.asm = s.seq.asm := rfl
@[simp] theorem State.goto_seq_dur (s : State) (p : Phase) : (s.goto p).seq.dur = s.seq.dur := rfl
@[simp] theorem State.goto_out (s : State) (p : Phase) : (s.goto p).out = s.out := rfl
@[simp] theorem State.goto_trace (s : State) (p : Phase) : (s.goto p).trace = s.trace := rfl
@[simp] theorem State.goto_env (s : State) (p : Phase) : (s.goto p).env = s.env := rfl
@[simp] theorem State.goto_clkHz (s : State) (p : Phase) : (s.goto p).clkHz = s.clkHz := rfl

/-! #### setT0 -/

@[simp] theorem State.setT0_txBuf (s : State) (t : Ms) : (s.setT0 t).txBuf = s.txBuf := rfl
@[simp] theorem State.setT0_txCur (s : State) (t : Ms) : (s.setT0 t).txCur = s.txCur := rfl
@[simp] theorem State.setT0_rxBuf (s : State) (t : Ms) : (s.setT0 t).rxBuf = s.rxBuf := rfl
@[simp] theorem State.setT0_rxCur (s : State) (t : Ms) : (s.setT0 t).rxCur = s.rxCur := rfl
@[simp] theorem State.setT0_ss (s : State) (t : Ms) : (s.setT0 t).ss = s.ss := rfl
@[simp] theorem State.setT0_seq_phase (s : State) (t : Ms) : (s.setT0 t).seq.phase = s.seq.phase := rfl
@[simp] theorem State.setT0_seq_req (s : State) (t : Ms) : (s.setT0 t).seq.req = s.seq.req := rfl
@[simp] theorem State.setT0_seq_txn (s : State) (t : Ms) : (s.setT0 t).seq.txn = s.seq.txn := rfl
@[simp] theorem State.setT0_seq_t0 (s : State) (t : Ms) : (s.setT0 t).seq.t0 = t := rfl
@[simp] theorem State.setT0_seq_asm (s : State) (t : Ms) : (s.setT0 t).seq.asm = s.seq.asm := rfl
@[simp] theorem State.setT0_seq_dur (s : State) (t : Ms) : (s.setT0 t).seq.dur = s.seq.dur := rfl
@[simp] theorem State.setT0_out (s : State) (t : Ms) : (s.setT0 t).out = s.out := rfl
@[simp] theorem State.setT0_trace (s : State) (t : Ms) : (s.setT0 t).trace = s.trace := rfl
@[simp] theorem State.setT0_env (s : State) (t : Ms) : (s.setT0 t).env = s.env := rfl
@[simp] theorem State.setT0_clkHz (s : State) (t : Ms) : (s.setT0 t).clkHz = s.clkHz := rfl

/-! #### call -/

@[simp] theorem State.call_txBuf (s : State) (c : WireCmd) (p : Phase) : (s.call c p).txBuf = s.txBuf := rfl
@[simp] theorem State.call_txCur (s : State) (c : WireCmd) (p : Phase) : (s.call c p).txCur = s.txCur := rfl
@[simp] theorem State.call_rxBuf (s : State) (c : WireCmd) (p : Phase) : (s.call c p).rxBuf = s.rxBuf := rfl
@[simp] theorem State.call_rxCur (s : State) (c : WireCmd) (p : Phase) : (s.call c p).rxCur = s.rxCur := rfl
@[simp] theorem State.call_ss (s : State) (c : WireCmd) (p : Phase) : (s.call c p).ss = s.ss := rfl
@[simp] theorem State.call_seq_phase (s : State) (c : WireCmd) (p : Phase) : (s.call c p).seq.phase = p := rfl
@[simp] theorem State.call_seq_req (s : State) (c : WireCmd) (p : Phase) : (s.call c p).seq.req = s.seq.req := rfl
@[simp] theorem State.call_seq_txn (s : State) (c : WireCmd) (p : Phase) : (s.call c p).seq.txn = some ⟨c, .startAssert⟩ := rfl
@[simp] theorem State.call_seq_t0 (s : State) (c : WireCmd) (p : Phase) : (s.call c p).seq.t0 = s.seq.t0 := rfl
@[simp] theorem State.call_seq_asm (s : State) (c : WireCmd) (p : Phase) : (s.call c p).seq.asm = [] := rfl
@[simp] theorem State.call_seq_dur (s : State) (c : WireCmd) (p : Phase) : (s.call c p).seq.dur = s.seq.dur := rfl
@[simp] theorem State.call_out (s : State) (c : WireCmd) (p : Phase) : (s.call c p).out = s.out := rfl
@[simp] theorem State.call_trace (s : State) (c : WireCmd) (p : Phase) : (s.call c p).trace = s.trace := rfl
@[simp] theorem State.call_env (s : State) (c : WireCmd) (p : Phase) : (s.call c p).env = s.env := rfl
@[simp] theorem State.call_clkHz (s : State) (c : WireCmd) (p : Phase) : (s.call c p).clkHz = s.clkHz := rfl

/-! #### gotoTxn -/

@[simp] theorem State.gotoTxn_txBuf (s : State) (p : TxnPhase) : (s.gotoTxn p).txBuf = s.txBuf := rfl
@[simp] theorem State.gotoTxn_txCur (s : State) (p : TxnPhase) : (s.gotoTxn p).txCur = s.txCur := rfl
@[simp] theorem State.gotoTxn_rxBuf (s : State) (p : TxnPhase) : (s.gotoTxn p).rxBuf = s.rxBuf := rfl
@[simp] theorem State.gotoTxn_rxCur (s : State) (p : TxnPhase) : (s.gotoTxn p).rxCur = s.rxCur := rfl
@[simp] theorem State.gotoTxn_ss (s : State) (p : TxnPhase) : (s.gotoTxn p).ss = s.ss := rfl
@[simp] theorem State.gotoTxn_seq_phase (s : State) (p : TxnPhase) : (s.gotoTxn p).seq.phase = s.seq.phase := rfl
@[simp] theorem State.gotoTxn_seq_req (s : State) (p : TxnPhase) : (s.gotoTxn p).seq.req = s.seq.req := rfl
@[simp] theorem State.gotoTxn_seq_txn (s : State) (p : TxnPhase) : (s.gotoTxn p).seq.txn = s.seq.txn.map (fun t => { t with sub := p }) := rfl
@[simp] theorem State.gotoTxn_seq_t0 (s : State) (p : TxnPhase) : (s.gotoTxn p).seq.t0 = s.seq.t0 := rfl
@[simp] theorem State.gotoTxn_seq_asm (s : State) (p : TxnPhase) : (s.gotoTxn p).seq.asm = s.seq.asm := rfl
@[simp] theorem State.gotoTxn_seq_dur (s : State) (p : TxnPhase) : (s.gotoTxn p).seq.dur = s.seq.dur := rfl
@[simp] theorem State.gotoTxn_out (s : State) (p : TxnPhase) : (s.gotoTxn p).out = s.out := rfl
@[simp] theorem State.gotoTxn_trace (s : State) (p : TxnPhase) : (s.gotoTxn p).trace = s.trace := rfl
@[simp] theorem State.gotoTxn_env (s : State) (p : TxnPhase) : (s.gotoTxn p).env = s.env := rfl
@[simp] theorem State.gotoTxn_clkHz (s : State) (p : TxnPhase) : (s.gotoTxn p).clkHz = s.clkHz := rfl

/-! #### endTxn -/

@[simp] theorem State.endTxn_txBuf (s : State) : (s.endTxn).txBuf = s.txBuf := rfl
@[simp] theorem State.endTxn_txCur (s : State) : (s.endTxn).txCur = s.txCur := rfl
@[simp] theorem State.endTxn_rxBuf (s : State) : (s.endTxn).rxBuf = s.rxBuf := rfl
@[simp] theorem State.endTxn_rxCur (s : State) : (s.endTxn).rxCur = s.rxCur := rfl
@[simp] theorem State.endTxn_ss (s : State) : (s.endTxn).ss = s.ss := rfl
@[simp] theorem State.endTxn_seq_phase (s : State) : (s.endTxn).seq.phase = s.seq.phase := rfl
@[simp] theorem State.endTxn_seq_req (s : State) : (s.endTxn).seq.req = s.seq.req := rfl
@[simp] theorem State.endTxn_seq_txn (s : State) : (s.endTxn).seq.txn = none := rfl
@[simp] theorem State.endTxn_seq_t0 (s : State) : (s.endTxn).seq.t0 = s.seq.t0 := rfl
@[simp] theorem State.endTxn_seq_asm (s : State) : (s.endTxn).seq.asm = s.seq.asm := rfl
@[simp] theorem State.endTxn_seq_dur (s : State) : (s.endTxn).seq.dur = s.seq.dur := rfl
@[simp] theorem State.endTxn_out (s : State) : (s.endTxn).out = s.out := rfl
@[simp] theorem State.endTxn_trace (s : State) : (s.endTxn).trace = s.trace := rfl
@[simp] theorem State.endTxn_env (s : State) : (s.endTxn).env = s.env := rfl
@[simp] theorem State.endTxn_clkHz (s : State) : (s.endTxn).clkHz = s.clkHz := rfl

/-! #### accept -/

@[simp] theorem State.accept_txBuf (s : State) (q : Req) : (s.accept q).txBuf = s.txBuf := rfl
@[simp] theorem State.accept_txCur (s : State) (q : Req) : (s.accept q).txCur = s.txCur := rfl
@[simp] theorem State.accept_rxBuf (s : State) (q : Req) : (s.accept q).rxBuf = s.rxBuf := rfl
@[simp] theorem State.accept_rxCur (s : State) (q : Req) : (s.accept q).rxCur = s.rxCur := rfl
@[simp] theorem State.accept_ss (s : State) (q : Req) : (s.accept q).ss = s.ss := rfl
@[simp] theorem State.accept_seq_phase (s : State) (q : Req) : (s.accept q).seq.phase = .decode := rfl
@[simp] theorem State.accept_seq_req (s : State) (q : Req) : (s.accept q).seq.req = q := rfl
@[simp] theorem State.accept_seq_txn (s : State) (q : Req) : (s.accept q).seq.txn = none := rfl
@[simp] theorem State.accept_seq_t0 (s : State) (q : Req) : (s.accept q).seq.t0 = s.seq.t0 := rfl
@[simp] theorem State.accept_seq_asm (s : State) (q : Req) : (s.accept q).seq.asm = s.seq.asm := rfl
@[simp] theorem State.accept_seq_dur (s : State) (q : Req) : (s.accept q).seq.dur = s.seq.dur := rfl
@[simp] theorem State.accept_out (s : State) (q : Req) : (s.accept q).out = s.out := rfl
@[simp] theorem State.accept_trace (s : State) (q : Req) : (s.accept q).trace = .req q :: s.trace := rfl
@[simp] theorem State.accept_env (s : State) (q : Req) : (s.accept q).env = s.env := rfl
@[simp] theorem State.accept_clkHz (s : State) (q : Req) : (s.accept q).clkHz = s.clkHz := rfl

/-! #### setDur -/

@[simp] theorem State.setDur_txBuf (s : State) (n : Nat) : (s.setDur n).txBuf = s.txBuf := rfl
@[simp] theorem State.setDur_txCur (s : State) (n : Nat) : (s.setDur n).txCur = s.txCur := rfl
@[simp] theorem State.setDur_rxBuf (s : State) (n : Nat) : (s.setDur n).rxBuf = s.rxBuf := rfl
@[simp] theorem State.setDur_rxCur (s : State) (n : Nat) : (s.setDur n).rxCur = s.rxCur := rfl
@[simp] theorem State.setDur_ss (s : State) (n : Nat) : (s.setDur n).ss = s.ss := rfl
@[simp] theorem State.setDur_seq_phase (s : State) (n : Nat) : (s.setDur n).seq.phase = s.seq.phase := rfl
@[simp] theorem State.setDur_seq_req (s : State) (n : Nat) : (s.setDur n).seq.req = s.seq.req := rfl
@[simp] theorem State.setDur_seq_txn (s : State) (n : Nat) : (s.setDur n).seq.txn = s.seq.txn := rfl
@[simp] theorem State.setDur_seq_t0 (s : State) (n : Nat) : (s.setDur n).seq.t0 = s.seq.t0 := rfl
@[simp] theorem State.setDur_seq_asm (s : State) (n : Nat) : (s.setDur n).seq.asm = s.seq.asm := rfl
@[simp] theorem State.setDur_seq_dur (s : State) (n : Nat) : (s.setDur n).seq.dur = n := rfl
@[simp] theorem State.setDur_out (s : State) (n : Nat) : (s.setDur n).out = s.out := rfl
@[simp] theorem State.setDur_trace (s : State) (n : Nat) : (s.setDur n).trace = s.trace := rfl
@[simp] theorem State.setDur_env (s : State) (n : Nat) : (s.setDur n).env = s.env := rfl
@[simp] theorem State.setDur_clkHz (s : State) (n : Nat) : (s.setDur n).clkHz = s.clkHz := rfl

/-! #### assertSs -/

@[simp] theorem State.assertSs_txBuf (s : State) : (s.assertSs).txBuf = s.txBuf := rfl
@[simp] theorem State.assertSs_txCur (s : State) : (s.assertSs).txCur = s.txCur := rfl
@[simp] theorem State.assertSs_rxBuf (s : State) : (s.assertSs).rxBuf = s.rxBuf := rfl
@[simp] theorem State.assertSs_rxCur (s : State) : (s.assertSs).rxCur = s.rxCur := rfl
@[simp] theorem State.assertSs_ss (s : State) : (s.assertSs).ss = .asserted := rfl
@[simp] theorem State.assertSs_seq_phase (s : State) : (s.assertSs).seq.phase = s.seq.phase := rfl
@[simp] theorem State.assertSs_seq_req (s : State) : (s.assertSs).seq.req = s.seq.req := rfl
@[simp] theorem State.assertSs_seq_txn (s : State) : (s.assertSs).seq.txn = s.seq.txn := rfl
@[simp] theorem State.assertSs_seq_t0 (s : State) : (s.assertSs).seq.t0 = s.seq.t0 := rfl
@[simp] theorem State.assertSs_seq_asm (s : State) : (s.assertSs).seq.asm = s.seq.asm := rfl
@[simp] theorem State.assertSs_seq_dur (s : State) : (s.assertSs).seq.dur = cyclesOf Config.tSsAssert s.clkHz := rfl
@[simp] theorem State.assertSs_out (s : State) : (s.assertSs).out = s.out := rfl
@[simp] theorem State.assertSs_trace (s : State) : (s.assertSs).trace = s.trace := rfl
@[simp] theorem State.assertSs_env (s : State) : (s.assertSs).env = s.env := rfl
@[simp] theorem State.assertSs_clkHz (s : State) : (s.assertSs).clkHz = s.clkHz := rfl

/-! #### startByte -/

@[simp] theorem State.startByte_txBuf (s : State) (m : Byte) : (s.startByte m).txBuf = s.txBuf := rfl
@[simp] theorem State.startByte_txCur (s : State) (m : Byte) : (s.startByte m).txCur = s.txCur := rfl
@[simp] theorem State.startByte_rxBuf (s : State) (m : Byte) : (s.startByte m).rxBuf = s.rxBuf := rfl
@[simp] theorem State.startByte_rxCur (s : State) (m : Byte) : (s.startByte m).rxCur = s.rxCur := rfl
@[simp] theorem State.startByte_ss (s : State) (m : Byte) : (s.startByte m).ss = s.ss := rfl
@[simp] theorem State.startByte_seq (s : State) (m : Byte) : (s.startByte m).seq = s.seq := rfl
@[simp] theorem State.startByte_out_rspValid (s : State) (m : Byte) : (s.startByte m).out.rspValid = s.out.rspValid := rfl
@[simp] theorem State.startByte_out_rsp (s : State) (m : Byte) : (s.startByte m).out.rsp = s.out.rsp := rfl
@[simp] theorem State.startByte_out_sxStart (s : State) (m : Byte) : (s.startByte m).out.sxStart = true := rfl
@[simp] theorem State.startByte_out_sxTx (s : State) (m : Byte) : (s.startByte m).out.sxTx = m := rfl
@[simp] theorem State.startByte_out_yieldO (s : State) (m : Byte) : (s.startByte m).out.yieldO = s.out.yieldO := rfl
@[simp] theorem State.startByte_out_warnO (s : State) (m : Byte) : (s.startByte m).out.warnO = s.out.warnO := rfl
@[simp] theorem State.startByte_out_warnKind (s : State) (m : Byte) : (s.startByte m).out.warnKind = s.out.warnKind := rfl
@[simp] theorem State.startByte_trace (s : State) (m : Byte) : (s.startByte m).trace = s.trace := rfl
@[simp] theorem State.startByte_env (s : State) (m : Byte) : (s.startByte m).env = s.env := rfl
@[simp] theorem State.startByte_clkHz (s : State) (m : Byte) : (s.startByte m).clkHz = s.clkHz := rfl

/-! #### capture -/

@[simp] theorem State.capture_txBuf (s : State) (b : Byte) : (s.capture b).txBuf = s.txBuf := rfl
@[simp] theorem State.capture_txCur (s : State) (b : Byte) : (s.capture b).txCur = s.txCur := rfl
@[simp] theorem State.capture_rxBuf (s : State) (b : Byte) : (s.capture b).rxBuf = s.rxBuf := rfl
@[simp] theorem State.capture_rxCur (s : State) (b : Byte) : (s.capture b).rxCur = s.rxCur := rfl
@[simp] theorem State.capture_ss (s : State) (b : Byte) : (s.capture b).ss = s.ss := rfl
@[simp] theorem State.capture_seq_phase (s : State) (b : Byte) : (s.capture b).seq.phase = s.seq.phase := rfl
@[simp] theorem State.capture_seq_req (s : State) (b : Byte) : (s.capture b).seq.req = s.seq.req := rfl
@[simp] theorem State.capture_seq_txn (s : State) (b : Byte) : (s.capture b).seq.txn = s.seq.txn := rfl
@[simp] theorem State.capture_seq_t0 (s : State) (b : Byte) : (s.capture b).seq.t0 = s.seq.t0 := rfl
@[simp] theorem State.capture_seq_asm (s : State) (b : Byte) : (s.capture b).seq.asm = s.seq.asm ++ [b] := rfl
@[simp] theorem State.capture_seq_dur (s : State) (b : Byte) : (s.capture b).seq.dur = s.seq.dur := rfl
@[simp] theorem State.capture_out (s : State) (b : Byte) : (s.capture b).out = s.out := rfl
@[simp] theorem State.capture_trace (s : State) (b : Byte) : (s.capture b).trace = s.trace := rfl
@[simp] theorem State.capture_env (s : State) (b : Byte) : (s.capture b).env = s.env := rfl
@[simp] theorem State.capture_clkHz (s : State) (b : Byte) : (s.capture b).clkHz = s.clkHz := rfl

/-! #### applyReset -/

@[simp] theorem State.applyReset_txBuf (s : State) : s.applyReset.txBuf = [] := rfl
@[simp] theorem State.applyReset_txCur (s : State) : s.applyReset.txCur = 0 := rfl
@[simp] theorem State.applyReset_rxBuf (s : State) : s.applyReset.rxBuf = [] := rfl
@[simp] theorem State.applyReset_rxCur (s : State) : s.applyReset.rxCur = 0 := rfl
@[simp] theorem State.applyReset_ss (s : State) : s.applyReset.ss = .deasserted := rfl
@[simp] theorem State.applyReset_seq (s : State) : s.applyReset.seq = Sequencer.reset := rfl
@[simp] theorem State.applyReset_out (s : State) : s.applyReset.out = Outputs.reset := rfl
@[simp] theorem State.applyReset_trace (s : State) : s.applyReset.trace = s.trace := rfl
@[simp] theorem State.applyReset_env (s : State) : s.applyReset.env = s.env := rfl
@[simp] theorem State.applyReset_clkHz (s : State) : s.applyReset.clkHz = s.clkHz := rfl

/-! #### sampleRst: only its own script and the count of free draws -/

@[simp] theorem State.sampleRst_txBuf (s : State) : s.sampleRst.2.txBuf = s.txBuf := by
  unfold State.sampleRst; split <;> rfl
@[simp] theorem State.sampleRst_txCur (s : State) : s.sampleRst.2.txCur = s.txCur := by
  unfold State.sampleRst; split <;> rfl
@[simp] theorem State.sampleRst_rxBuf (s : State) : s.sampleRst.2.rxBuf = s.rxBuf := by
  unfold State.sampleRst; split <;> rfl
@[simp] theorem State.sampleRst_rxCur (s : State) : s.sampleRst.2.rxCur = s.rxCur := by
  unfold State.sampleRst; split <;> rfl
@[simp] theorem State.sampleRst_ss (s : State) : s.sampleRst.2.ss = s.ss := by
  unfold State.sampleRst; split <;> rfl
@[simp] theorem State.sampleRst_seq (s : State) : s.sampleRst.2.seq = s.seq := by
  unfold State.sampleRst; split <;> rfl
@[simp] theorem State.sampleRst_out (s : State) : s.sampleRst.2.out = s.out := by
  unfold State.sampleRst; split <;> rfl
@[simp] theorem State.sampleRst_trace (s : State) : s.sampleRst.2.trace = s.trace := by
  unfold State.sampleRst; split <;> rfl
@[simp] theorem State.sampleRst_env_requests (s : State) : s.sampleRst.2.env.requests = s.env.requests := by
  unfold State.sampleRst; split <;> rfl
@[simp] theorem State.sampleRst_env_serial (s : State) : s.sampleRst.2.env.serial = s.env.serial := by
  unfold State.sampleRst; split <;> rfl
@[simp] theorem State.sampleRst_env_timer (s : State) : s.sampleRst.2.env.timer = s.env.timer := by
  unfold State.sampleRst; split <;> rfl
@[simp] theorem State.sampleRst_clkHz (s : State) : s.sampleRst.2.clkHz = s.clkHz := by
  unfold State.sampleRst; split <;> rfl
theorem State.sampleRst_scripted (s : State) (x : Bool) (xs : List (Bool)) (h : s.env.rst = x :: xs) :
    s.sampleRst = (x, { s with env := { s.env with rst := xs } }) := by
  simp [State.sampleRst, h]

/-! #### sampleRequest: only its own script and the count of free draws -/

@[simp] theorem State.sampleRequest_txBuf (s : State) : s.sampleRequest.2.txBuf = s.txBuf := by
  unfold State.sampleRequest; split <;> rfl
@[simp] theorem State.sampleRequest_txCur (s : State) : s.sampleRequest.2.txCur = s.txCur := by
  unfold State.sampleRequest; split <;> rfl
@[simp] theorem State.sampleRequest_rxBuf (s : State) : s.sampleRequest.2.rxBuf = s.rxBuf := by
  unfold State.sampleRequest; split <;> rfl
@[simp] theorem State.sampleRequest_rxCur (s : State) : s.sampleRequest.2.rxCur = s.rxCur := by
  unfold State.sampleRequest; split <;> rfl
@[simp] theorem State.sampleRequest_ss (s : State) : s.sampleRequest.2.ss = s.ss := by
  unfold State.sampleRequest; split <;> rfl
@[simp] theorem State.sampleRequest_seq (s : State) : s.sampleRequest.2.seq = s.seq := by
  unfold State.sampleRequest; split <;> rfl
@[simp] theorem State.sampleRequest_out (s : State) : s.sampleRequest.2.out = s.out := by
  unfold State.sampleRequest; split <;> rfl
@[simp] theorem State.sampleRequest_trace (s : State) : s.sampleRequest.2.trace = s.trace := by
  unfold State.sampleRequest; split <;> rfl
@[simp] theorem State.sampleRequest_env_rst (s : State) : s.sampleRequest.2.env.rst = s.env.rst := by
  unfold State.sampleRequest; split <;> rfl
@[simp] theorem State.sampleRequest_env_serial (s : State) : s.sampleRequest.2.env.serial = s.env.serial := by
  unfold State.sampleRequest; split <;> rfl
@[simp] theorem State.sampleRequest_env_timer (s : State) : s.sampleRequest.2.env.timer = s.env.timer := by
  unfold State.sampleRequest; split <;> rfl
@[simp] theorem State.sampleRequest_clkHz (s : State) : s.sampleRequest.2.clkHz = s.clkHz := by
  unfold State.sampleRequest; split <;> rfl
theorem State.sampleRequest_scripted (s : State) (x : Option Req) (xs : List (Option Req)) (h : s.env.requests = x :: xs) :
    s.sampleRequest = (x, { s with env := { s.env with requests := xs } }) := by
  simp [State.sampleRequest, h]

/-! #### sampleSerial: only its own script and the count of free draws -/

@[simp] theorem State.sampleSerial_txBuf (s : State) : s.sampleSerial.2.txBuf = s.txBuf := by
  unfold State.sampleSerial; split <;> rfl
@[simp] theorem State.sampleSerial_txCur (s : State) : s.sampleSerial.2.txCur = s.txCur := by
  unfold State.sampleSerial; split <;> rfl
@[simp] theorem State.sampleSerial_rxBuf (s : State) : s.sampleSerial.2.rxBuf = s.rxBuf := by
  unfold State.sampleSerial; split <;> rfl
@[simp] theorem State.sampleSerial_rxCur (s : State) : s.sampleSerial.2.rxCur = s.rxCur := by
  unfold State.sampleSerial; split <;> rfl
@[simp] theorem State.sampleSerial_ss (s : State) : s.sampleSerial.2.ss = s.ss := by
  unfold State.sampleSerial; split <;> rfl
@[simp] theorem State.sampleSerial_seq (s : State) : s.sampleSerial.2.seq = s.seq := by
  unfold State.sampleSerial; split <;> rfl
@[simp] theorem State.sampleSerial_out (s : State) : s.sampleSerial.2.out = s.out := by
  unfold State.sampleSerial; split <;> rfl
@[simp] theorem State.sampleSerial_trace (s : State) : s.sampleSerial.2.trace = s.trace := by
  unfold State.sampleSerial; split <;> rfl
@[simp] theorem State.sampleSerial_env_rst (s : State) : s.sampleSerial.2.env.rst = s.env.rst := by
  unfold State.sampleSerial; split <;> rfl
@[simp] theorem State.sampleSerial_env_requests (s : State) : s.sampleSerial.2.env.requests = s.env.requests := by
  unfold State.sampleSerial; split <;> rfl
@[simp] theorem State.sampleSerial_env_timer (s : State) : s.sampleSerial.2.env.timer = s.env.timer := by
  unfold State.sampleSerial; split <;> rfl
@[simp] theorem State.sampleSerial_clkHz (s : State) : s.sampleSerial.2.clkHz = s.clkHz := by
  unfold State.sampleSerial; split <;> rfl
theorem State.sampleSerial_scripted (s : State) (x : Option Byte) (xs : List (Option Byte)) (h : s.env.serial = x :: xs) :
    s.sampleSerial = (x, { s with env := { s.env with serial := xs } }) := by
  simp [State.sampleSerial, h]

/-! #### sampleTimer: only its own script and the count of free draws -/

@[simp] theorem State.sampleTimer_txBuf (s : State) : s.sampleTimer.2.txBuf = s.txBuf := by
  unfold State.sampleTimer; split <;> rfl
@[simp] theorem State.sampleTimer_txCur (s : State) : s.sampleTimer.2.txCur = s.txCur := by
  unfold State.sampleTimer; split <;> rfl
@[simp] theorem State.sampleTimer_rxBuf (s : State) : s.sampleTimer.2.rxBuf = s.rxBuf := by
  unfold State.sampleTimer; split <;> rfl
@[simp] theorem State.sampleTimer_rxCur (s : State) : s.sampleTimer.2.rxCur = s.rxCur := by
  unfold State.sampleTimer; split <;> rfl
@[simp] theorem State.sampleTimer_ss (s : State) : s.sampleTimer.2.ss = s.ss := by
  unfold State.sampleTimer; split <;> rfl
@[simp] theorem State.sampleTimer_seq (s : State) : s.sampleTimer.2.seq = s.seq := by
  unfold State.sampleTimer; split <;> rfl
@[simp] theorem State.sampleTimer_out (s : State) : s.sampleTimer.2.out = s.out := by
  unfold State.sampleTimer; split <;> rfl
@[simp] theorem State.sampleTimer_trace (s : State) : s.sampleTimer.2.trace = s.trace := by
  unfold State.sampleTimer; split <;> rfl
@[simp] theorem State.sampleTimer_env_rst (s : State) : s.sampleTimer.2.env.rst = s.env.rst := by
  unfold State.sampleTimer; split <;> rfl
@[simp] theorem State.sampleTimer_env_requests (s : State) : s.sampleTimer.2.env.requests = s.env.requests := by
  unfold State.sampleTimer; split <;> rfl
@[simp] theorem State.sampleTimer_env_serial (s : State) : s.sampleTimer.2.env.serial = s.env.serial := by
  unfold State.sampleTimer; split <;> rfl
@[simp] theorem State.sampleTimer_clkHz (s : State) : s.sampleTimer.2.clkHz = s.clkHz := by
  unfold State.sampleTimer; split <;> rfl
theorem State.sampleTimer_scripted (s : State) (x : Ms) (xs : List (Ms)) (h : s.env.timer = x :: xs) :
    s.sampleTimer = (x, { s with env := { s.env with timer := xs } }) := by
  simp [State.sampleTimer, h]

/-! #### now -/

@[simp] theorem State.now_value (s : State) : s.now.1 = s.sampleTimer.1 := rfl
@[simp] theorem State.now_txBuf (s : State) : s.now.2.txBuf = s.txBuf := State.sampleTimer_txBuf s
@[simp] theorem State.now_txCur (s : State) : s.now.2.txCur = s.txCur := State.sampleTimer_txCur s
@[simp] theorem State.now_rxBuf (s : State) : s.now.2.rxBuf = s.rxBuf := State.sampleTimer_rxBuf s
@[simp] theorem State.now_rxCur (s : State) : s.now.2.rxCur = s.rxCur := State.sampleTimer_rxCur s
@[simp] theorem State.now_ss (s : State) : s.now.2.ss = s.ss := State.sampleTimer_ss s
@[simp] theorem State.now_seq (s : State) : s.now.2.seq = s.seq := State.sampleTimer_seq s
@[simp] theorem State.now_out (s : State) : s.now.2.out = s.out := State.sampleTimer_out s
@[simp] theorem State.now_trace (s : State) : s.now.2.trace = .now s.sampleTimer.1 :: s.trace := by
  simp [State.now]
@[simp] theorem State.now_env_rst (s : State) : s.now.2.env.rst = s.env.rst := State.sampleTimer_env_rst s
@[simp] theorem State.now_env_requests (s : State) : s.now.2.env.requests = s.env.requests := State.sampleTimer_env_requests s
@[simp] theorem State.now_env_serial (s : State) : s.now.2.env.serial = s.env.serial := State.sampleTimer_env_serial s
@[simp] theorem State.now_clkHz (s : State) : s.now.2.clkHz = s.clkHz := State.sampleTimer_clkHz s

end Sys2Proof.Machine
end

