-- ==== Sys2Proof/Laws/Control.lean ====
section
/-! SUPPORT. What each shared operation of the meanings can do: one lemma an operation, cited instead of unfolding it. -/

namespace Sys2Proof.Machine

/-! ### Going on after a buffer access -/

theorem andThen_next {α : Type} {r : Except Fault α} {k : α → Outcome} {t : State}
    (h : andThen r k = .next t) : ∃ a, r = .ok a ∧ k a = .next t := by
  cases r with
  | ok a => exact ⟨a, rfl, h⟩
  | error f => simp [andThen] at h

@[simp] theorem andThen_ok {α : Type} (a : α) (k : α → Outcome) : andThen (.ok a) k = k a := rfl

@[simp] theorem andThen_error {α : Type} (f : Fault) (k : α → Outcome) :
    andThen (.error f) k = .fault f := rfl

/-! ### The ready-polling loop (R142) -/

/-- What one place of the loop does. -/
theorem waitReady_cases (sel : Sel) (budget : Nat) (here : WaitAt → Phase) (back : BitVec 4 → Phase)
    (p : WaitAt) (s : State) :
    (p = .sampleT0 ∧ waitReady sel budget here back p s =
      (s.now.2.setT0 s.now.1).call .readStatus (here .test)) ∨
    (p = .test ∧ lastField sel s = sel.ready ∧ waitReady sel budget here back p s =
      s.goto (back (lastField sel s))) ∨
    (p = .test ∧ lastField sel s ≠ sel.ready ∧ expired s.seq.t0 s.now.1 budget = true ∧
      waitReady sel budget here back p s = s.now.2.goto (here .warn)) ∨
    (p = .test ∧ lastField sel s ≠ sel.ready ∧ expired s.seq.t0 s.now.1 budget = false ∧
      waitReady sel budget here back p s = s.now.2.goto (here .yieldNext)) ∨
    (p = .warn ∧ waitReady sel budget here back p s = (s.warn sel.kind).goto (back (lastField sel s))) ∨
    (p = .yieldNext ∧ waitReady sel budget here back p s = s.yieldNow.call .readStatus (here .test)) := by
  cases p with
  | sampleT0 => exact .inl ⟨rfl, rfl⟩
  | test =>
    by_cases h : lastField sel s = sel.ready
    · exact .inr (.inl ⟨rfl, h, by simp [waitReady, h]⟩)
    · cases e : expired s.seq.t0 s.now.1 budget
      · exact .inr (.inr (.inr (.inl ⟨rfl, h, rfl, by
          simp only [waitReady, if_neg h, e, Bool.false_eq_true, if_false]⟩)))
      · exact .inr (.inr (.inl ⟨rfl, h, rfl, by simp only [waitReady, if_neg h, e, if_true]⟩))
  | warn => exact .inr (.inr (.inr (.inr (.inl ⟨rfl, rfl⟩))))
  | yieldNext => exact .inr (.inr (.inr (.inr (.inr ⟨rfl, rfl⟩))))

/-! ### Pulses (R111, R112, R244) -/

/-- One cycle of a hold either goes on counting or is its last. -/
theorem State.hold_cases (s : State) (done : State → State) :
    (s.seq.dur ≤ 1 ∧ s.hold done = done s) ∨
      (1 < s.seq.dur ∧ s.hold done = s.setDur (s.seq.dur - 1)) := by
  by_cases h : s.seq.dur ≤ 1
  · exact .inl ⟨h, by simp [State.hold, h]⟩
  · exact .inr ⟨by omega, by simp [State.hold, h]⟩

/-- What an edge of the start pulse's assertion does. -/
theorem State.startAssertStep_cases (s : State) :
    (s.ss = .deasserted ∧ s.startAssertStep = s.assertSs) ∨
    (s.ss = .asserted ∧ s.seq.dur ≤ 1 ∧ s.startAssertStep =
      ((s.setSs .deasserted).setDur (cyclesOf Config.tSsGap s.clkHz)).gotoTxn .startGap) ∨
    (s.ss = .asserted ∧ 1 < s.seq.dur ∧ s.startAssertStep = s.setDur (s.seq.dur - 1)) := by
  unfold State.startAssertStep
  cases h : s.ss with
  | deasserted => exact .inl ⟨rfl, rfl⟩
  | asserted =>
    rcases State.hold_cases s (fun u =>
      ((u.setSs .deasserted).setDur (cyclesOf Config.tSsGap u.clkHz)).gotoTxn .startGap) with ⟨h1, h2⟩ | ⟨h1, h2⟩
    · exact .inr (.inl ⟨rfl, h1, h2⟩)
    · exact .inr (.inr ⟨rfl, h1, h2⟩)

/-- What an edge of the start pulse's gap does. -/
theorem State.startGapStep_cases (s : State) :
    (s.seq.dur ≤ 1 ∧ s.startGapStep = (s.emit .start).gotoTxn (.body 0 false)) ∨
      (1 < s.seq.dur ∧ s.startGapStep = s.setDur (s.seq.dur - 1)) :=
  State.hold_cases s _

/-- What an edge of the end pulse does. -/
theorem State.endAssertStep_cases (s : State) :
    (s.ss = .deasserted ∧ s.endAssertStep = s.assertSs) ∨
    (s.ss = .asserted ∧ s.seq.dur ≤ 1 ∧ s.endAssertStep = ((s.setSs .deasserted).emit .stop).endTxn) ∨
    (s.ss = .asserted ∧ 1 < s.seq.dur ∧ s.endAssertStep = s.setDur (s.seq.dur - 1)) := by
  unfold State.endAssertStep
  cases h : s.ss with
  | deasserted => exact .inl ⟨rfl, rfl⟩
  | asserted =>
    rcases State.hold_cases s (fun u => ((u.setSs .deasserted).emit .stop).endTxn) with ⟨h1, h2⟩ | ⟨h1, h2⟩
    · exact .inr (.inl ⟨rfl, h1, h2⟩)
    · exact .inr (.inr ⟨rfl, h1, h2⟩)

/-! ### Byte exchanges (R39, R113) -/

/-- What an edge of an exchange does: start it, wait for the serializer, or end it. -/
theorem State.byteStep_cases (s : State) (m : Byte) (captured : Bool) (k n : Nat) (sent : Bool) :
    (sent = false ∧ s.byteStep m captured k n sent = (s.startByte m).gotoTxn (.body k true)) ∨
    (sent = true ∧ s.sampleSerial.1 = none ∧ s.byteStep m captured k n sent = s.sampleSerial.2) ∨
    (∃ b, sent = true ∧ s.sampleSerial.1 = some b ∧
      s.byteStep m captured k n sent = s.sampleSerial.2.finishByte m b captured (afterByte k n)) := by
  cases sent with
  | false => exact .inl ⟨rfl, rfl⟩
  | true =>
    cases h : s.sampleSerial with
    | mk a u =>
      cases a with
      | none => exact .inr (.inl ⟨rfl, rfl, by simp [State.byteStep, h]⟩)
      | some b => exact .inr (.inr ⟨b, rfl, rfl, by simp [State.byteStep, h]⟩)

/-- What the end of an exchange leaves: the event, the capture, the next sub-phase. -/
theorem State.finishByte_eq (s : State) (m b : Byte) (captured : Bool) (next : TxnPhase) :
    s.finishByte m b captured next =
      { s with
        seq := { s.seq with
          asm := if captured then s.seq.asm ++ [b] else s.seq.asm
          txn := s.seq.txn.map (fun t => { t with sub := next }) }
        trace := .x m b :: s.trace } := by
  cases captured <;> rfl

/-- Everything a wire command can do at an edge: it has a transaction in flight, and does the edge of its
sub-phase. -/
theorem txnStep_next {body : List Byte} {capFrom : Nat} {s t : State} (h : txnStep body capFrom s = .next t) :
    ∃ x, s.seq.txn = some x ∧
      ((x.sub = .startAssert ∧ t = s.startAssertStep) ∨ (x.sub = .startGap ∧ t = s.startGapStep) ∨
        (∃ k sent m, x.sub = .body k sent ∧ body[k]? = some m ∧
          t = s.byteStep m (decide (capFrom ≤ k)) k body.length sent) ∨
        (x.sub = .endAssert ∧ t = s.endAssertStep)) := by
  unfold txnStep at h
  split at h
  · cases h
  · rename_i x hx
    refine ⟨x, hx, ?_⟩
    split at h
    · rename_i e; cases h; exact .inl ⟨e, rfl⟩
    · rename_i e; cases h; exact .inr (.inl ⟨e, rfl⟩)
    · rename_i k sent e
      split at h
      · cases h
      · rename_i m hm; cases h; exact .inr (.inr (.inl ⟨k, sent, m, e, hm, rfl⟩))
    · rename_i e; cases h; exact .inr (.inr (.inr ⟨e, rfl⟩))

/-! ### The operations' shared steps -/

/-- Everything a raw operation can do. -/
theorem rawStep_next {c : WireCmd} {result : List Byte → Rsp} {s t : State} (h : rawStep c result s = .next t) :
    (s.seq.phase = .decode ∧ t = s.call c (.respond .collect)) ∨
      (s.seq.phase = .respond .collect ∧ t = s.respond (result s.seq.asm)) := by
  unfold rawStep at h
  split at h
  · rename_i e; cases h; exact .inl ⟨e, rfl⟩
  · rename_i e; cases h; exact .inr ⟨e, rfl⟩
  · cases h

/-- Everything a consumer wait can do. -/
theorem consumerWait_next {sel : Sel} {timeout : BitVec 16} {s t : State}
    (h : consumerWait sel timeout s = .next t) :
    (s.seq.phase = .decode ∧ t = s.goto (.waitLoop .sampleT0)) ∨
    (∃ p, s.seq.phase = .waitLoop p ∧ t = waitReady sel (budgetOf timeout) .waitLoop
      (fun f => .respond (.send (fieldResponse f))) p s) ∨
    (∃ r, s.seq.phase = .respond (.send r) ∧ t = s.respond r) := by
  unfold consumerWait at h
  split at h
  · rename_i e; cases h; exact .inl ⟨e, rfl⟩
  · rename_i p e; cases h; exact .inr (.inl ⟨p, e, rfl⟩)
  · rename_i r e; cases h; exact .inr (.inr ⟨r, e, rfl⟩)
  · cases h

/-- Everything FLUSH_SEND can do. -/
theorem flushSend_next {ind : Byte} {back : Phase} {p : SendAt} {s t : State}
    (h : flushSend ind back p s = .next t) :
    (p = .issue ∧ ∃ pending, s.readTxMany 0 s.txCur = .ok pending ∧
      t = s.call (.writeData (payloadOf (muxPayload ind pending) (1 + s.txCur))) (.flushSend .clear)) ∨
    (p = .clear ∧ t = (s.setTxCur 0).goto back) := by
  cases p with
  | issue =>
    obtain ⟨pending, h1, h2⟩ := andThen_next h
    cases h2
    exact .inl ⟨rfl, pending, h1, rfl⟩
  | clear => cases h; exact .inr ⟨rfl, rfl⟩

/-- Everything ContinueFetch can do after its wait. -/
theorem contFetch_next {p : FetchAt} {s t : State} (h : contFetch p s = .next t) :
    (p = .issue ∧ t = s.call .readData (.rxContFetch .store)) ∨
    (p = .store ∧ s.seq.asm.length = 32 ∧
      t = ({ s with rxBuf := s.rxBuf.writeAll 0 s.seq.asm }).goto (.rxContFetch .setCur)) ∨
    (p = .setCur ∧ t = (s.setRxCur 1).goto (.respond .deliver)) := by
  cases p with
  | issue => cases h; exact .inl ⟨rfl, rfl⟩
  | store =>
    obtain ⟨u, h1, h2⟩ := andThen_next h
    obtain ⟨h3, h4⟩ := (State.writeRx_ok s u s.seq.asm).mp h1
    cases h2
    exact .inr (.inl ⟨rfl, h3, by rw [h4]⟩)
  | setCur => cases h; exact .inr (.inr ⟨rfl, rfl⟩)

/-- Everything the frame poll can do. -/
theorem pollFrame_next {p : PollAt} {s t : State} (h : pollFrame p s = .next t) :
    (p = .sampleT0 ∧ t = (s.now.2.setT0 s.now.1).call .readData (.rxPoll .store)) ∨
    (p = .store ∧ s.seq.asm.length = 32 ∧ ∃ ind, s.seq.asm.head? = some ind ∧
      t = ({ s with rxBuf := s.rxBuf.writeAll 0 s.seq.asm }).goto
        (.rxPoll (if validIndicator ind then .setCur else .expire))) ∨
    (p = .setCur ∧ t = (s.setRxCur 1).goto (.respond .deliver)) ∨
    (p = .expire ∧ t = s.now.2.goto
      (if expired s.seq.t0 s.now.1 Config.tRxPoll then .respond (.send (byteResponse Config.sentinel))
       else .rxPoll .yieldNext)) ∨
    (p = .yieldNext ∧ t = s.yieldNow.call .readData (.rxPoll .store)) := by
  cases p with
  | sampleT0 => cases h; exact .inl ⟨rfl, rfl⟩
  | store =>
    obtain ⟨u, h1, h2⟩ := andThen_next h
    obtain ⟨ind, h3, h4⟩ := andThen_next h2
    obtain ⟨h5, h6⟩ := (State.writeRx_ok s u s.seq.asm).mp h1
    have h7 := ((Mem.fetch_ok _ _ _ _).mp h3).2
    cases h4
    refine .inr (.inl ⟨rfl, h5, ind, ?_, by rw [h6]⟩)
    rw [h6] at h7
    simp only [Mem.read_writeAll] at h7
    have h8 : s.seq.asm.length = 32 := h5
    rw [if_pos ⟨le_rfl, by omega⟩] at h7
    simpa [List.head?_eq_getElem?] using h7
  | setCur => cases h; exact .inr (.inr (.inl ⟨rfl, rfl⟩))
  | expire => cases h; exact .inr (.inr (.inr (.inl ⟨rfl, rfl⟩)))
  | yieldNext => cases h; exact .inr (.inr (.inr (.inr ⟨rfl, rfl⟩)))

/-- Everything READ_BYTE can do at DECODE. -/
theorem readDecode_next {s t : State} (h : readDecode s = .next t) :
    (s.rxCur = 32 ∧ ∃ ind, s.rxBuf.read 0 = some ind ∧ t = (s.setTxCur 0).goto
      (if ind = Config.indContinues then .rxContWait .sampleT0
       else .respond (.send (byteResponse Config.sentinel)))) ∨
    (s.rxCur = 0 ∧ t = (s.setTxCur 0).goto (.rxPoll .sampleT0)) ∨
    (s.rxCur ≠ 32 ∧ s.rxCur ≠ 0 ∧ t = (s.setTxCur 0).goto (.respond .deliver)) := by
  unfold readDecode at h
  split at h
  · rename_i e
    obtain ⟨ind, h1, h2⟩ := andThen_next h
    cases h2
    exact .inl ⟨e, ind, ((Mem.fetch_ok _ _ _ _).mp h1).2, rfl⟩
  · rename_i e
    split at h
    · rename_i e2; cases h; exact .inr (.inl ⟨e2, rfl⟩)
    · rename_i e2; cases h; exact .inr (.inr ⟨e, e2, rfl⟩)

/-- Everything READ_BYTE's tail can do. -/
theorem deliverByte_next {s t : State} (h : deliverByte s = .next t) :
    ∃ r, s.rxCur < 32 ∧ s.rxBuf.read s.rxCur = some r ∧
      t = (s.setRxCur (s.rxCur + 1)).goto (.respond (.send (byteResponse r))) := by
  obtain ⟨r, h1, h2⟩ := andThen_next h
  cases h2
  exact ⟨r, ((Mem.fetch_ok _ _ _ _).mp h1).1, ((Mem.fetch_ok _ _ _ _).mp h1).2, rfl⟩

/-- Everything WRITE_BYTE can do. -/
theorem execWriteByte_next {b : Byte} {s t : State} (h : execWriteByte b s = .next t) :
    (s.seq.phase = .decode ∧ t = writeDecode s) ∨
    (∃ p, s.seq.phase = .waitLoop p ∧ t = flushWait p s) ∨
    (∃ p, s.seq.phase = .flushSend p ∧ flushSend Config.indContinues (.respond .append) p s = .next t) ∨
    (s.seq.phase = .respond .append ∧ s.txCur < 31 ∧
      t = ({ s with txBuf := s.txBuf.write s.txCur b }).goto (.respond .advance)) ∨
    (s.seq.phase = .respond .advance ∧ t = (s.setTxCur (s.txCur + 1)).goto (.respond (.send Rsp.ack))) ∨
    (∃ r, s.seq.phase = .respond (.send r) ∧ t = s.respond r) := by
  unfold execWriteByte at h
  split at h
  · rename_i e; cases h; exact .inl ⟨e, rfl⟩
  · rename_i p e; cases h; exact .inr (.inl ⟨p, e, rfl⟩)
  · rename_i p e; exact .inr (.inr (.inl ⟨p, e, h⟩))
  · rename_i e
    obtain ⟨u, h1, h2⟩ := andThen_next h
    obtain ⟨h3, h4⟩ := (State.writeTx_ok s u s.txCur b).mp h1
    cases h2
    exact .inr (.inr (.inr (.inl ⟨e, h3, by rw [h4]⟩)))
  · rename_i e; cases h; exact .inr (.inr (.inr (.inr (.inl ⟨e, rfl⟩))))
  · rename_i r e; cases h; exact .inr (.inr (.inr (.inr (.inr ⟨r, e, rfl⟩))))
  · cases h

/-- Everything a flush operation can do. -/
theorem flushOp_next {ind : Byte} {s t : State} (h : flushOp ind s = .next t) :
    (s.seq.phase = .decode ∧ t = if s.txCur = 0 then s.respond Rsp.ack else s.goto (.waitLoop .sampleT0)) ∨
    (∃ p, s.seq.phase = .waitLoop p ∧ t = flushWait p s) ∨
    (∃ p, s.seq.phase = .flushSend p ∧ flushSend ind (.respond (.send Rsp.ack)) p s = .next t) ∨
    (∃ r, s.seq.phase = .respond (.send r) ∧ t = s.respond r) := by
  unfold flushOp at h
  split at h
  · rename_i e; cases h; exact .inl ⟨e, rfl⟩
  · rename_i p e; cases h; exact .inr (.inl ⟨p, e, rfl⟩)
  · rename_i p e; exact .inr (.inr (.inl ⟨p, e, h⟩))
  · rename_i r e; cases h; exact .inr (.inr (.inr ⟨r, e, rfl⟩))
  · cases h

/-- Everything READ_BYTE can do. -/
theorem execReadByte_next {s t : State} (h : execReadByte s = .next t) :
    (s.seq.phase = .decode ∧ readDecode s = .next t) ∨
    (∃ p, s.seq.phase = .rxContWait p ∧ t = waitReady .tx Config.tReady .rxContWait
      (fun _ => .rxContFetch .issue) p s) ∨
    (∃ p, s.seq.phase = .rxContFetch p ∧ contFetch p s = .next t) ∨
    (∃ p, s.seq.phase = .rxPoll p ∧ pollFrame p s = .next t) ∨
    (s.seq.phase = .respond .deliver ∧ deliverByte s = .next t) ∨
    (∃ r, s.seq.phase = .respond (.send r) ∧ t = s.respond r) := by
  unfold execReadByte at h
  split at h
  · rename_i e; exact .inl ⟨e, h⟩
  · rename_i p e; cases h; exact .inr (.inl ⟨p, e, rfl⟩)
  · rename_i p e; exact .inr (.inr (.inl ⟨p, e, h⟩))
  · rename_i p e; exact .inr (.inr (.inr (.inl ⟨p, e, h⟩)))
  · rename_i e; exact .inr (.inr (.inr (.inr (.inl ⟨e, h⟩))))
  · rename_i r e; cases h; exact .inr (.inr (.inr (.inr (.inr ⟨r, e, rfl⟩))))
  · cases h

/-- Everything a reserved code can do. -/
theorem illegalStep_next {s t : State} (h : illegalStep s = .next t) :
    s.seq.phase = .decode ∧ t = s.raiseIllegalOp := by
  unfold illegalStep at h
  split at h
  · rename_i e; cases h; exact ⟨e, rfl⟩
  · cases h

/-- Everything AVAIL can do. -/
theorem execAvail_next {s t : State} (h : execAvail s = .next t) :
    s.seq.phase = .decode ∧ t = s.respond (availResponse s.rxCur) := by
  unfold execAvail at h
  split at h
  · rename_i e; cases h; exact ⟨e, rfl⟩
  · cases h

/-! ### The clock edge -/

/-- Everything an edge can find to do. -/
theorem State.fetch_cases (s : State) :
    (s.sampleRst.1 = true ∧ s.fetch = .quiet s.sampleRst.2.applyReset) ∨
    (s.sampleRst.1 = false ∧ s.seq.phase = .idle ∧
      s.sampleRst.2.clearPulses.sampleRequest.1 = none ∧
      s.fetch = .quiet s.sampleRst.2.clearPulses.sampleRequest.2) ∨
    (∃ q, s.sampleRst.1 = false ∧ s.seq.phase = .idle ∧
      s.sampleRst.2.clearPulses.sampleRequest.1 = some q ∧
      s.fetch = .quiet (s.sampleRst.2.clearPulses.sampleRequest.2.accept q)) ∨
    (s.sampleRst.1 = false ∧ s.seq.phase ≠ .idle ∧
      s.fetch = .run s.inFlight s.sampleRst.2.clearPulses) := by
  have hp : s.sampleRst.2.clearPulses.seq = s.seq := by simp
  unfold State.fetch
  cases h : s.sampleRst with
  | mk b u =>
    rw [h] at hp
    cases b with
    | true => exact .inl ⟨rfl, rfl⟩
    | false =>
      simp only [State.fetchLive]
      by_cases hi : u.clearPulses.seq.phase = .idle
      · rw [hi]
        have hi' : s.seq.phase = .idle := by rw [← hp]; exact hi
        cases hr : u.clearPulses.sampleRequest with
        | mk a v =>
          cases a with
          | none => exact .inr (.inl ⟨by simp, hi', by simp, by simp [State.fetchIdle, hr]⟩)
          | some q => exact .inr (.inr (.inl ⟨q, by simp, hi', by simp, by simp [State.fetchIdle, hr]⟩))
      · refine .inr (.inr (.inr ⟨by simp, by rw [← hp]; exact hi, ?_⟩))
        have hf : u.clearPulses.inFlight = s.inFlight := by simp only [State.inFlight, hp]
        rw [← hf]
        split
        · rename_i e; exact absurd e hi
        · rfl

end Sys2Proof.Machine
end

