-- ==== Sys2Proof/Laws/Edge.lean ====
section
/-! SUPPORT. Every edge of a consumer operation has one of eleven forms; a wire command's edge is txnStep; which instructions requests decode to. -/

namespace Sys2Proof.Machine

/-- The forms of an edge of a consumer operation. -/
inductive OpEdge (s : State) : State → Prop where
  | respond (r : Rsp) : OpEdge s (s.respond r)
  | goto (p : Phase) (busy : p ≠ .idle) : OpEdge s (s.goto p)
  | call (c : WireCmd) (p : Phase) (wf : cmdWf c) (busy : p ≠ .idle) : OpEdge s (s.call c p)
  | sample (p : Phase) (busy : p ≠ .idle) : OpEdge s (s.now.2.goto p)
  | loop (c : WireCmd) (p : Phase) (wf : cmdWf c)
      (at' : s.seq.phase = .waitLoop .sampleT0 ∨ s.seq.phase = .rxContWait .sampleT0 ∨
        s.seq.phase = .rxPoll .sampleT0) (busy : p ≠ .idle) : OpEdge s ((s.now.2.setT0 s.now.1).call c p)
  | warn (k : BitVec 1) (p : Phase) (busy : p ≠ .idle) : OpEdge s ((s.warn k).goto p)
  | again (c : WireCmd) (p : Phase) (wf : cmdWf c) (busy : p ≠ .idle) : OpEdge s (s.yieldNow.call c p)
  | setTxCur (n : Nat) (p : Phase) (busy : p ≠ .idle) : OpEdge s ((s.setTxCur n).goto p)
  | setRxCur (n : Nat) (p : Phase) (busy : p ≠ .idle) : OpEdge s ((s.setRxCur n).goto p)
  | store (p : Phase) (at' : s.seq.phase = .rxContFetch .store ∨ s.seq.phase = .rxPoll .store)
      (len : s.seq.asm.length = 32) (busy : p ≠ .idle) :
      OpEdge s (({ s with rxBuf := s.rxBuf.writeAll 0 s.seq.asm }).goto p)
  | append (b : Byte) (p : Phase) (at' : s.seq.phase = .respond .append) (room : s.txCur < 31) (busy : p ≠ .idle) :
      OpEdge s (({ s with txBuf := s.txBuf.write s.txCur b }).goto p)

/-- Only a response ends an operation: any other edge leaves the block busy. -/
theorem OpEdge.idle {s t : State} (h : OpEdge s t) (idle : t.seq.phase = .idle) : ∃ r, t = s.respond r := by
  cases h with
  | respond r => exact ⟨r, rfl⟩
  | goto p busy => exact absurd idle busy
  | call c p wf busy => exact absurd idle busy
  | sample p busy => exact absurd idle busy
  | loop c p wf at' busy => exact absurd idle busy
  | warn k p busy => exact absurd idle busy
  | again c p wf busy => exact absurd idle busy
  | setTxCur n p busy => exact absurd idle busy
  | setRxCur n p busy => exact absurd idle busy
  | store p at' len busy => exact absurd idle busy
  | append b p at' room busy => exact absurd idle busy

theorem waitReady_edge {sel : Sel} {budget : Nat} {here : WaitAt → Phase} {back : BitVec 4 → Phase}
    {p : WaitAt} {s : State} (h : s.seq.phase = here p)
    (at' : here = .waitLoop ∨ here = .rxContWait) (ends : ∀ f, back f ≠ .idle) : OpEdge s (waitReady sel budget here back p s) := by
  have stays (q : WaitAt) : here q ≠ .idle := by rcases at' with rfl | rfl <;> simp
  rcases waitReady_cases sel budget here back p s with
    ⟨e, q⟩ | ⟨-, -, q⟩ | ⟨-, -, -, q⟩ | ⟨-, -, -, q⟩ | ⟨-, q⟩ | ⟨-, q⟩ <;> rw [q]
  · refine .loop _ _ trivial ?_ (stays _)
    subst e
    rcases at' with e | e <;> subst e
    · exact .inl h
    · exact .inr (.inl h)
  · exact .goto _ (ends _)
  · exact .sample _ (stays _)
  · exact .sample _ (stays _)
  · exact .warn _ _ (ends _)
  · exact .again _ _ trivial (stays _)

theorem rawStep_edge {c : WireCmd} {result : List Byte → Rsp} {s t : State} (wf : cmdWf c)
    (h : rawStep c result s = .next t) : OpEdge s t := by
  rcases rawStep_next h with ⟨-, rfl⟩ | ⟨-, rfl⟩
  · exact .call _ _ wf (by simp)
  · exact .respond _

theorem consumerWait_edge {sel : Sel} {timeout : BitVec 16} {s t : State}
    (h : consumerWait sel timeout s = .next t) : OpEdge s t := by
  rcases consumerWait_next h with ⟨-, rfl⟩ | ⟨p, e, rfl⟩ | ⟨r, -, rfl⟩
  · exact .goto _ (by simp)
  · exact waitReady_edge e (.inl rfl) (by simp)
  · exact .respond _

theorem flushSend_edge {ind : Byte} {back : Phase} {p : SendAt} {s t : State}
    (h : flushSend ind back p s = .next t) (ends : back ≠ .idle) : OpEdge s t := by
  rcases flushSend_next h with ⟨-, pending, -, rfl⟩ | ⟨-, rfl⟩
  · exact .call _ _ (payloadOf_length _ _) (by simp)
  · exact .setTxCur _ _ ends

theorem flushOp_edge {ind : Byte} {s t : State} (h : flushOp ind s = .next t) : OpEdge s t := by
  rcases flushOp_next h with ⟨-, rfl⟩ | ⟨p, e, rfl⟩ | ⟨p, -, h⟩ | ⟨r, -, rfl⟩
  · split
    · exact .respond _
    · exact .goto _ (by simp)
  · exact waitReady_edge e (.inl rfl) (by simp)
  · exact flushSend_edge h (by simp)
  · exact .respond _

theorem execWriteByte_edge {b : Byte} {s t : State} (h : execWriteByte b s = .next t) : OpEdge s t := by
  rcases execWriteByte_next h with
    ⟨-, rfl⟩ | ⟨p, e, rfl⟩ | ⟨p, -, h⟩ | ⟨e, room, rfl⟩ | ⟨-, rfl⟩ | ⟨r, -, rfl⟩
  · exact .setRxCur _ _ (by split <;> simp)
  · exact waitReady_edge e (.inl rfl) (by simp)
  · exact flushSend_edge h (by simp)
  · exact .append _ _ e room (by simp)
  · exact .setTxCur _ _ (by simp)
  · exact .respond _

theorem execReadByte_edge {s t : State} (h : execReadByte s = .next t) : OpEdge s t := by
  rcases execReadByte_next h with
    ⟨-, h⟩ | ⟨p, e, rfl⟩ | ⟨p, e, h⟩ | ⟨p, e, h⟩ | ⟨-, h⟩ | ⟨r, -, rfl⟩
  · rcases readDecode_next h with ⟨-, ind, -, rfl⟩ | ⟨-, rfl⟩ | ⟨-, -, rfl⟩ <;>
      exact .setTxCur _ _ (by first | split <;> simp | simp)
  · exact waitReady_edge e (.inr rfl) (by simp)
  · rcases contFetch_next h with ⟨-, rfl⟩ | ⟨rfl, len, rfl⟩ | ⟨-, rfl⟩
    · exact .call _ _ trivial (by simp)
    · exact .store _ (.inl e) len (by simp)
    · exact .setRxCur _ _ (by simp)
  · rcases pollFrame_next h with
      ⟨rfl, rfl⟩ | ⟨rfl, len, ind, -, rfl⟩ | ⟨-, rfl⟩ | ⟨-, rfl⟩ | ⟨-, rfl⟩
    · exact .loop _ _ trivial (.inr (.inr e)) (by simp)
    · exact .store _ (.inr e) len (by simp)
    · exact .setRxCur _ _ (by simp)
    · exact .sample _ (by split <;> simp)
    · exact .again _ _ trivial (by simp)
  · obtain ⟨r, -, -, rfl⟩ := deliverByte_next h
    exact .setRxCur _ _ (by simp)
  · exact .respond _

theorem illegalStep_edge {s t : State} (h : illegalStep s = .next t) : OpEdge s t := by
  rw [(illegalStep_next h).2]
  exact .respond _

/-- Every edge of a consumer operation has one of the forms. -/
theorem exec_edge {i : Instr} {s t : State} (req : i.format = .request) (h : exec i s = .next t) :
    OpEdge s t := by
  cases i with
  | wrStatus w => exact rawStep_edge (c := .writeStatus w) (result := fun _ => Rsp.ack) trivial h
  | wrData len frame =>
    have wf : cmdWf (.writeData (payloadOf frame len.toNat)) := payloadOf_length _ _
    exact rawStep_edge (result := fun _ => Rsp.ack) wf h
  | rdData => exact rawStep_edge (c := .readData) (result := frameResponse) trivial h
  | rdStatus => exact rawStep_edge (c := .readStatus) (result := statusResponse) trivial h
  | waitRx timeout => exact consumerWait_edge h
  | waitTx timeout => exact consumerWait_edge h
  | writeByte b => exact execWriteByte_edge h
  | flushFin => exact flushOp_edge h
  | flushCont => exact flushOp_edge h
  | readByte => exact execReadByte_edge h
  | avail => rw [(execAvail_next h).2]; exact .respond _
  | reserved0 => exact illegalStep_edge h
  | reserved7 => exact illegalStep_edge h
  | reservedD => exact illegalStep_edge h
  | reservedE => exact illegalStep_edge h
  | reservedF => exact illegalStep_edge h
  | wireWriteStatus w => cases req
  | wireWriteData payload => cases req
  | wireReadData => cases req
  | wireReadStatus => cases req

/-- A wire command's edge is the edge of its transaction. -/
theorem exec_toInstr (c : WireCmd) (s : State) :
    exec c.toInstr s = txnStep (wireBody c) (captureFrom c) s := by
  cases c <;> rfl

/-- A request asks for a consumer operation, never for a wire command. -/
theorem decodeReq_format (q : Req) : (decodeReq q).format = .request := by
  unfold decodeReq
  split <;> rfl

/-- What a request decodes to is well-formed. -/
theorem decodeReq_wf (q : Req) : WellFormed (decodeReq q) := by
  unfold decodeReq
  split <;> simp [WellFormed, Instr.wf, Config.frameBytes]

/-- The transaction a raw operation issues sends a whole frame if it sends one. -/
theorem rawCmd_wf {i : Instr} {c : WireCmd} (h : rawCmd i = some c) : cmdWf c := by
  cases i <;> simp only [rawCmd, Option.some.injEq, reduceCtorEq] at h <;> subst h <;> trivial

/-! ### The clock edge -/

/-- Everything a clock edge can do: reset, wait idle, accept, or execute the instruction in flight. -/
theorem step_next {s t : State} (h : step s = .next t) :
    (s.sampleRst.1 = true ∧ t = s.sampleRst.2.applyReset) ∨
    (s.seq.phase = .idle ∧ t = s.sampleRst.2.clearPulses.sampleRequest.2) ∨
    (∃ q, s.seq.phase = .idle ∧ t = s.sampleRst.2.clearPulses.sampleRequest.2.accept q) ∨
    (s.seq.phase ≠ .idle ∧ exec s.inFlight s.sampleRst.2.clearPulses = .next t) := by
  unfold step at h
  rcases State.fetch_cases s with ⟨rst, e⟩ | ⟨-, idle, -, e⟩ | ⟨q, -, idle, -, e⟩ | ⟨-, busy, e⟩ <;>
    rw [e] at h
  · exact .inl ⟨rst, (Host.Outcome.next.inj h).symm⟩
  · exact .inr (.inl ⟨idle, (Host.Outcome.next.inj h).symm⟩)
  · exact .inr (.inr (.inl ⟨q, idle, (Host.Outcome.next.inj h).symm⟩))
  · exact .inr (.inr (.inr ⟨busy, h⟩))

/-- What is in flight: a wire command, or the operation of the latched request. -/
theorem State.inFlight_cases (s : State) :
    (∃ x, s.seq.txn = some x ∧ s.inFlight = x.cmd.toInstr) ∨
      (s.seq.txn = none ∧ s.inFlight = decodeReq s.seq.req) := by
  unfold State.inFlight
  cases s.seq.txn with
  | some x => exact .inl ⟨x, rfl, rfl⟩
  | none => exact .inr ⟨rfl, rfl⟩

/-! ### Runs -/

theorem runEdges_add (m n : Nat) (s : State) :
    runEdges (m + n) s =
      match runEdges m s with
      | .next t => runEdges n t
      | .fault f => .fault f
      | .refused r => .refused r := by
  induction m generalizing s with
  | zero => simp [runEdges]
  | succ m ih =>
    rw [Nat.succ_add]
    simp only [runEdges]
    cases step s.rstLow with
    | next t => exact ih t
    | fault f => rfl
    | refused r => rfl

theorem Reaches.refl (s : State) : Reaches s s := ⟨0, rfl⟩

theorem Reaches.trans {s t u : State} (h1 : Reaches s t) (h2 : Reaches t u) : Reaches s u := by
  obtain ⟨m, hm⟩ := h1
  obtain ⟨n, hn⟩ := h2
  exact ⟨m + n, by rw [runEdges_add, hm]; exact hn⟩

/-- One edge with rst = 0. -/
theorem Reaches.of_step {s t : State} (h : step s.rstLow = .next t) : Reaches s t :=
  ⟨1, by simp [runEdges, h]⟩

end Sys2Proof.Machine
end

