-- ==== Sys2Proof/Laws/Endless.lean ====
section
/-! SUPPORT. Endless runs: what an edge does with the ports of one edge, transactions end if the serializer answers, and every operation edge makes progress. -/

namespace Sys2Proof.Machine

/-! ### One edge -/

/-- What an edge with rst = 0 executes on, given the samples at it. -/
def State.driven (s : State) (p : Ports) : State :=
  ({ s with
    env := { s.env with rst := [], requests := [p.request], serial := [p.serial], timer := [p.msNow] } }).clearPulses

@[simp] theorem State.driven_seq (s : State) (p : Ports) : (s.driven p).seq = s.seq := rfl

@[simp] theorem State.driven_ss (s : State) (p : Ports) : (s.driven p).ss = s.ss := rfl

@[simp] theorem State.driven_trace (s : State) (p : Ports) : (s.driven p).trace = s.trace := rfl

@[simp] theorem State.driven_clkHz (s : State) (p : Ports) : (s.driven p).clkHz = s.clkHz := rfl

@[simp] theorem State.driven_now (s : State) (p : Ports) : (s.driven p).now.1 = p.msNow := rfl

@[simp] theorem State.driven_sampleSerial (s : State) (p : Ports) :
    (s.driven p).sampleSerial.1 = p.serial := rfl

/-- Samples do not enter the invariant. -/
theorem MachineInv.drive {s : State} (h : MachineInv s) (p : Ports) : MachineInv (s.drive p) := h

/-- An edge inside an operation executes the instruction in flight. -/
theorem step_drive {s : State} {p : Ports} (h : s.seq.phase ≠ .idle) :
    step (s.drive p) = exec s.inFlight (s.driven p) := by
  have e : (s.drive p).fetch = (s.driven p).fetchLive := rfl
  have e' : (s.driven p).fetchLive = .run (s.driven p).inFlight (s.driven p) := by
    unfold State.fetchLive
    split
    · rename_i idle; exact absurd idle h
    · rfl
  rw [step, e, e']
  rfl

/-- An edge inside a transaction keeps the operation's place, request and t0, and samples no Timer. -/
theorem step_drive_wire {s t : State} {p : Ports} {x : Txn} (h : s.seq.phase ≠ .idle)
    (ht : s.seq.txn = some x) (e : step (s.drive p) = .next t) :
    t.seq.phase = s.seq.phase ∧ t.seq.req = s.seq.req ∧ t.seq.t0 = s.seq.t0 ∧
      ∀ y, t.trace ≠ .now y :: s.trace := by
  rw [step_drive h, State.inFlight, ht, exec_toInstr] at e
  obtain ⟨_, -, ⟨-, rfl⟩ | ⟨-, rfl⟩ | ⟨k, sent, m, -, -, rfl⟩ | ⟨-, rfl⟩⟩ := txnStep_next e
  · rcases State.startAssertStep_cases (s.driven p) with ⟨-, q⟩ | ⟨-, -, q⟩ | ⟨-, -, q⟩ <;> rw [q] <;> simp
  · rcases State.startGapStep_cases (s.driven p) with ⟨-, q⟩ | ⟨-, q⟩ <;> rw [q] <;> simp
  · rcases State.byteStep_cases (s.driven p) m (decide (captureFrom x.cmd ≤ k)) k (wireBody x.cmd).length sent
      with ⟨-, q⟩ | ⟨-, -, q⟩ | ⟨b, -, -, q⟩ <;> rw [q]
    · simp
    · simp
    · rw [State.finishByte_eq]; simp
  · rcases State.endAssertStep_cases (s.driven p) with ⟨-, q⟩ | ⟨-, -, q⟩ | ⟨-, -, q⟩ <;> rw [q] <;> simp

/-! ### Transactions end, if the serializer answers -/

section Transactions

variable {ports : Nat → Ports} {run : Nat → State}

/-- From edge n to edge m the operation has stayed at its place. -/
structure SamePlace (run : Nat → State) (n m : Nat) : Prop where
  le    : n ≤ m
  phase : (run m).seq.phase = (run n).seq.phase
  t0    : (run m).seq.t0 = (run n).seq.t0

theorem SamePlace.refl (n : Nat) : SamePlace run n n := ⟨le_rfl, rfl, rfl⟩

theorem SamePlace.trans {n m k : Nat} (h1 : SamePlace run n m) (h2 : SamePlace run m k) : SamePlace run n k :=
  ⟨h1.le.trans h2.le, h2.phase.trans h1.phase, h2.t0.trans h1.t0⟩

theorem SamePlace.busy {n m : Nat} (h : SamePlace run n m) (busy : (run n).seq.phase ≠ .idle) :
    (run m).seq.phase ≠ .idle := by rw [h.phase]; exact busy

/-- An edge of a transaction in an endless run. -/
theorem wire_edge (e : EndlessRun ports run) {n : Nat} {x : Txn} {u : State} (busy : (run n).seq.phase ≠ .idle)
    (ht : (run n).seq.txn = some x)
    (h : txnStep (wireBody x.cmd) (captureFrom x.cmd) ((run n).driven (ports n)) = .next u) :
    run (n + 1) = u ∧ SamePlace run n (n + 1) := by
  have e1 := e n
  have same := step_drive_wire busy ht e1
  rw [step_drive busy, State.inFlight, ht, exec_toInstr, h] at e1
  exact ⟨(Host.Outcome.next.inj e1).symm, Nat.le_succ n, same.1, same.2.2.1⟩

/-- A hold that counts down at every edge comes to its last cycle. -/
theorem hold_ends {l : SelectLine} {x : Txn} {done : State → Prop}
    (edge : ∀ n, (run n).seq.phase ≠ .idle → (run n).ss = l → (run n).seq.txn = some x → SamePlace run n (n + 1) ∧
      ((1 < (run n).seq.dur ∧ run (n + 1) = ((run n).driven (ports n)).setDur ((run n).seq.dur - 1)) ∨
        done (run (n + 1)))) (d n : Nat) (hd : (run n).seq.dur = d) (busy : (run n).seq.phase ≠ .idle)
    (hl : (run n).ss = l) (ht : (run n).seq.txn = some x) : ∃ m, SamePlace run n m ∧ done (run m) := by
  induction d using Nat.strong_induction_on generalizing n with
  | _ d ih =>
    obtain ⟨same, ⟨long, e⟩ | last⟩ := edge n busy hl ht
    · obtain ⟨m, same', h⟩ := ih (d - 1) (by omega) (n + 1) (by rw [e]; simp [hd]) (same.busy busy)
        (by rw [e]; simpa using hl) (by rw [e]; simpa using ht)
      exact ⟨m, same.trans same', h⟩
    · exact ⟨n + 1, same, last⟩

theorem start_gap_ends (e : EndlessRun ports run) {n : Nat} {c : WireCmd} (busy : (run n).seq.phase ≠ .idle)
    (ht : (run n).seq.txn = some ⟨c, .startGap⟩) :
    ∃ m, SamePlace run n m ∧ (run m).seq.txn = some ⟨c, .body 0 false⟩ := by
  refine hold_ends (ports := ports) (l := (run n).ss) (x := ⟨c, .startGap⟩)
    (done := fun t => t.seq.txn = some ⟨c, .body 0 false⟩) ?_ _ n rfl busy rfl ht
  intro k busy _ ht
  obtain ⟨e1, same⟩ := wire_edge e busy ht (u := ((run k).driven (ports k)).startGapStep) (by simp [txnStep, ht])
  rcases State.startGapStep_cases ((run k).driven (ports k)) with ⟨-, q⟩ | ⟨long, q⟩
  · exact ⟨same, .inr (by rw [e1, q]; simp [ht])⟩
  · exact ⟨same, .inl ⟨long, by rw [e1, q]; rfl⟩⟩

theorem start_assert_ends (e : EndlessRun ports run) {n : Nat} {c : WireCmd} (busy : (run n).seq.phase ≠ .idle)
    (ht : (run n).seq.txn = some ⟨c, .startAssert⟩) :
    ∃ m, SamePlace run n m ∧ (run m).seq.txn = some ⟨c, .startGap⟩ := by
  have held (k : Nat) (busy : (run k).seq.phase ≠ .idle) (hs : (run k).ss = .asserted)
      (ht : (run k).seq.txn = some ⟨c, .startAssert⟩) :
      ∃ m, SamePlace run k m ∧ (run m).seq.txn = some ⟨c, .startGap⟩ := by
    refine hold_ends (ports := ports) (l := .asserted) (x := ⟨c, .startAssert⟩)
      (done := fun t => t.seq.txn = some ⟨c, .startGap⟩) ?_ _ k rfl busy hs ht
    intro k busy hs ht
    obtain ⟨e1, same⟩ :=
      wire_edge e busy ht (u := ((run k).driven (ports k)).startAssertStep) (by simp [txnStep, ht])
    rcases State.startAssertStep_cases ((run k).driven (ports k)) with ⟨h, -⟩ | ⟨-, -, q⟩ | ⟨-, long, q⟩
    · rw [State.driven_ss, hs] at h; cases h
    · exact ⟨same, .inr (by rw [e1, q]; simp [ht])⟩
    · exact ⟨same, .inl ⟨long, by rw [e1, q]; rfl⟩⟩
  cases hs : (run n).ss with
  | asserted => exact held n busy hs ht
  | deasserted =>
    obtain ⟨e1, same⟩ := wire_edge e busy ht (u := ((run n).driven (ports n)).assertSs)
      (by simp [txnStep, ht, State.startAssertStep, hs])
    obtain ⟨m, same', h⟩ := held (n + 1) (same.busy busy) (by rw [e1]; simp) (by rw [e1]; simpa using ht)
    exact ⟨m, same.trans same', h⟩

theorem end_assert_ends (e : EndlessRun ports run) {n : Nat} {c : WireCmd} (busy : (run n).seq.phase ≠ .idle)
    (ht : (run n).seq.txn = some ⟨c, .endAssert⟩) : ∃ m, SamePlace run n m ∧ (run m).seq.txn = none := by
  have held (k : Nat) (busy : (run k).seq.phase ≠ .idle) (hs : (run k).ss = .asserted)
      (ht : (run k).seq.txn = some ⟨c, .endAssert⟩) : ∃ m, SamePlace run k m ∧ (run m).seq.txn = none := by
    refine hold_ends (ports := ports) (l := .asserted) (x := ⟨c, .endAssert⟩)
      (done := fun t => t.seq.txn = none) ?_ _ k rfl busy hs ht
    intro k busy hs ht
    obtain ⟨e1, same⟩ :=
      wire_edge e busy ht (u := ((run k).driven (ports k)).endAssertStep) (by simp [txnStep, ht])
    rcases State.endAssertStep_cases ((run k).driven (ports k)) with ⟨h, -⟩ | ⟨-, -, q⟩ | ⟨-, long, q⟩
    · rw [State.driven_ss, hs] at h; cases h
    · exact ⟨same, .inr (by rw [e1, q]; simp)⟩
    · exact ⟨same, .inl ⟨long, by rw [e1, q]; rfl⟩⟩
  cases hs : (run n).ss with
  | asserted => exact held n busy hs ht
  | deasserted =>
    obtain ⟨e1, same⟩ := wire_edge e busy ht (u := ((run n).driven (ports n)).assertSs)
      (by simp [txnStep, ht, State.endAssertStep, hs])
    obtain ⟨m, same', h⟩ := held (n + 1) (same.busy busy) (by rw [e1]; simp) (by rw [e1]; simpa using ht)
    exact ⟨m, same.trans same', h⟩

/-- An outstanding exchange whose answer is d edges away, or nearer, ends. -/
theorem answered_exchange_ends (e : EndlessRun ports run) {c : WireCmd} {k : Nat} (hk : k < (wireBody c).length)
    (d n : Nat) (busy : (run n).seq.phase ≠ .idle) (ht : (run n).seq.txn = some ⟨c, .body k true⟩)
    (answer : (ports (n + d)).serial ≠ none) :
    ∃ m, SamePlace run n m ∧ (run m).seq.txn = some ⟨c, afterByte k (wireBody c).length⟩ := by
  have hm : (wireBody c)[k]? = some (wireBody c)[k] := List.getElem?_eq_getElem hk
  have edge (n : Nat) (busy : (run n).seq.phase ≠ .idle) (ht : (run n).seq.txn = some ⟨c, .body k true⟩) :
      SamePlace run n (n + 1) ∧
        (((ports n).serial = none ∧ (run (n + 1)).seq.txn = some ⟨c, .body k true⟩) ∨
          (run (n + 1)).seq.txn = some ⟨c, afterByte k (wireBody c).length⟩) := by
    obtain ⟨e1, same⟩ := wire_edge e busy ht (by simp only [txnStep, State.driven_seq, ht, hm]; rfl)
    rcases State.byteStep_cases ((run n).driven (ports n)) (wireBody c)[k] (decide (captureFrom c ≤ k)) k
      (wireBody c).length true with ⟨h, -⟩ | ⟨-, none', q⟩ | ⟨b, -, -, q⟩
    · cases h
    · exact ⟨same, .inl ⟨none', by rw [e1, q]; simpa using ht⟩⟩
    · exact ⟨same, .inr (by rw [e1, q, State.finishByte_eq]; simp [ht])⟩
  induction d generalizing n with
  | zero =>
    obtain ⟨same, ⟨h, -⟩ | h⟩ := edge n busy ht
    · exact absurd h answer
    · exact ⟨n + 1, same, h⟩
  | succ d ih =>
    obtain ⟨same, ⟨-, h⟩ | h⟩ := edge n busy ht
    · obtain ⟨m, same', h'⟩ := ih (n + 1) (same.busy busy) h (by rw [Nat.add_right_comm, Nat.add_assoc]; exact answer)
      exact ⟨m, same.trans same', h'⟩
    · exact ⟨n + 1, same, h⟩

/-- Every exchange ends. -/
theorem exchange_ends (e : EndlessRun ports run) (fair : SerializerAnswers ports run) {c : WireCmd} {n k : Nat}
    {sent : Bool} (hk : k < (wireBody c).length) (busy : (run n).seq.phase ≠ .idle)
    (ht : (run n).seq.txn = some ⟨c, .body k sent⟩) :
    ∃ m, SamePlace run n m ∧ (run m).seq.txn = some ⟨c, afterByte k (wireBody c).length⟩ := by
  have started (n : Nat) (busy : (run n).seq.phase ≠ .idle) (ht : (run n).seq.txn = some ⟨c, .body k true⟩) :
      ∃ m, SamePlace run n m ∧ (run m).seq.txn = some ⟨c, afterByte k (wireBody c).length⟩ := by
    obtain ⟨m, le, answer⟩ := fair n ⟨c, k, ht⟩
    obtain ⟨d, rfl⟩ := Nat.exists_eq_add_of_le le
    exact answered_exchange_ends e hk d n busy ht answer
  cases sent with
  | true => exact started n busy ht
  | false =>
    have hm : (wireBody c)[k]? = some (wireBody c)[k] := List.getElem?_eq_getElem hk
    obtain ⟨e1, same⟩ := wire_edge e busy ht
      (u := (((run n).driven (ports n)).startByte (wireBody c)[k]).gotoTxn (.body k true))
      (by simp [txnStep, ht, hm, State.byteStep])
    obtain ⟨m, same', h⟩ := started (n + 1) (same.busy busy) (by rw [e1]; simp [ht])
    exact ⟨m, same.trans same', h⟩

/-- The body ends, whatever is left of it. -/
theorem body_ends (e : EndlessRun ports run) (fair : SerializerAnswers ports run) {c : WireCmd} (left : Nat)
    {n k : Nat} {sent : Bool} (hk : k + left + 1 = (wireBody c).length) (busy : (run n).seq.phase ≠ .idle)
    (ht : (run n).seq.txn = some ⟨c, .body k sent⟩) :
    ∃ m, SamePlace run n m ∧ (run m).seq.txn = some ⟨c, .endAssert⟩ := by
  induction left generalizing n k sent with
  | zero =>
    obtain ⟨m, same, h⟩ := exchange_ends e fair (by omega) busy ht
    exact ⟨m, same, by rw [h, afterByte, if_neg (by omega)]⟩
  | succ left ih =>
    obtain ⟨m, same, h⟩ := exchange_ends e fair (by omega) busy ht
    rw [afterByte, if_pos (by omega)] at h
    obtain ⟨m', same', h'⟩ := ih (by omega) (same.busy busy) h
    exact ⟨m', same.trans same', h'⟩

/-- Every transaction ends, if the serializer answers (R247 (a)). -/
theorem transaction_ends (e : EndlessRun ports run) (fair : SerializerAnswers ports run) {n : Nat}
    (inv : MachineInv (run n)) (busy : (run n).seq.phase ≠ .idle) :
    ∃ m, SamePlace run n m ∧ (run m).seq.txn = none := by
  cases ht : (run n).seq.txn with
  | none => exact ⟨n, .refl n, ht⟩
  | some x =>
    obtain ⟨c, sub⟩ := x
    have fromBody {n k : Nat} {sent : Bool} (busy : (run n).seq.phase ≠ .idle)
        (ht : (run n).seq.txn = some ⟨c, .body k sent⟩) (hk : k < (wireBody c).length) :
        ∃ m, SamePlace run n m ∧ (run m).seq.txn = none := by
      obtain ⟨m, same, h⟩ := body_ends e fair ((wireBody c).length - k - 1) (by omega) busy ht
      obtain ⟨m', same', h'⟩ := end_assert_ends e (same.busy busy) h
      exact ⟨m', same.trans same', h'⟩
    have fromGap {n : Nat} (busy : (run n).seq.phase ≠ .idle) (ht : (run n).seq.txn = some ⟨c, .startGap⟩) :
        ∃ m, SamePlace run n m ∧ (run m).seq.txn = none := by
      obtain ⟨m, same, h⟩ := start_gap_ends e busy ht
      obtain ⟨m', same', h'⟩ := fromBody (same.busy busy) h (by cases c <;> simp [wireBody])
      exact ⟨m', same.trans same', h'⟩
    cases sub with
    | startAssert =>
      obtain ⟨m, same, h⟩ := start_assert_ends e busy ht
      obtain ⟨m', same', h'⟩ := fromGap (same.busy busy) h
      exact ⟨m', same.trans same', h'⟩
    | startGap => exact fromGap busy ht
    | body k sent =>
      have place := inv.1.2
      rw [ht] at place
      exact fromBody busy ht place.2.2.1
    | endAssert => exact end_assert_ends e busy ht

end Transactions

/-! ### Operations make progress -/

/-- How far a place is from the response. The places of a turn of a polling loop share one number. -/
def Phase.rank : Phase → Nat
  | .idle => 0
  | .respond (.send _) | .respond .collect => 1
  | .respond .deliver | .respond .advance => 2
  | .respond .append | .rxContFetch .setCur | .rxPoll .setCur => 3
  | .rxContFetch .store | .flushSend .clear => 4
  | .rxContFetch .issue | .flushSend .issue => 5
  | .waitLoop .warn | .rxContWait .warn => 6
  | .waitLoop .test | .waitLoop .yieldNext | .rxContWait .test | .rxContWait .yieldNext
  | .rxPoll .store | .rxPoll .expire | .rxPoll .yieldNext => 7
  | .waitLoop .sampleT0 | .rxContWait .sampleT0 | .rxPoll .sampleT0 => 8
  | .decode => 9

/-- Within a turn of a polling loop: how many operation edges to the next Timer sample. -/
def Phase.toSample : Phase → Nat
  | .waitLoop .yieldNext | .rxContWait .yieldNext | .rxPoll .yieldNext => 2
  | .rxPoll .store => 1
  | _ => 0

/-- What an operation edge from s to t does, with ms_now = x: it responds, or comes nearer to the response, or
goes on with a turn of its loop, which it leaves at an expired sample. -/
inductive OpProgress (s t : State) (x : Ms) : Prop where
  | responds (r : Rsp) (event : t.trace = .rsp r :: s.trace) (valid : t.out.rspValid = true)
      (fields : t.out.rsp = r) (idle : t.seq.phase = .idle)
  | nearer (busy : t.seq.phase ≠ .idle) (lt : t.seq.phase.rank < s.seq.phase.rank)
  | turns (before : s.seq.phase.rank = 7) (after : t.seq.phase.rank = 7) (t0 : t.seq.t0 = s.seq.t0)
      (early : ∀ y, t.trace = .now y :: s.trace → (x - s.seq.t0).toNat < 65535)
      (sample : t.trace = .now x :: s.trace ∨ t.seq.phase.toSample < s.seq.phase.toSample)

theorem respond_progress {s : State} {p : Ports} (r : Rsp) :
    OpProgress s ((s.driven p).respond r) p.msNow :=
  .responds r rfl rfl rfl rfl

/-- An edge that moves to a place nearer to the response. -/
theorem goto_progress {s u : State} {x : Ms} {here there : Phase} (h : s.seq.phase = here)
    (busy : there ≠ .idle) (lt : there.rank < here.rank) : OpProgress s (u.goto there) x :=
  .nearer busy (by rw [h]; exact lt)

/-- An edge that starts a transaction which returns to a place nearer to the response. -/
theorem call_progress {s u : State} {x : Ms} {c : WireCmd} {here there : Phase} (h : s.seq.phase = here)
    (busy : there ≠ .idle) (lt : there.rank < here.rank) : OpProgress s (u.call c there) x :=
  .nearer busy (by rw [h]; exact lt)

theorem waitReady_progress {sel : Sel} {budget : Nat} {here : WaitAt → Phase} {back : BitVec 4 → Phase}
    {w : WaitAt} {s : State} {p : Ports} (h : s.seq.phase = here w)
    (at' : here = .waitLoop ∨ here = .rxContWait) (le : budget ≤ 65535)
    (hb : ∀ f, back f ≠ .idle ∧ (back f).rank ≤ 5) :
    OpProgress s (waitReady sel budget here back w (s.driven p)) p.msNow := by
  have ranks : (∀ w, here w ≠ .idle) ∧ (here .test).rank = 7 ∧ (here .yieldNext).rank = 7 ∧
      (here .warn).rank = 6 ∧ (here .sampleT0).rank = 8 ∧
      (here .yieldNext).toSample = 2 ∧ (here .test).toSample = 0 := by
    rcases at' with rfl | rfl <;> simp [Phase.rank, Phase.toSample]
  obtain ⟨busy, test, yield', warn, first, y2, t0⟩ := ranks
  have last := fun f => (hb f).2
  rcases waitReady_cases sel budget here back w (s.driven p) with
    ⟨rfl, q⟩ | ⟨rfl, -, q⟩ | ⟨rfl, -, -, q⟩ | ⟨rfl, -, e, q⟩ | ⟨rfl, q⟩ | ⟨rfl, q⟩ <;> rw [q]
  · exact call_progress h (busy _) (by omega)
  · exact goto_progress h (hb _).1 (by have := last (lastField sel (s.driven p)); omega)
  · exact goto_progress h (busy _) (by omega)
  · refine .turns (by rw [h, test]) yield' rfl (fun _ _ => ?_) (.inl rfl)
    have := of_decide_eq_false (show decide (budget ≤ (p.msNow - s.seq.t0).toNat) = false from e)
    omega
  · exact goto_progress h (hb _).1 (by have := last (lastField sel (s.driven p)); omega)
  · exact .turns (by rw [h, yield']) test rfl (fun y e => by simp [State.yieldNow] at e)
      (.inr (by rw [h, y2]; exact Nat.lt_of_le_of_lt (Nat.le_of_eq t0) (by decide)))

theorem rawStep_progress {c : WireCmd} {result : List Byte → Rsp} {s t : State} {p : Ports}
    (h : rawStep c result (s.driven p) = .next t) : OpProgress s t p.msNow := by
  rcases rawStep_next h with ⟨e, rfl⟩ | ⟨-, rfl⟩
  · exact call_progress e (by simp) (by decide)
  · exact respond_progress _

theorem consumerWait_progress {sel : Sel} {timeout : BitVec 16} {s t : State} {p : Ports}
    (h : consumerWait sel timeout (s.driven p) = .next t) : OpProgress s t p.msNow := by
  rcases consumerWait_next h with ⟨e, rfl⟩ | ⟨w, e, rfl⟩ | ⟨r, -, rfl⟩
  · exact goto_progress e (by simp) (by decide)
  · have lt := timeout.isLt
    exact waitReady_progress e (.inl rfl) (by simp only [budgetOf]; omega) (by simp [Phase.rank])
  · exact respond_progress _

theorem flushWait_progress {w : WaitAt} {s : State} {p : Ports} (h : s.seq.phase = .waitLoop w) :
    OpProgress s (flushWait w (s.driven p)) p.msNow :=
  waitReady_progress h (.inl rfl) (by decide) (by simp [Phase.rank])

theorem flushSend_progress {ind : Byte} {back : Phase} {w : SendAt} {s t : State} {p : Ports}
    (h : s.seq.phase = .flushSend w) (hb : back ≠ .idle) (lt : back.rank ≤ 3)
    (e : flushSend ind back w (s.driven p) = .next t) : OpProgress s t p.msNow := by
  rcases flushSend_next e with ⟨rfl, pending, -, rfl⟩ | ⟨rfl, rfl⟩
  · exact call_progress h (by simp) (by decide)
  · exact goto_progress h hb (Nat.lt_of_le_of_lt lt (by decide))

theorem flushOp_progress {ind : Byte} {s t : State} {p : Ports} (h : flushOp ind (s.driven p) = .next t) :
    OpProgress s t p.msNow := by
  rcases flushOp_next h with ⟨e, rfl⟩ | ⟨w, e, rfl⟩ | ⟨w, e, h⟩ | ⟨r, -, rfl⟩
  · split
    · exact respond_progress _
    · exact goto_progress e (by simp) (by decide)
  · exact flushWait_progress e
  · exact flushSend_progress e (by simp) (by simp [Phase.rank]) h
  · exact respond_progress _

theorem execWriteByte_progress {b : Byte} {s t : State} {p : Ports}
    (h : execWriteByte b (s.driven p) = .next t) : OpProgress s t p.msNow := by
  rcases execWriteByte_next h with
    ⟨e, rfl⟩ | ⟨w, e, rfl⟩ | ⟨w, e, h⟩ | ⟨e, -, rfl⟩ | ⟨e, rfl⟩ | ⟨r, -, rfl⟩
  · unfold writeDecode
    split <;> exact goto_progress e (by simp) (by decide)
  · exact flushWait_progress e
  · exact flushSend_progress e (by simp) (by simp [Phase.rank]) h
  · exact goto_progress e (by simp) (by decide)
  · exact goto_progress e (by simp) (by decide)
  · exact respond_progress _

theorem pollFrame_progress {w : PollAt} {s t : State} {p : Ports} (h : s.seq.phase = .rxPoll w)
    (e : pollFrame w (s.driven p) = .next t) : OpProgress s t p.msNow := by
  rcases pollFrame_next e with ⟨rfl, rfl⟩ | ⟨rfl, -, ind, -, rfl⟩ | ⟨rfl, rfl⟩ | ⟨rfl, rfl⟩ | ⟨rfl, rfl⟩
  · exact call_progress h (by simp) (by decide)
  · split
    · exact goto_progress h (by simp) (by decide)
    · exact .turns (by rw [h]; rfl) rfl rfl (fun y e => by simp at e) (.inr (by rw [h]; simp [Phase.toSample]))
  · exact goto_progress h (by simp) (by decide)
  · split
    · exact goto_progress h (by simp) (by simp [Phase.rank])
    · rename_i late
      refine .turns (by rw [h]; rfl) rfl rfl (fun _ _ => ?_) (.inl rfl)
      have := of_decide_eq_false
        (show decide (1000 ≤ (p.msNow - s.seq.t0).toNat) = false from (Bool.not_eq_true _).mp late)
      omega
  · exact .turns (by rw [h]; rfl) rfl rfl (fun y e => by simp [State.yieldNow] at e) (.inr (by rw [h]; simp [Phase.toSample]))

theorem execReadByte_progress {s t : State} {p : Ports} (h : execReadByte (s.driven p) = .next t) :
    OpProgress s t p.msNow := by
  rcases execReadByte_next h with
    ⟨e, h⟩ | ⟨w, e, rfl⟩ | ⟨w, e, h⟩ | ⟨w, e, h⟩ | ⟨e, h⟩ | ⟨r, -, rfl⟩
  · rcases readDecode_next h with ⟨-, ind, -, rfl⟩ | ⟨-, rfl⟩ | ⟨-, -, rfl⟩
    · split
      · exact goto_progress e (by simp) (by decide)
      · exact goto_progress e (by simp) (by simp [Phase.rank])
    · exact goto_progress e (by simp) (by decide)
    · exact goto_progress e (by simp) (by decide)
  · exact waitReady_progress e (.inr rfl) (by decide) (by simp [Phase.rank])
  · rcases contFetch_next h with ⟨rfl, rfl⟩ | ⟨rfl, -, rfl⟩ | ⟨rfl, rfl⟩
    · exact call_progress e (by simp) (by decide)
    · exact goto_progress e (by simp) (by decide)
    · exact goto_progress e (by simp) (by decide)
  · exact pollFrame_progress e h
  · obtain ⟨r, -, -, rfl⟩ := deliverByte_next h
    exact goto_progress e (by simp) (by simp [Phase.rank])
  · exact respond_progress _

/-- Every edge of a consumer operation makes progress. -/
theorem exec_progress {i : Instr} {s t : State} {p : Ports} (req : i.format = .request)
    (h : exec i (s.driven p) = .next t) : OpProgress s t p.msNow := by
  cases i with
  | wrStatus w => exact rawStep_progress (c := .writeStatus w) (result := fun _ => Rsp.ack) h
  | wrData len frame =>
    exact rawStep_progress (c := .writeData (payloadOf frame len.toNat)) (result := fun _ => Rsp.ack) h
  | rdData => exact rawStep_progress (c := .readData) (result := frameResponse) h
  | rdStatus => exact rawStep_progress (c := .readStatus) (result := statusResponse) h
  | waitRx timeout => exact consumerWait_progress h
  | waitTx timeout => exact consumerWait_progress h
  | writeByte b => exact execWriteByte_progress h
  | flushFin => exact flushOp_progress h
  | flushCont => exact flushOp_progress h
  | readByte => exact execReadByte_progress h
  | avail => rw [(execAvail_next h).2]; exact respond_progress _
  | reserved0 => rw [(illegalStep_next h).2]; exact respond_progress _
  | reserved7 => rw [(illegalStep_next h).2]; exact respond_progress _
  | reservedD => rw [(illegalStep_next h).2]; exact respond_progress _
  | reservedE => rw [(illegalStep_next h).2]; exact respond_progress _
  | reservedF => rw [(illegalStep_next h).2]; exact respond_progress _
  | wireWriteStatus w => cases req
  | wireWriteData payload => cases req
  | wireReadData => cases req
  | wireReadStatus => cases req

/-- An operation edge of an endless run. -/
theorem operation_edge {ports : Nat → Ports} {run : Nat → State} (e : EndlessRun ports run) {n : Nat}
    (busy : (run n).seq.phase ≠ .idle) (ht : (run n).seq.txn = none) :
    OpProgress (run n) (run (n + 1)) (ports n).msNow := by
  have e1 := e n
  rw [step_drive busy, State.inFlight, ht] at e1
  exact exec_progress (decodeReq_format _) e1

end Sys2Proof.Machine
end

