-- ==== Sys2Proof/Laws/PerInstr.lean ====
section
/-! SUPPORT. For all instructions: how many bytes an instruction is encoded in (R70, R76, R95). -/

namespace Sys2Proof.Laws.EncodedLength

/-- A request record takes 38 bytes, a wire body 5 or 34 as its command byte fixes (R70, R76, R95). -/
def bytesOf : Instr → Nat
  | .wireWriteStatus _ | .wireReadStatus => 5
  | .wireWriteData _ | .wireReadData => 34
  | .wrStatus _ | .wrData _ _ | .rdData | .rdStatus | .waitRx _ | .waitTx _ | .writeByte _
  | .flushFin | .flushCont | .readByte | .avail
  | .reserved0 | .reserved7 | .reservedD | .reservedE | .reservedF => 38

/-- A well-formed instruction is encoded in the bytes its format gives it. -/
def Statement (i : Instr) : Prop := WellFormed i → (encode i).length = bytesOf i

theorem wrStatus (w : Word) : Statement (.wrStatus w) := fun _ => bytesOfNat_length 38 _
theorem wrData (len : Byte) (frame : List Byte) : Statement (.wrData len frame) :=
  fun _ => bytesOfNat_length 38 _
theorem rdData : Statement .rdData := fun _ => bytesOfNat_length 38 _
theorem rdStatus : Statement .rdStatus := fun _ => bytesOfNat_length 38 _
theorem waitRx (timeout : BitVec 16) : Statement (.waitRx timeout) := fun _ => bytesOfNat_length 38 _
theorem waitTx (timeout : BitVec 16) : Statement (.waitTx timeout) := fun _ => bytesOfNat_length 38 _
theorem writeByte (b : Byte) : Statement (.writeByte b) := fun _ => bytesOfNat_length 38 _
theorem flushFin : Statement .flushFin := fun _ => bytesOfNat_length 38 _
theorem flushCont : Statement .flushCont := fun _ => bytesOfNat_length 38 _
theorem readByte : Statement .readByte := fun _ => bytesOfNat_length 38 _
theorem avail : Statement .avail := fun _ => bytesOfNat_length 38 _
theorem reserved0 : Statement .reserved0 := fun _ => bytesOfNat_length 38 _
theorem reserved7 : Statement .reserved7 := fun _ => bytesOfNat_length 38 _
theorem reservedD : Statement .reservedD := fun _ => bytesOfNat_length 38 _
theorem reservedE : Statement .reservedE := fun _ => bytesOfNat_length 38 _
theorem reservedF : Statement .reservedF := fun _ => bytesOfNat_length 38 _
theorem wireWriteStatus (w : Word) : Statement (.wireWriteStatus w) := fun _ => rfl
theorem wireWriteData (payload : List Byte) : Statement (.wireWriteData payload) := fun h => by
  have h' : payload.length = 32 := by simpa [WellFormed, Instr.wf, Config.frameBytes] using h
  simp [encode, Instr.toReq, Instr.toWire, wireBody, bytesOf, h']
theorem wireReadData : Statement .wireReadData := fun _ => rfl
theorem wireReadStatus : Statement .wireReadStatus := fun _ => rfl

end Sys2Proof.Laws.EncodedLength
end

