-- ==== Sys2Proof/Laws/Runs.lean ====
section
/-! SUPPORT. Runs with rst = 0: what one edge executes, and the three parts of a transaction from edge to edge. -/

namespace Sys2Proof.Machine

/-! ### One edge -/

theorem State.rstLow_fetch (s : State) : s.rstLow.fetch = s.clearPulses.fetchLive := rfl

/-- An edge inside an operation executes the instruction in flight. -/
theorem fetch_busy {s : State} (h : s.seq.phase ≠ .idle) : s.rstLow.fetch = .run s.inFlight s.clearPulses := by
  rw [State.rstLow_fetch]
  unfold State.fetchLive
  split
  · rename_i e; exact absurd e h
  · rfl

/-- An edge inside a transaction executes its wire command. -/
theorem fetch_wire {s : State} {x : Txn} (h : s.seq.phase ≠ .idle) (ht : s.seq.txn = some x) :
    s.rstLow.fetch = .run x.cmd.toInstr s.clearPulses := by
  rw [fetch_busy h, State.inFlight, ht]

/-- An edge inside an operation, with no transaction in flight, executes the operation. -/
theorem fetch_operation {s : State} (h : s.seq.phase ≠ .idle) (ht : s.seq.txn = none) :
    s.rstLow.fetch = .run (decodeReq s.seq.req) s.clearPulses := by
  rw [fetch_busy h, State.inFlight, ht]

/-- An idle edge at which q is presented accepts it. -/
theorem fetch_accept {s : State} {q : Req} {more : List (Option Req)} (h : s.seq.phase = .idle)
    (hq : s.env.requests = some q :: more) :
    s.rstLow.fetch = .quiet
      (({ s with env := { s.env with requests := more } }).clearPulses.accept q) := by
  rw [State.rstLow_fetch, State.fetchLive, State.clearPulses_seq, h]
  have hr : s.clearPulses.sampleRequest = (some q,
        { s.clearPulses with env := { s.clearPulses.env with requests := more } }) :=
    State.sampleRequest_scripted _ _ _ hq
  simp only [State.fetchIdle, hr]
  rfl

theorem step_of_quiet {s u : State} (h : s.fetch = .quiet u) : step s = .next u := by
  rw [step, h]

theorem step_of_fetch {s u : State} {i : Instr} (h : s.fetch = .run i u) : step s = exec i u := by
  rw [step, h]

/-- The run gets to an edge and executes there, and goes on with what exec answers. -/
theorem Executes.reaches {s t : State} {i : Instr} (h : Executes s i t) : Reaches s t := by
  obtain ⟨u, v, h1, h2, h3⟩ := h
  exact h1.trans (.of_step (by rw [step_of_fetch h2, h3]))

/-- The acceptance edge of a presented request. -/
theorem reaches_accept {s : State} {q : Req} {more : List (Option Req)} (h : s.seq.phase = .idle)
    (hq : s.env.requests = some q :: more) :
    Reaches s (({ s with env := { s.env with requests := more } }).clearPulses.accept q) :=
  .of_step (step_of_quiet (fetch_accept h hq))

theorem Reaches.executes {s u t : State} {i : Instr} (h1 : Reaches s u) (h2 : Executes u i t) :
    Executes s i t := by
  obtain ⟨v, w, h3, h4⟩ := h2
  exact ⟨v, w, h1.trans h3, h4⟩

/-! ### What a transaction leaves alone on its way -/

/-- Everything but the link, the trace, the captured bytes and the ports is the same. -/
def Apart (s t : State) : Prop :=
  SameBuffers s t ∧ t.seq.phase = s.seq.phase ∧ t.seq.req = s.seq.req ∧ t.seq.t0 = s.seq.t0 ∧
    t.env.timer = s.env.timer ∧ t.env.requests = s.env.requests ∧ t.env.rst = s.env.rst ∧ t.clkHz = s.clkHz

theorem Apart.trans {s t u : State} (h1 : Apart s t) (h2 : Apart t u) : Apart s u := by
  obtain ⟨⟨a1, a2, a3, a4⟩, a5, a6, a7, a8, a9, a10, a11⟩ := h1
  obtain ⟨⟨b1, b2, b3, b4⟩, b5, b6, b7, b8, b9, b10, b11⟩ := h2
  exact ⟨⟨b1.trans a1, b2.trans a2, b3.trans a3, b4.trans a4⟩, b5.trans a5, b6.trans a6, b7.trans a7,
    b8.trans a8, b9.trans a9, b10.trans a10, b11.trans a11⟩

/-- An edge of a transaction, as a run of one edge. -/
theorem reaches_wire {s t : State} {x : Txn} (h : s.seq.phase ≠ .idle) (ht : s.seq.txn = some x)
    (he : txnStep (wireBody x.cmd) (captureFrom x.cmd) s.clearPulses = .next t) : Reaches s t :=
  .of_step (by rw [step_of_fetch (fetch_wire h ht), exec_toInstr, he])

/-- The first edge of a run, inside a transaction. -/
theorem runEdges_wire {s t : State} {x : Txn} (n : Nat) (h : s.seq.phase ≠ .idle) (ht : s.seq.txn = some x)
    (he : txnStep (wireBody x.cmd) (captureFrom x.cmd) s.clearPulses = .next t) :
    runEdges (n + 1) s = runEdges n t := by
  simp only [runEdges]
  rw [step_of_fetch (fetch_wire h ht), exec_toInstr, he]

/-! ### The start pulse (R111) -/

/-- The gap of the start pulse, however much of its hold is left, ends in START and the first exchange. -/
theorem gap_reaches (n : Nat) (s : State) (c : WireCmd) (h : s.seq.phase ≠ .idle) (hn : s.seq.dur = n)
    (ht : s.seq.txn = some ⟨c, .startGap⟩) :
    ∃ t, Reaches s t ∧ Apart s t ∧ t.seq.txn = some ⟨c, .body 0 false⟩ ∧ t.seq.asm = s.seq.asm ∧ t.ss = s.ss ∧
      t.trace = .start :: s.trace ∧ t.env.serial = s.env.serial := by
  induction n using Nat.strong_induction_on generalizing s with
  | _ n ih =>
    by_cases h1 : s.seq.dur ≤ 1
    · refine ⟨(s.clearPulses.emit .start).gotoTxn (.body 0 false), reaches_wire h ht ?_, ?_⟩
      · simp [txnStep, ht, State.startGapStep, State.hold, h1]
      · simp [Apart, SameBuffers, ht]
    · obtain ⟨t, h2, h3, h4, h5, h6, h7, h8⟩ :=
        ih (n - 1) (by omega) (s.clearPulses.setDur (s.seq.dur - 1)) (by simpa using h) (by simp [hn]) (by simpa using ht)
      refine ⟨t, .trans (reaches_wire h ht ?_) h2, .trans ?_ h3, h4, by simpa using h5, by simpa using h6,
        by simpa using h7, by simpa using h8⟩
      · simp [txnStep, ht, State.startGapStep, State.hold, h1]
      · simp [Apart, SameBuffers]

/-- The assertion of the start pulse, however much of its hold is left, ends deasserted in the gap. -/
theorem assert_reaches (n : Nat) (s : State) (c : WireCmd) (h : s.seq.phase ≠ .idle) (hn : s.seq.dur = n)
    (ht : s.seq.txn = some ⟨c, .startAssert⟩) (hs : s.ss = .asserted) :
    ∃ t, Reaches s t ∧ Apart s t ∧ t.seq.txn = some ⟨c, .startGap⟩ ∧ t.seq.asm = s.seq.asm ∧
      t.ss = .deasserted ∧ t.trace = s.trace ∧ t.env.serial = s.env.serial := by
  induction n using Nat.strong_induction_on generalizing s with
  | _ n ih =>
    by_cases h1 : s.seq.dur ≤ 1
    · refine ⟨((s.clearPulses.setSs .deasserted).setDur (cyclesOf Config.tSsGap s.clkHz)).gotoTxn .startGap,
        reaches_wire h ht ?_, ?_⟩
      · simp [txnStep, ht, State.startAssertStep, State.hold, hs, h1]
      · simp [Apart, SameBuffers, ht]
    · obtain ⟨t, h2, h3, h4, h5, h6, h7, h8⟩ :=
        ih (n - 1) (by omega) (s.clearPulses.setDur (s.seq.dur - 1)) (by simpa using h) (by simp [hn]) (by simpa using ht)
          (by simpa using hs)
      refine ⟨t, .trans (reaches_wire h ht ?_) h2, .trans ?_ h3, h4, by simpa using h5, h6, by simpa using h7,
        by simpa using h8⟩
      · simp [txnStep, ht, State.startAssertStep, State.hold, hs, h1]
      · simp [Apart, SameBuffers]

/-- A whole start pulse. -/
theorem start_reaches (s : State) (c : WireCmd) (h : s.seq.phase ≠ .idle)
    (ht : s.seq.txn = some ⟨c, .startAssert⟩) (hs : s.ss = .deasserted) :
    ∃ t, Reaches s t ∧ Apart s t ∧ t.seq.txn = some ⟨c, .body 0 false⟩ ∧ t.seq.asm = s.seq.asm ∧
      t.ss = .deasserted ∧ t.trace = .start :: s.trace ∧ t.env.serial = s.env.serial := by
  have h0 : Reaches s s.clearPulses.assertSs :=
    reaches_wire h ht (by simp [txnStep, ht, State.startAssertStep, hs])
  obtain ⟨t, h1, h2, h3, h4, h5, h6, h7⟩ := assert_reaches _ s.clearPulses.assertSs c (by simpa using h) rfl
    (by simpa using ht) (by simp)
  obtain ⟨u, k1, k2, k3, k4, k5, k6, k7⟩ := gap_reaches _ t c (by rw [h2.2.1]; simpa using h) rfl h3
  refine ⟨u, h0.trans (h1.trans k1), .trans ?_ (h2.trans k2), k3, by rw [k4, h4]; simp, by rw [k5, h5],
    by rw [k6, h6]; simp, by rw [k7, h7]; simp⟩
  simp [Apart, SameBuffers]

/-! ### The body (R113) -/

/-- One exchange, answered by b after n edges with sx_done low. -/
theorem exchange_reaches (n : Nat) (s : State) (c : WireCmd) (k : Nat) (m b : Byte) (rest : List (Option Byte))
    (h : s.seq.phase ≠ .idle) (ht : s.seq.txn = some ⟨c, .body k true⟩) (hm : (wireBody c)[k]? = some m)
    (hs : s.env.serial = List.replicate n none ++ some b :: rest) :
    ∃ t, Reaches s t ∧ Apart s t ∧ t.seq.txn = some ⟨c, afterByte k (wireBody c).length⟩ ∧
      t.seq.asm = (if captureFrom c ≤ k then s.seq.asm ++ [b] else s.seq.asm) ∧ t.ss = s.ss ∧
      t.trace = .x m b :: s.trace ∧ t.env.serial = rest := by
  induction n generalizing s with
  | zero =>
    have hb : s.clearPulses.sampleSerial = (some b, { s.clearPulses with env := { s.clearPulses.env with serial := rest } }) :=
      State.sampleSerial_scripted _ _ _ hs
    refine ⟨State.finishByte { s.clearPulses with env := { s.clearPulses.env with serial := rest } } m b
      (decide (captureFrom c ≤ k)) (afterByte k (wireBody c).length), reaches_wire h ht ?_, ?_⟩
    · simp only [txnStep, State.clearPulses_seq, ht, hm, State.byteStep, if_true, hb]
    · simp [State.finishByte_eq, Apart, SameBuffers, ht]
  | succ n ih =>
    have hb : s.clearPulses.sampleSerial =
        (none, { s.clearPulses with env := { s.clearPulses.env with serial := List.replicate n none ++ some b :: rest } }) :=
      State.sampleSerial_scripted _ _ _ hs
    obtain ⟨t, h1, h2, h3, h4, h5, h6, h7⟩ :=
      ih { s.clearPulses with env := { s.clearPulses.env with serial := List.replicate n none ++ some b :: rest } } h ht rfl
    refine ⟨t, .trans (reaches_wire h ht ?_) h1, .trans ?_ h2, h3, h4, h5, h6, h7⟩
    · simp only [txnStep, State.clearPulses_seq, ht, hm, State.byteStep, if_true, hb]
    · simp [Apart, SameBuffers]

/-- One whole exchange, from its sx_start. -/
theorem byte_reaches (n : Nat) (s : State) (c : WireCmd) (k : Nat) (m b : Byte) (rest : List (Option Byte))
    (h : s.seq.phase ≠ .idle) (ht : s.seq.txn = some ⟨c, .body k false⟩) (hm : (wireBody c)[k]? = some m)
    (hs : s.env.serial = List.replicate n none ++ some b :: rest) :
    ∃ t, Reaches s t ∧ Apart s t ∧ t.seq.txn = some ⟨c, afterByte k (wireBody c).length⟩ ∧
      t.seq.asm = (if captureFrom c ≤ k then s.seq.asm ++ [b] else s.seq.asm) ∧ t.ss = s.ss ∧
      t.trace = .x m b :: s.trace ∧ t.env.serial = rest := by
  have h0 : Reaches s ((s.clearPulses.startByte m).gotoTxn (.body k true)) :=
    reaches_wire h ht (by simp [txnStep, ht, hm, State.byteStep])
  obtain ⟨t, h1, h2, h3, h4, h5, h6, h7⟩ := exchange_reaches n ((s.clearPulses.startByte m).gotoTxn (.body k true))
    c k m b rest (by simpa using h) (by simp [ht]) hm (by simpa using hs)
  refine ⟨t, h0.trans h1, .trans ?_ h2, h3, by simpa using h4, by simpa using h5, by simpa using h6, h7⟩
  simp [Apart, SameBuffers]

/-! ### The end pulse (R112) -/

/-- The end pulse, however much of its hold is left, ends in END and the return of the transaction. -/
theorem end_executes (n : Nat) (s : State) (c : WireCmd) (h : s.seq.phase ≠ .idle) (hn : s.seq.dur = n)
    (ht : s.seq.txn = some ⟨c, .endAssert⟩) (hs : s.ss = .asserted) :
    ∃ t, Executes s c.toInstr t ∧ Apart s t ∧ t.seq.txn = none ∧ t.seq.asm = s.seq.asm ∧ t.ss = .deasserted ∧
      t.trace = .stop :: s.trace ∧ t.env.serial = s.env.serial := by
  induction n using Nat.strong_induction_on generalizing s with
  | _ n ih =>
    by_cases h1 : s.seq.dur ≤ 1
    · refine ⟨((s.clearPulses.setSs .deasserted).emit .stop).endTxn,
        ⟨s, s.clearPulses, .refl s, fetch_wire h ht, ?_⟩, ?_⟩
      · rw [exec_toInstr]
        simp [txnStep, ht, State.endAssertStep, State.hold, hs, h1]
      · simp [Apart, SameBuffers]
    · obtain ⟨t, h2, h3, h4, h5, h6, h7, h8⟩ :=
        ih (n - 1) (by omega) (s.clearPulses.setDur (s.seq.dur - 1)) (by simpa using h) (by simp [hn]) (by simpa using ht)
          (by simpa using hs)
      refine ⟨t, Reaches.executes (reaches_wire h ht ?_) h2, .trans ?_ h3, h4, by simpa using h5, h6, by simpa using h7,
        by simpa using h8⟩
      · simp [txnStep, ht, State.endAssertStep, State.hold, hs, h1]
      · simp [Apart, SameBuffers]

end Sys2Proof.Machine
end

