-- ==== Sys2Proof/Tests/Slice0.lean ====
section
/-! SUPPORT. Tests: ill-formed terms refused, words written out from the spec decoded, single edges of the spec's vectors, a witness for every statement's hypotheses. -/

namespace Sys2Proof.Tests

open Sys2Proof Sys2Proof.Machine

/-! ### Small states -/

/-- The state an outcome goes on with. -/
def nextOf : Outcome → Option State
  | .next s => some s
  | .fault _ => none
  | .refused _ => none

/-- The fault an outcome stops with. -/
def faultOf : Outcome → Option Fault
  | .next _ => none
  | .fault f => some f
  | .refused _ => none

/-- The reset state of a block clocked at 1 MHz. -/
def base : State := { State.reset with clkHz := 1000000 }

/-- A block at a place of an operation, with the bytes a transaction has returned. -/
def busy (p : Phase) (q : Req) (asm : List Byte) : State :=
  { base with seq := { Sequencer.reset with phase := p, req := q, asm := asm } }

/-- A block with a transaction in flight. -/
def sending (c : WireCmd) (sub : TxnPhase) (asm : List Byte) : State :=
  { base with seq := { Sequencer.reset with
      phase := .respond .collect, req := WireCmd.hostReq c, txn := some ⟨c, sub⟩, asm := asm } }

/-- The same block with scripts for the inputs. -/
def withEnv (s : State) (rst : List Bool) (requests : List (Option Req)) (serial : List (Option Byte))
    (timer : List Ms) : State :=
  { s with env := { s.env with rst := rst, requests := requests, serial := serial, timer := timer } }

/-- The frame [0x01, 0x02, ..., 0x20] of V-T7. -/
def countFrame : List Byte := (List.range 32).map (fun k => BitVec.ofNat 8 (k + 1))

/-! ### WellFormed: a frame operand that is not 32 bytes is refused -/

theorem test_wf_wrData_short : ¬ WellFormed (.wrData 3#8 [0xDF#8, 0x41#8, 0x42#8]) := by decide

theorem test_wf_wrData_long : ¬ WellFormed (.wrData 3#8 (0x00#8 :: countFrame)) := by decide

theorem test_wf_wireWriteData_short : ¬ WellFormed (.wireWriteData [0xDF#8]) := by decide

theorem test_wf_wireWriteData_whole : WellFormed (.wireWriteData countFrame) := by decide

/-! ### Words written out from R70, R71, R74 (95_test_vectors.md section 0) -/

theorem test_decode_wrStatus :
    decodeTableWord 304 0xA1B2C3D4001 = some (.wrStatus 0xA1B2C3D4#32) := by decide

theorem test_decode_wrData :
    decodeTableWord 304 0x4241DF00000000032 =
      some (.wrData 3#8 (0xDF#8 :: 0x41#8 :: 0x42#8 :: List.replicate 29 0x00#8)) := by decide

theorem test_decode_wrData_whole :
    decodeTableWord 304
        0x201F1E1D1C1B1A191817161514131211100F0E0D0C0B0A09080706050403020100000000282 =
      some (.wrData 40#8 countFrame) := by decide

theorem test_decode_rdData : decodeTableWord 8 0x3 = some .rdData := by decide

theorem test_decode_rdStatus : decodeTableWord 8 0x4 = some .rdStatus := by decide

theorem test_decode_waitRx : decodeTableWord 304 0xBB8005 = some (.waitRx 3000#16) := by decide

/-- V-W10: timeout bits above a32[15:0] are dropped. -/
theorem test_decode_waitRx_high : decodeTableWord 304 0x10BB8005 = some (.waitRx 3000#16) := by decide

theorem test_decode_waitTx : decodeTableWord 304 0x64006 = some (.waitTx 100#16) := by decide

theorem test_decode_writeByte : decodeTableWord 16 0x418 = some (.writeByte 0x41#8) := by decide

theorem test_decode_flushFin : decodeTableWord 8 0x9 = some .flushFin := by decide

theorem test_decode_flushCont : decodeTableWord 8 0xA = some .flushCont := by decide

theorem test_decode_readByte : decodeTableWord 8 0xB = some .readByte := by decide

theorem test_decode_avail : decodeTableWord 8 0xC = some .avail := by decide

theorem test_decode_reserved0 : decodeTableWord 8 0x0 = some .reserved0 := by decide

theorem test_decode_reserved7 : decodeTableWord 8 0x7 = some .reserved7 := by decide

theorem test_decode_reservedD : decodeTableWord 8 0xD = some .reservedD := by decide

theorem test_decode_reservedE : decodeTableWord 8 0xE = some .reservedE := by decide

theorem test_decode_reservedF : decodeTableWord 16 0x41F = some .reservedF := by decide

/-! ### Wire bodies written out from R76 to R80, and what is no instruction -/

/-- MOSI 0x01, 0xD4, 0xC3, 0xB2, 0xA1 (V-T4). -/
theorem test_decode_wireWriteStatus :
    decodeTableWord 40 0xA1B2C3D401 = some (.wireWriteStatus 0xA1B2C3D4#32) := by decide

/-- MOSI 0x02, 0x00, then the payload, its first byte 0xDF. -/
theorem test_decode_wireWriteData :
    decodeTableWord 272 0xDF0002 = some (.wireWriteData (0xDF#8 :: List.replicate 31 0x00#8)) := by decide

theorem test_decode_wireReadData : decodeTableWord 272 0x3 = some .wireReadData := by decide

theorem test_decode_wireReadStatus : decodeTableWord 40 0x4 = some .wireReadStatus := by decide

theorem test_reject_unknown_command :
    decode .wire [0x05#8, 0#8, 0#8, 0#8, 0#8] = .error .unknownCommand := by decide

theorem test_reject_short_body : decode .wire [0x04#8, 0#8, 0#8, 0#8] = .error .bodyTooShort := by decide

theorem test_reject_long_body :
    decode .wire [0x04#8, 0#8, 0#8, 0#8, 0#8, 0#8] = .error .bodyTooLong := by decide

theorem test_reject_filler :
    decode .wire [0x04#8, 0#8, 0#8, 0x01#8, 0#8] = .error .fillerByte := by decide

theorem test_reject_empty_body : decode .wire [] = .error .emptyBody := by decide

theorem test_reject_request_length : decode .request [0x03#8] = .error .requestLength := by decide

/-- Bits 303:300 of the last byte are not part of REQ[299:0]. -/
theorem test_reject_request_high_bits :
    decode .request (List.replicate 37 0x00#8 ++ [0x10#8]) = .error .requestHighBits := by decide

/-- The response record of V-T1 (R73). -/
theorem test_rsp_pack : Rsp.pack { word := 0x12345678#32 } = 0x2468ACF000 := by decide

/-! ### Single edges of the vectors of 95_test_vectors.md -/

/-- V-T4: WR_STATUS starts WRITESTATUS of its word. -/
theorem test_wrStatus_starts :
    (nextOf (exec (.wrStatus 0xA1B2C3D4#32) (busy .decode (Req.plain 0x1#4) []))).map (fun t => t.seq.txn) =
      some (some ⟨.writeStatus 0xA1B2C3D4#32, .startAssert⟩) := by decide

/-- R28: after RD_STATUS of V-T1's word nothing of it stays in the sequencer. -/
theorem test_status_not_kept :
    (nextOf (exec .rdStatus (busy (.respond .collect) (Req.plain 0x4#4) [0x78#8, 0x56#8, 0x34#8, 0x12#8]))).map
        (fun t => (t.out.rsp.word, t.seq.asm)) = some (0x12345678#32, []) := by decide

/-- V-T8: byte 31 of the operand is beyond n = 31 and is sent as padding. -/
theorem test_wrData_pads :
    (nextOf (exec (.wrData 31#8 (countFrame.take 31 ++ [0xEE#8])) (busy .decode (Req.plain 0x2#4) []))).map
        (fun t => t.seq.txn) =
      some (some ⟨.writeData (countFrame.take 31 ++ [0x00#8]), .startAssert⟩) := by decide

/-- V-T7: len = 40 sends all 32 operand bytes. -/
theorem test_wrData_clamps :
    (nextOf (exec (.wrData 40#8 countFrame) (busy .decode (Req.plain 0x2#4) []))).map (fun t => t.seq.txn) =
      some (some ⟨.writeData countFrame, .startAssert⟩) := by decide

/-- V-T10: the frame is returned whatever its byte 0. -/
theorem test_rdData_answers :
    (nextOf (exec .rdData (busy (.respond .collect) (Req.plain 0x3#4)
        (0x5A#8 :: List.replicate 31 0x00#8)))).map (fun t => t.out.rsp) =
      some { frame := 0x5A#256 } := by decide

/-- V-T1: least significant byte first. -/
theorem test_rdStatus_answers :
    (nextOf (exec .rdStatus (busy (.respond .collect) (Req.plain 0x4#4)
        [0x78#8, 0x56#8, 0x34#8, 0x12#8]))).map (fun t => (t.out.rsp, t.out.rspValid)) =
      some ({ word := 0x12345678#32 }, true) := by decide

/-- V-W5: a reserved receive state at the expiry test is a soft timeout. -/
theorem test_waitRx_expires :
    (nextOf (exec (.waitRx 10#16) (withEnv (busy (.waitLoop .test) (Req.plain 0x5#4)
        [0x00#8, 0x00#8, 0x00#8, 0x70#8]) [] [] [] [10#32]))).map (fun t => (t.seq.phase, t.trace)) =
      some (.waitLoop .warn, [.now 10#32]) := by decide

/-- V-W7: READY ends the wait without a Timer sample. -/
theorem test_waitRx_ready :
    (nextOf (exec (.waitRx 3000#16) (busy (.waitLoop .test) (Req.plain 0x5#4)
        [0x00#8, 0x00#8, 0x00#8, 0x10#8]))).map (fun t => (t.seq.phase, t.trace)) =
      some (.respond (.send { byte := 0x01#8 }), []) := by decide

/-- V-W9: WAIT_TX looks at bits 27:24 only; a soft timeout warns with kind 1. -/
theorem test_waitTx_warns :
    (nextOf (exec (.waitTx 0#16) (busy (.waitLoop .warn) (Req.plain 0x6#4)
        [0x00#8, 0x00#8, 0x00#8, 0x10#8]))).map (fun t => (t.seq.phase, t.trace, t.out.warnO)) =
      some (.respond (.send {}), [.warn 1#1], true) := by decide

/-- V-O2: the byte goes to index tx_cur. -/
theorem test_writeByte_appends :
    (nextOf (exec (.writeByte 0x43#8) { busy (.respond .append) (Req.plain 0x8#4) [] with
        txBuf := [(0, 0x41#8), (1, 0x42#8)], txCur := 2 })).map (fun t => t.txBuf) =
      some [(0, 0x41#8), (1, 0x42#8), (2, 0x43#8)] := by decide

/-- V-O10: WRITE_BYTE abandons a held frame. -/
theorem test_writeByte_drops_frame :
    (nextOf (exec (.writeByte 0x00#8) { busy .decode (Req.plain 0x8#4) [] with rxCur := 32 })).map
        (fun t => (t.rxCur, t.seq.phase)) = some (0, .respond .append) := by decide

/-- V-O1: nothing but the response. -/
theorem test_flushFin_empty :
    (nextOf (exec .flushFin (busy .decode (Req.plain 0x9#4) []))).map (fun t => t.trace) =
      some [.rsp Rsp.ack] := by decide

/-- V-O8: the frame of a flush, zero-padded. -/
theorem test_flushFin_sends :
    (nextOf (exec .flushFin { busy (.flushSend .issue) (Req.plain 0x9#4) [] with
        txBuf := [(0, 0x55#8)], txCur := 1 })).map (fun t => t.seq.txn) =
      some (some ⟨.writeData (0xDF#8 :: 0x55#8 :: List.replicate 30 0x00#8), .startAssert⟩) := by decide

/-- V-O7: CONTINUES is 0xDC. -/
theorem test_flushCont_sends :
    (nextOf (exec .flushCont { busy (.flushSend .issue) (Req.plain 0xA#4) [] with
        txBuf := [(0, 0x01#8), (1, 0x02#8)], txCur := 2 })).map (fun t => t.seq.txn) =
      some (some ⟨.writeData (0xDC#8 :: 0x01#8 :: 0x02#8 :: List.replicate 29 0x00#8), .startAssert⟩) := by
  decide

/-- V-I10: the last data byte. -/
theorem test_readByte_delivers :
    (nextOf (exec .readByte { busy (.respond .deliver) (Req.plain 0xB#4) [] with
        rxBuf := [(31, 0xE1#8)], rxCur := 31 })).map (fun t => (t.rxCur, t.seq.phase)) =
      some (32, .respond (.send { byte := 0xE1#8 })) := by decide

/-- V-I2: past the end of a FINISHED frame, and the unsent bytes are dropped. -/
theorem test_readByte_past_end :
    (nextOf (exec .readByte { busy .decode (Req.plain 0xB#4) [] with
        rxBuf := [(0, 0xDF#8)], rxCur := 32, txCur := 2 })).map (fun t => (t.txCur, t.seq.phase)) =
      some (0, .respond (.send {})) := by decide

/-- V-I7: rx_cur = 2 leaves 30 bytes. -/
theorem test_avail_counts :
    (nextOf (exec .avail { busy .decode (Req.plain 0xC#4) [] with rxCur := 2 })).map
        (fun t => t.out.rsp) = some { byte := 30#8 } := by decide

/-- V-I7: nothing fetched yet. -/
theorem test_avail_none :
    (nextOf (exec .avail (busy .decode (Req.plain 0xC#4) []))).map (fun t => t.out.rsp) =
      some { byte := 0#8 } := by decide

/-- V-X1, each reserved code. -/
theorem test_reserved0 :
    (nextOf (exec .reserved0 (busy .decode (Req.plain 0x0#4) []))).map (fun t => t.out.rsp.pack) =
      some 0x1 := by decide

theorem test_reserved7 :
    (nextOf (exec .reserved7 (busy .decode (Req.plain 0x7#4) []))).map (fun t => t.out.rsp.pack) =
      some 0x1 := by decide

theorem test_reservedD :
    (nextOf (exec .reservedD (busy .decode (Req.plain 0xD#4) []))).map (fun t => t.out.rsp.pack) =
      some 0x1 := by decide

theorem test_reservedE :
    (nextOf (exec .reservedE (busy .decode (Req.plain 0xE#4) []))).map (fun t => t.out.rsp.pack) =
      some 0x1 := by decide

theorem test_reservedF :
    (nextOf (exec .reservedF (busy .decode (Req.plain 0xF#4) []))).map (fun t => t.out.rsp.pack) =
      some 0x1 := by decide

/-- V-T4: the second byte of WRITESTATUS is the word's lowest. -/
theorem test_wireWriteStatus_sends :
    (nextOf (exec (.wireWriteStatus 0xA1B2C3D4#32)
        (sending (.writeStatus 0xA1B2C3D4#32) (.body 1 false) []))).map
        (fun t => (t.out.sxStart, t.out.sxTx)) = some (true, 0xD4#8) := by decide

/-- R111: the first edge of a transaction asserts the select line. -/
theorem test_wireWriteData_asserts :
    (nextOf (exec (.wireWriteData countFrame) (sending (.writeData countFrame) .startAssert []))).map
        (fun t => t.ss) = some .asserted := by decide

/-- R117: exchange 2 of WRITEDATA sends payload byte 0. -/
theorem test_wireWriteData_sends :
    (nextOf (exec (.wireWriteData countFrame) (sending (.writeData countFrame) (.body 2 false) []))).map
        (fun t => t.out.sxTx) = some 0x01#8 := by decide

/-- R116: the MISO byte of the address exchange is discarded. -/
theorem test_wireReadData_discards :
    (nextOf (exec .wireReadData (withEnv (sending .readData (.body 1 true) []) [] [] [some 0x77#8] []))).map
        (fun t => (t.seq.asm, t.trace)) = some ([], [.x 0x00#8 0x77#8]) := by decide

/-- R116: frame byte 0 is captured at exchange 2. -/
theorem test_wireReadData_captures :
    (nextOf (exec .wireReadData (withEnv (sending .readData (.body 2 true) []) [] [] [some 0xDF#8] []))).map
        (fun t => t.seq.asm) = some [0xDF#8] := by decide

/-- V-T1: the last status byte ends the body. -/
theorem test_wireReadStatus_ends :
    (nextOf (exec .wireReadStatus (withEnv (sending .readStatus (.body 4 true) [0x78#8, 0x56#8, 0x34#8])
        [] [] [some 0x12#8] []))).map (fun t => (t.seq.asm, t.seq.txn)) =
      some ([0x78#8, 0x56#8, 0x34#8, 0x12#8], some ⟨.readStatus, .endAssert⟩) := by decide

/-- R112: the last cycle of the end pulse: END, and the transaction returns. -/
theorem test_wireReadStatus_returns :
    (nextOf (exec .wireReadStatus { sending .readStatus .endAssert [] with ss := .asserted })).map
        (fun t => (t.ss, t.trace, t.seq.txn)) = some (.deasserted, [.stop], none) := by decide

/-- R44: a byte not written since reset has no value. -/
theorem test_unwritten_byte :
    faultOf (exec .readByte { busy (.respond .deliver) (Req.plain 0xB#4) [] with rxCur := 3 }) =
      some .unwrittenByte := by decide

/-- V-X3: AVAIL as the first operation after reset: accepted, it answers at DECODE. -/
theorem test_step_first_avail :
    (nextOf (step (State.reset.withFetchWord 8 0xC))).map (fun t => t.trace) =
      some [.rsp { byte := 0#8 }, .req (Req.plain 0xC#4)] := by decide

/-- A wire body runs as the transaction in flight. -/
theorem test_step_first_wire :
    (nextOf (step (base.withFetchWord 40 0xA1B2C3D401))).map (fun t => (t.ss, t.seq.txn)) =
      some (.asserted, some ⟨.writeStatus 0xA1B2C3D4#32, .startAssert⟩) := by decide

/-- V-X2: rst inside a transaction: no END, no RSP, the line deasserted. -/
theorem test_step_reset :
    (nextOf (step (withEnv { sending (.writeData countFrame) (.body 10 true) [] with txCur := 31 }
        [true] [] [some 0#8] []))).map (fun t => (t.ss, t.trace, t.txCur, t.reqReady false)) =
      some (.deasserted, [], 0, true) := by decide

/-! ### Witnesses: the hypotheses of each statement of Certificates/Slice0/Obligations.lean are met -/

/-- A request with every field set. -/
def fullReq (op : BitVec 4) : Req :=
  { op := op, a8 := 0x03#8, a32 := 0x00010BB8#32, frame := frameBitsOf (0xDF#8 :: countFrame.take 31) }

/-- An idle block to which q is presented, with the answers of its peer and Timer. -/
def presented (q : Req) (serial : List (Option Byte)) (timer : List Ms) : State :=
  withEnv base [] [some q] serial timer

/-- Exchanges answered at once by the given bytes. -/
def now0 (bs : List Byte) : List (Nat × Byte) := bs.map (fun b => (0, b))

/-- A status read with a discarded byte, answered so that the status word is w. -/
def statusWs (w : Word) : List (Nat × Byte) := (2, 0xAA#8) :: now0 (wordBytes w)

/-- A frame read answered with F. -/
def frameWs (F : List Byte) : List (Nat × Byte) := (1, 0xAA#8) :: (0, 0xBB#8) :: now0 F

/-- V-I1's frame. -/
def helloFrame : List Byte := 0xDF#8 :: 0x48#8 :: 0x69#8 :: List.replicate 29 0x00#8

/-- An all-zero frame: its indicator is not valid. -/
def zeroFrame : List Byte := List.replicate 32 0x00#8

/-- A memory that holds the given bytes from index 0. -/
def memOf (bs : List Byte) : Mem := Mem.writeAll [] 0 bs

theorem witness_RequestEncodingRoundTrips :
    WellFormed (.wrData 40#8 countFrame) ∧ (Instr.wrData 40#8 countFrame).format = .request := by decide

theorem witness_WireEncodingRoundTrips :
    WellFormed (.wireWriteData countFrame) ∧ (Instr.wireWriteData countFrame).format = .wire := by decide

theorem witness_WireStreamSplitsAtBody : cmdWf (.writeData countFrame) := rfl

/-- WR_DATA 3: the frames differ beyond byte 2, and a32 differs. -/
theorem witness_UnusedOperandsIgnored_data :
    let p := fullReq 0x2#4
    let q := { fullReq 0x2#4 with a32 := 0#32, frame := frameBitsOf [0xDF#8, 0x01#8, 0x02#8] }
    p ≠ q ∧ p.op = q.op ∧ (p.op = 0x1#4 → p.a32 = q.a32) ∧
      (p.op = 0x5#4 ∨ p.op = 0x6#4 → p.a32.extractLsb' 0 16 = q.a32.extractLsb' 0 16) ∧
      (p.op = 0x8#4 → p.a8 = q.a8) ∧
      (p.op = 0x2#4 → p.a8 = q.a8 ∧
        ∀ k, k < min p.a8.toNat 32 → p.frame.extractLsb' (8 * k) 8 = q.frame.extractLsb' (8 * k) 8) := by
  decide

/-- WAIT_RX: a32 differs above bit 15 (V-W10). -/
theorem witness_UnusedOperandsIgnored_wait :
    let p := fullReq 0x5#4
    let q := { Req.plain 0x5#4 with a32 := 0x00000BB8#32 }
    p ≠ q ∧ p.op = q.op ∧ (p.op = 0x1#4 → p.a32 = q.a32) ∧
      (p.op = 0x5#4 ∨ p.op = 0x6#4 → p.a32.extractLsb' 0 16 = q.a32.extractLsb' 0 16) ∧
      (p.op = 0x8#4 → p.a8 = q.a8) ∧
      (p.op = 0x2#4 → p.a8 = q.a8 ∧
        ∀ k, k < min p.a8.toNat 32 → p.frame.extractLsb' (8 * k) 8 = q.frame.extractLsb' (8 * k) 8) := by
  decide

/-- WR_STATUS and WRITE_BYTE: only a32, only a8. -/
theorem witness_UnusedOperandsIgnored_scalars :
    fullReq 0x1#4 ≠ { Req.plain 0x1#4 with a32 := 0x00010BB8#32 } ∧
      (fullReq 0x1#4).a32 = ({ Req.plain 0x1#4 with a32 := 0x00010BB8#32 } : Req).a32 ∧
      fullReq 0x8#4 ≠ { Req.plain 0x8#4 with a8 := 0x03#8 } ∧
      (fullReq 0x8#4).a8 = ({ Req.plain 0x8#4 with a8 := 0x03#8 } : Req).a8 := by decide

theorem witness_WireBodiesAsTabulated : countFrame.length = 32 := by decide

/-- The least and the greatest elapsed time that is measured exactly. -/
theorem witness_ElapsedAcrossWrap : (0 : Nat) < 2 ^ 32 ∧ 4294967295 < 2 ^ 32 := by decide

/-- One state for each clause. -/
theorem witness_StepRunsDecodedInstruction :
    (withEnv base [true] [] [] []).env.rst = true :: [] ∧
      (let s := withEnv base [false] [some (Req.plain 0xC#4)] [] []
       s.env.rst = false :: [] ∧ s.seq.phase = .idle ∧ s.env.requests = some (Req.plain 0xC#4) :: []) ∧
      (let s := withEnv base [false] [none] [] []
       s.env.rst = false :: [] ∧ s.seq.phase = .idle ∧ s.env.requests = none :: []) ∧
      (let s := withEnv (sending .readStatus .startAssert []) [false] [] [] []
       s.env.rst = false :: [] ∧ s.seq.phase ≠ .idle ∧ s.seq.txn = some ⟨.readStatus, .startAssert⟩) ∧
      (let s := withEnv (busy (.respond .collect) (Req.plain 0x1#4) []) [false] [] [] []
       s.env.rst = false :: [] ∧ s.seq.phase ≠ .idle ∧ s.seq.txn = none) := by decide

theorem witness_RstAbortsEverything :
    (withEnv (sending (.writeData countFrame) (.body 10 true) []) [true] [] [] []).env.rst = true :: [] := rfl

/-- R37: after the acceptance edge the request is latched and req_ready is 0; the response comes later. -/
theorem test_step_accepts :
    (nextOf (step (withEnv base [false] [some (Req.plain 0xC#4)] [] []))).map
        (fun t => (t.trace, t.seq.req, t.reqReady false, t.out.rspValid)) =
      some ([.req (Req.plain 0xC#4)], Req.plain 0xC#4, false, false) := by decide

/-- An edge for each clause: RSP, YIELD, WARN, a byte started, an acceptance. -/
theorem witness_EdgeEventsMatchPulses :
    (∃ t, step (withEnv (busy (.respond (.send Rsp.ack)) (Req.plain 0x9#4) []) [false] [] [] []) = .next t ∧
        t.trace = [.rsp Rsp.ack]) ∧
      (∃ t, step (withEnv (busy (.waitLoop .yieldNext) (fullReq 0x5#4) []) [false] [] [] []) = .next t ∧
        t.trace = [.yielded]) ∧
      (∃ t, step (withEnv (busy (.waitLoop .warn) (fullReq 0x6#4) []) [false] [] [] []) = .next t ∧
        t.trace = [.warn 1#1]) ∧
      (∃ t, step (withEnv (sending .readStatus (.body 0 false) []) [false] [] [] []) = .next t ∧
        t.seq.txn = some ⟨.readStatus, .body 0 true⟩) ∧
      ∃ t, step (withEnv base [false] [some (Req.plain 0xC#4)] [] []) = .next t ∧
        t.trace = [.req (Req.plain 0xC#4)] :=
  ⟨⟨_, rfl, rfl⟩, ⟨_, rfl, rfl⟩, ⟨_, rfl, rfl⟩, ⟨_, rfl, rfl⟩, _, rfl, rfl⟩

theorem witness_BusyAcceptsNothing :
    let s := withEnv (busy (.respond (.send Rsp.ack)) (Req.plain 0x9#4) []) [false] [] [] []
    s.seq.phase ≠ .idle ∧ ∃ t, step s = .next t :=
  ⟨by decide, _, rfl⟩

/-- RD_STATUS in the second exchange of its READSTATUS. -/
def midway : State :=
  withEnv { sending .readStatus (.body 1 true) [] with trace := [.x 0x04#8 0xAA#8, .start, .req (Req.plain 0x4#4)] }
    [false] [] [some 0x78#8] []

theorem midway_inv : MachineInv midway := by
  refine ⟨⟨Or.inr rfl, trivial, rfl, by decide, rfl, rfl⟩, ⟨⟨by decide, trivial⟩, Or.inl rfl⟩, ?_, ?_, ?_, ?_⟩
  · intro i hi; exact absurd hi (Nat.not_lt_zero i)
  · intro h; cases h
  · intro h; exact absurd rfl h
  · intro h; cases h

theorem witness_StepKeepsSequencerInv : MachineInv midway ∧ ∃ t, step midway = .next t :=
  ⟨midway_inv, _, rfl⟩

theorem witness_InvariantNeverStops : MachineInv midway := midway_inv

/-- A WRITE_BYTE about to store. -/
theorem witness_StepKeepsMemoryCanonical :
    let s := withEnv { busy (.respond .append) (fullReq 0x8#4) [] with
      txBuf := [(0, 0x41#8), (1, 0x42#8)], txCur := 2, rxBuf := [(0, 0xDF#8), (1, 0x48#8)] } [false] [] [] []
    MemInv s ∧ ∃ t, step s = .next t :=
  ⟨⟨by decide, by decide, by decide, by decide⟩, _, rfl⟩

theorem witness_StepKeepsTransactionsWhole : WireInv midway ∧ ∃ t, step midway = .next t := by
  refine ⟨⟨⟨rfl, trivial⟩, ?_⟩, _, rfl⟩
  intro t ht
  obtain rfl : (⟨.readStatus, .body 1 true⟩ : Txn) = t := Option.some.inj ht
  exact ⟨trivial, by decide, rfl⟩

theorem witness_StepKeepsOneReplyPerRequest : ReplyInv midway ∧ ∃ t, step midway = .next t :=
  ⟨⟨trivial, fun _ => rfl⟩, _, rfl⟩

/-- READ_BYTE between the fetch and the delivery of byte 1: rx_cur = 1. -/
def fetched : State :=
  { busy (.respond .deliver) (Req.plain 0xB#4) helloFrame with rxBuf := memOf helloFrame, rxCur := 1 }

theorem fetched_inv : MachineInv fetched := by
  refine ⟨⟨Or.inr rfl, rfl, fun n h => by cases h⟩, ⟨⟨by decide, rfl⟩, by decide, by decide⟩, ?_, ?_, ?_, ?_⟩
  · intro i hi; exact absurd hi (Nat.not_lt_zero i)
  · intro h; cases h
  · intro _; unfold Written; decide
  · intro h; cases h

/-- Inside a READ_BYTE with rx_cur = 1, and, two edges later, idle. -/
theorem witness_CursorsBetweenOperations :
    (MachineInv fetched ∧ runEdges 0 fetched = .next fetched ∧ fetched.rxCur = 1) ∧
      ∃ t, runEdges 2 fetched = .next t ∧ t.seq.phase = .idle :=
  ⟨⟨fetched_inv, rfl, rfl⟩, _, rfl, rfl⟩

theorem witness_SelectLineOnlyInPulses :
    let s := withEnv (sending .readStatus .startAssert []) [false] [] [] []
    MachineInv s ∧ ∃ t, step s = .next t ∧ t.ss = .asserted := by
  refine ⟨⟨⟨Or.inr rfl, trivial, rfl, rfl⟩, ⟨⟨by decide, trivial⟩, Or.inl rfl⟩, ?_, ?_, ?_, ?_⟩, _, rfl, rfl⟩
  · intro i hi; exact absurd hi (Nat.not_lt_zero i)
  · intro h; cases h
  · intro h; exact absurd rfl h
  · intro h; cases h

theorem witness_OnlyMultiplexerWritesBuffers :
    (∀ b, Instr.rdData ≠ .writeByte b) ∧ Instr.rdData ≠ .flushFin ∧ Instr.rdData ≠ .flushCont ∧
      Instr.rdData ≠ .readByte ∧
      ∃ t, exec .rdData (busy (.respond .collect) (Req.plain 0x3#4) helloFrame) = .next t :=
  ⟨fun _ h => Instr.noConfusion h, by decide, by decide, by decide, _, rfl⟩

/-- At a place that samples t0, at a store, and at one that does neither. -/
theorem witness_OperationFrame :
    (∃ t, exec .readByte (withEnv (busy (.rxPoll .sampleT0) (Req.plain 0xB#4) []) [] [] [] [40#32]) = .next t) ∧
      (∃ t, exec .readByte (busy (.rxPoll .store) (Req.plain 0xB#4) helloFrame) = .next t) ∧
      (∃ t, exec (.writeByte 0x41#8) (busy (.respond .append) (Req.plain 0x8#4) []) = .next t) ∧
      Instr.readByte.format = .request ∧ (Instr.writeByte 0x41#8).format = .request :=
  ⟨⟨_, rfl⟩, ⟨_, rfl⟩, ⟨_, rfl⟩, rfl, rfl⟩

theorem witness_WireCommandFrame :
    Instr.wireReadStatus.format = .wire ∧
      ∃ t, exec .wireReadStatus (withEnv (sending .readStatus (.body 4 true) []) [] [] [some 0x12#8] []) =
        .next t :=
  ⟨rfl, _, rfl⟩

theorem witness_WriteByteFrame :
    ∃ t, exec (.writeByte 0x41#8) (busy (.respond .append) (fullReq 0x8#4) []) = .next t :=
  ⟨_, rfl⟩

theorem witness_FlushFrame :
    (∃ t, exec .flushFin { busy (.flushSend .clear) (Req.plain 0x9#4) [] with txCur := 1 } = .next t) ∧
      ∃ t, exec .flushCont { busy (.flushSend .clear) (Req.plain 0xA#4) [] with txCur := 31 } = .next t :=
  ⟨⟨_, rfl⟩, _, rfl⟩

/-- Both places that store a frame, and one that does not. -/
theorem witness_ReadByteFrame :
    (∃ t, exec .readByte (busy (.rxContFetch .store) (Req.plain 0xB#4) helloFrame) = .next t) ∧
      (∃ t, exec .readByte (busy (.rxPoll .store) (Req.plain 0xB#4) helloFrame) = .next t) ∧
      ∃ t, exec .readByte fetched = .next t :=
  ⟨⟨_, rfl⟩, ⟨_, rfl⟩, _, rfl⟩

/-- DECODE, at each of the four interesting values of rx_cur (V-I7). -/
theorem witness_AvailAnswers :
    ∀ n ∈ [0, 2, 31, 32], ({ busy .decode (Req.plain 0xC#4) [] with rxCur := n } : State).seq.phase = .decode := by
  decide

theorem witness_ReservedCodesAnswerIllegal : (busy .decode (fullReq 0xF#4) []).seq.phase = .decode := rfl

/-- WR_DATA with a8 = 0 and with a8 beyond 32. -/
theorem witness_RawOperationsEnterTransaction :
    (busy .decode (fullReq 0x2#4) []).seq.phase = .decode ∧ countFrame.length = 32 ∧
      min (0#8 : Byte).toNat 32 = 0 ∧ min (40#8 : Byte).toNat 32 = 32 := by decide

theorem witness_RawOperationsAnswer :
    (busy (.respond .collect) (Req.plain 0x3#4) helloFrame).seq.phase = .respond .collect ∧
      (busy (.respond .collect) (Req.plain 0x3#4) helloFrame).seq.asm.length = 32 ∧
      (busy (.respond .collect) (Req.plain 0x4#4) [0x78#8, 0x56#8, 0x34#8, 0x12#8]).seq.asm =
        [0x78#8, 0x56#8, 0x34#8, 0x12#8] := by decide

/-- READY, and not READY with a Timer sample to come, for both fields. -/
theorem witness_WaitTestsReadyFirst :
    (let s := withEnv (busy (.waitLoop .test) (fullReq 0x5#4) [0#8, 0#8, 0#8, 0x10#8]) [] [] [] [5#32]
     s.seq.phase = .waitLoop .test ∧ s.seq.asm = [0#8, 0#8, 0#8, 0x10#8] ∧ s.env.timer = 5#32 :: [] ∧
       (0x10#8 : Byte).extractLsb' 4 4 = 0x1#4 ∧ (0x10#8 : Byte).extractLsb' 0 4 ≠ 0x1#4) := by decide

theorem witness_RespondEndsOperation :
    (busy (.respond (.send { byte := 0x6C#8 })) (Req.plain 0xB#4) []).seq.phase =
      .respond (.send { byte := 0x6C#8 }) := rfl

/-- DECODE; append into the last free byte; advance. -/
theorem witness_WriteByteAppends :
    (busy .decode (fullReq 0x8#4) []).seq.phase = .decode ∧
      (let s : State := { busy (.respond .append) (fullReq 0x8#4) [] with txCur := 30 }
       s.seq.phase = .respond .append ∧ s.txCur < 31) ∧
      (busy (.respond .advance) (fullReq 0x8#4) []).seq.phase = .respond .advance := by decide

theorem witness_FlushOfEmptyBufferIsSilent :
    (busy .decode (Req.plain 0x9#4) []).seq.phase = .decode ∧ (busy .decode (Req.plain 0x9#4) []).txCur = 0 := by
  decide

/-- One pending byte and a full buffer; the return from WRITEDATA. -/
theorem witness_FlushSendsPendingBytes :
    (∀ data ∈ [[0x55#8], countFrame.take 31],
      let s : State := { busy (.flushSend .issue) (Req.plain 0x9#4) [] with
        txBuf := memOf data, txCur := data.length }
      s.seq.phase = .flushSend .issue ∧ data.length = s.txCur ∧ s.txCur ≤ 31 ∧
        ∀ k, k < data.length → s.txBuf.read k = data[k]?) ∧
      (busy (.flushSend .clear) (Req.plain 0x9#4) []).seq.phase = .flushSend .clear := by decide

/-- A consumed frame with each indicator; no frame; a frame half read. -/
theorem witness_ReadByteChoosesItsPath :
    ∀ n ∈ [0, 2, 31, 32], ∀ ind ∈ [0xDC#8, 0xDF#8],
      let s : State := { busy .decode (Req.plain 0xB#4) [] with rxBuf := memOf (ind :: countFrame.take 31), rxCur := n }
      s.seq.phase = .decode ∧ (s.rxCur = 32 → s.rxBuf.read 0 = some ind) := by decide

/-- The first and the last data byte. -/
theorem witness_ReadByteDeliversAtCursor :
    ∀ n ∈ [1, 31],
      let s : State := { busy (.respond .deliver) (Req.plain 0xB#4) [] with
        rxBuf := memOf (0xDF#8 :: countFrame.take 31), rxCur := n }
      s.seq.phase = .respond .deliver ∧ s.rxCur < 32 ∧ s.rxBuf.read s.rxCur = some (BitVec.ofNat 8 n) := by
  decide

/-- Every place of the three clauses, and a valid and an invalid indicator. -/
theorem witness_FetchedFrameIsStored :
    (∀ ind ∈ [0xDF#8, 0xDC#8, 0x00#8],
      ∀ p ∈ [Phase.rxPoll .store, .rxContFetch .store, .rxPoll .setCur, .rxContFetch .setCur],
        (busy p (Req.plain 0xB#4) (ind :: countFrame.take 31)).seq.phase = p ∧
          (busy p (Req.plain 0xB#4) (ind :: countFrame.take 31)).seq.asm = ind :: countFrame.take 31) ∧
      (countFrame.take 31).length = 31 := by decide

/-- The first exchange of READSTATUS and the last of READDATA; started, waiting, answered. -/
theorem witness_WireExchangeMovesOneByte :
    (wireBody .readStatus)[0]? = some 0x04#8 ∧ (wireBody .readData)[33]? = some 0x00#8 ∧
      (sending .readStatus (.body 0 false) []).seq.txn = some ⟨.readStatus, .body 0 false⟩ ∧
      (let s := withEnv (sending .readData (.body 33 true) []) [] [] [none] []
       s.seq.txn = some ⟨.readData, .body 33 true⟩ ∧ s.env.serial = none :: []) ∧
      (let s := withEnv (sending .readData (.body 33 true) []) [] [] [some 0x1F#8] []
       s.seq.txn = some ⟨.readData, .body 33 true⟩ ∧ s.env.serial = some 0x1F#8 :: []) := by decide

/-- The last cycle of the end pulse; the end of the body. -/
theorem witness_WireCommandReturnsAfterEndPulse :
    (let s : State := { sending .readStatus .endAssert [] with ss := .asserted }
     s.seq.txn = some ⟨.readStatus, .endAssert⟩ ∧ s.ss = .asserted ∧ s.seq.dur ≤ 1) ∧
      let s := sending .readStatus .endAssert []
      s.seq.txn = some ⟨.readStatus, .endAssert⟩ ∧ s.ss = .deasserted ∧ s.seq.phase ≠ .idle := by decide

theorem witness_StartPulseTiming :
    let s := sending .readStatus .startAssert []
    s.seq.phase ≠ .idle ∧ s.seq.txn = some ⟨.readStatus, .startAssert⟩ ∧ s.ss = .deasserted := by decide

theorem witness_TransactionRunsWhole :
    let s := withEnv (sending .readStatus .startAssert []) [] [] (answers (statusWs 0x12345678#32) ++ []) []
    s.seq.phase ≠ .idle ∧ s.seq.txn = some ⟨.readStatus, .startAssert⟩ ∧ s.ss = .deasserted ∧ s.seq.asm = [] ∧
      cmdWf .readStatus ∧ (statusWs 0x12345678#32).length = (wireBody .readStatus).length ∧
      s.env.serial = answers (statusWs 0x12345678#32) ++ [] :=
  ⟨by decide, rfl, rfl, rfl, trivial, by decide, rfl⟩

/-- V-T1. -/
theorem witness_RdStatusPerforms :
    let s := presented (Req.plain 0x4#4) (answers (statusWs 0x12345678#32)) []
    Presents s (Req.plain 0x4#4) ∧ (Req.plain 0x4#4).op = 0x4#4 ∧
      misoOf (statusWs 0x12345678#32) = [0xAA#8, 0x78#8, 0x56#8, 0x34#8, 0x12#8] ∧
      s.env.serial = answers (statusWs 0x12345678#32) ++ [] :=
  ⟨⟨rfl, rfl, rfl, _, rfl⟩, rfl, by decide, by decide⟩

/-- V-T4. -/
theorem witness_WrStatusPerforms :
    let q : Req := { Req.plain 0x1#4 with a32 := 0xA1B2C3D4#32 }
    let s := presented q (answers (now0 [1#8, 2#8, 3#8, 4#8, 5#8])) []
    Presents s q ∧ q.op = 0x1#4 ∧ misoOf (now0 [1#8, 2#8, 3#8, 4#8, 5#8]) = [1#8, 2#8, 3#8, 4#8, 5#8] ∧
      s.env.serial = answers (now0 [1#8, 2#8, 3#8, 4#8, 5#8]) ++ [] :=
  ⟨⟨rfl, rfl, rfl, _, rfl⟩, rfl, by decide, by decide⟩

theorem helloFrame_answered : frameAnswer (frameWs helloFrame) helloFrame :=
  ⟨by decide, 0xAA#8, 0xBB#8, by decide⟩

theorem witness_RdDataPerforms :
    let s := presented (Req.plain 0x3#4) (answers (frameWs helloFrame)) []
    Presents s (Req.plain 0x3#4) ∧ (Req.plain 0x3#4).op = 0x3#4 ∧ frameAnswer (frameWs helloFrame) helloFrame ∧
      s.env.serial = answers (frameWs helloFrame) ++ [] :=
  ⟨⟨rfl, rfl, rfl, _, rfl⟩, rfl, helloFrame_answered, by decide⟩

theorem witness_WrDataPerforms :
    let s := presented (fullReq 0x2#4) (answers (frameWs zeroFrame)) []
    Presents s (fullReq 0x2#4) ∧ (fullReq 0x2#4).op = 0x2#4 ∧ (frameWs zeroFrame).length = 34 ∧
      s.env.serial = answers (frameWs zeroFrame) ++ [] :=
  ⟨⟨rfl, rfl, rfl, _, rfl⟩, rfl, by decide, by decide⟩

/-- One turn that goes on, then READY (V-W7). -/
def readyRun : WaitRun :=
  { t0 := 0, turns := [⟨statusWs 0#32, 2999#32⟩], ws := statusWs 0x11000000#32, w := 0x11000000#32, late := none }

/-- Expiry at the first check (V-W9), at the whole budget of 3000 ms. -/
def lateRun : WaitRun :=
  { t0 := 7, turns := [], ws := statusWs 0x02000000#32, w := 0x02000000#32, late := some 3007#32 }

theorem readyRun_ok (sel : Sel) : readyRun.ok sel 3000 := by
  refine ⟨?_, ⟨0xAA#8, by decide⟩, ?_⟩
  · intro p hp
    obtain rfl : p = ⟨statusWs 0#32, 2999#32⟩ := List.mem_singleton.mp hp
    exact ⟨⟨0#32, ⟨0xAA#8, by decide⟩, by cases sel <;> decide⟩, by decide⟩
  · cases sel <;> rfl

theorem lateRun_ok (sel : Sel) : lateRun.ok sel 3000 := by
  refine ⟨?_, ⟨0xAA#8, by decide⟩, ?_, by decide⟩
  · intro p hp; cases hp
  · cases sel <;> decide

/-- WAIT_RX that gets READY, WAIT_TX that expires with the field 2 last read. -/
theorem witness_WaitsPerform :
    (let q := fullReq 0x5#4
     let s := presented q readyRun.serial readyRun.timer
     Presents s q ∧ q.op = 0x5#4 ∧ 0x1#4 = readyRun.w.extractLsb' 28 4 ∧
       readyRun.ok .rx (q.a32.extractLsb' 0 16).toNat ∧
       s.env.serial = readyRun.serial ++ [] ∧ s.env.timer = readyRun.timer ++ []) ∧
      (let q := fullReq 0x6#4
       let s := presented q lateRun.serial lateRun.timer
       Presents s q ∧ q.op = 0x6#4 ∧ 0x2#4 = lateRun.w.extractLsb' 24 4 ∧
         lateRun.ok .tx (q.a32.extractLsb' 0 16).toNat ∧
         s.env.serial = lateRun.serial ++ [] ∧ s.env.timer = lateRun.timer ++ []) :=
  ⟨⟨⟨rfl, rfl, rfl, _, rfl⟩, rfl, by decide, readyRun_ok .rx, by decide, by decide⟩,
    ⟨rfl, rfl, rfl, _, rfl⟩, rfl, by decide, lateRun_ok .tx, by decide, by decide⟩

/-- An empty buffer, and one with a single free byte. -/
theorem witness_WriteBytePerforms :
    Presents (presented (fullReq 0x8#4) [] []) (fullReq 0x8#4) ∧ (fullReq 0x8#4).op = 0x8#4 ∧
      (presented (fullReq 0x8#4) [] []).txCur < 31 ∧
      Presents { presented (fullReq 0x8#4) [] [] with txCur := 30 } (fullReq 0x8#4) ∧ 30 < 31 :=
  ⟨⟨rfl, rfl, rfl, _, rfl⟩, rfl, by decide, ⟨rfl, rfl, rfl, _, rfl⟩, by decide⟩

/-- A flush that sends after a soft timeout, its frame answered with zeros. -/
def lateFlush : FlushRun := { gate := lateRun, ws := frameWs zeroFrame }

theorem lateFlush_ok : lateFlush.ok := ⟨lateRun_ok .rx, by decide⟩

theorem witness_WriteByteToFullBufferFlushes :
    let data := countFrame.take 31
    let s : State := { presented (fullReq 0x8#4) (lateFlush.gate.serial ++ answers lateFlush.ws)
        lateFlush.gate.timer with txBuf := memOf data, txCur := 31 }
    Presents s (fullReq 0x8#4) ∧ (fullReq 0x8#4).op = 0x8#4 ∧ s.txCur = 31 ∧ data.length = 31 ∧
      Holds s.txBuf data ∧ lateFlush.ok ∧
      s.env.serial = lateFlush.gate.serial ++ answers lateFlush.ws ++ [] ∧
      s.env.timer = lateFlush.gate.timer ++ [] :=
  ⟨⟨rfl, rfl, rfl, _, rfl⟩, rfl, rfl, by decide, by unfold Holds; decide, lateFlush_ok, by decide, by decide⟩

/-- FLUSH_FIN with one pending byte, FLUSH_CONT with a full buffer. -/
theorem witness_FlushesPerform :
    (let data : List Byte := [0x55#8]
     let s : State := { presented (Req.plain 0x9#4) (lateFlush.gate.serial ++ answers lateFlush.ws)
         lateFlush.gate.timer with txBuf := memOf data, txCur := 1 }
     Presents s (Req.plain 0x9#4) ∧ (Req.plain 0x9#4).op = 0x9#4 ∧ 1 ≤ s.txCur ∧ s.txCur ≤ 31 ∧ data.length = s.txCur ∧ Holds s.txBuf data ∧
       lateFlush.ok ∧ s.env.serial = lateFlush.gate.serial ++ answers lateFlush.ws ++ [] ∧
       s.env.timer = lateFlush.gate.timer ++ []) ∧
      (let data := countFrame.take 31
       let s : State := { presented (Req.plain 0xA#4) (lateFlush.gate.serial ++ answers lateFlush.ws)
           lateFlush.gate.timer with txBuf := memOf data, txCur := 31 }
       Presents s (Req.plain 0xA#4) ∧ (Req.plain 0xA#4).op = 0xA#4 ∧ 1 ≤ s.txCur ∧ s.txCur ≤ 31 ∧ data.length = s.txCur ∧
         Holds s.txBuf data ∧ lateFlush.ok ∧
         s.env.serial = lateFlush.gate.serial ++ answers lateFlush.ws ++ [] ∧
         s.env.timer = lateFlush.gate.timer ++ []) :=
  ⟨⟨⟨rfl, rfl, rfl, _, rfl⟩, rfl, by decide, by decide, by decide, by unfold Holds; decide, lateFlush_ok, by decide,
      by decide⟩,
    ⟨rfl, rfl, rfl, _, rfl⟩, rfl, by decide, by decide, by decide, by unfold Holds; decide, lateFlush_ok, by decide,
      by decide⟩

/-- The first and the last data byte; the end of a FINISHED frame. -/
theorem witness_ReadByteWithoutFetch :
    (∀ n ∈ [1, 31],
      let s : State := { presented (Req.plain 0xB#4) [] [] with
        rxBuf := memOf (0xDF#8 :: countFrame.take 31), rxCur := n }
      1 ≤ s.rxCur ∧ s.rxCur ≤ 31 ∧ s.rxBuf.read s.rxCur = some (BitVec.ofNat 8 n)) ∧
      (let s : State := { presented (Req.plain 0xB#4) [] [] with
        rxBuf := memOf (0xDF#8 :: countFrame.take 31), rxCur := 32 }
       Presents s (Req.plain 0xB#4) ∧ s.rxCur = 32 ∧ s.rxBuf.read 0 = some 0xDF#8 ∧ (0xDF#8 : Byte) ≠ 0xDC#8) :=
  ⟨by decide, ⟨rfl, rfl, rfl, _, rfl⟩, rfl, by decide, by decide⟩

/-- V-I9: the fetch happens after a transmit-ready timeout too. -/
theorem witness_ReadByteContinuesMessage :
    let s : State := { presented (Req.plain 0xB#4) (lateRun.serial ++ answers (frameWs helloFrame)) lateRun.timer with
      rxBuf := memOf (0xDC#8 :: countFrame.take 31), rxCur := 32 }
    Presents s (Req.plain 0xB#4) ∧ s.rxCur = 32 ∧ s.rxBuf.read 0 = some 0xDC#8 ∧ lateRun.ok .tx 3000 ∧
      frameAnswer (frameWs helloFrame) helloFrame ∧ helloFrame[1]? = some 0x48#8 ∧
      s.env.serial = lateRun.serial ++ answers (frameWs helloFrame) ++ [] ∧
      s.env.timer = lateRun.timer ++ [] :=
  ⟨⟨rfl, rfl, rfl, _, rfl⟩, rfl, by decide, lateRun_ok .tx, helloFrame_answered, by decide, by decide, by decide⟩

/-- One invalid poll, then a valid one (V-I6). -/
def validPoll : PollRun :=
  { t0 := 0, turns := [⟨frameWs zeroFrame, 10#32⟩], ws := frameWs helloFrame, frame := helloFrame, late := none }

/-- Exhaustion at the whole budget of 1000 ms (V-I4). -/
def emptyPoll : PollRun :=
  { t0 := 0, turns := [⟨frameWs zeroFrame, 999#32⟩], ws := frameWs zeroFrame, frame := zeroFrame,
    late := some 1000#32 }

theorem zeroFrame_answered : frameAnswer (frameWs zeroFrame) zeroFrame :=
  ⟨by decide, 0xAA#8, 0xBB#8, by decide⟩

theorem zeroFrame_invalid : ¬ validFrame zeroFrame := by unfold validFrame; decide

theorem validPoll_ok : validPoll.ok := by
  refine ⟨?_, helloFrame_answered, Or.inl (by decide)⟩
  intro p hp
  obtain rfl : p = ⟨frameWs zeroFrame, 10#32⟩ := List.mem_singleton.mp hp
  exact ⟨⟨zeroFrame, zeroFrame_answered, zeroFrame_invalid⟩, by decide⟩

theorem emptyPoll_ok : emptyPoll.ok := by
  refine ⟨?_, zeroFrame_answered, zeroFrame_invalid, by decide⟩
  intro p hp
  obtain rfl : p = ⟨frameWs zeroFrame, 999#32⟩ := List.mem_singleton.mp hp
  exact ⟨⟨zeroFrame, zeroFrame_answered, zeroFrame_invalid⟩, by decide⟩

/-- Both ends of the poll. -/
theorem witness_ReadBytePollsForFrame :
    (let s := presented (Req.plain 0xB#4) validPoll.serial validPoll.timer
     Presents s (Req.plain 0xB#4) ∧ s.rxCur = 0 ∧ validPoll.ok ∧ validPoll.late = none ∧
       s.env.serial = validPoll.serial ++ [] ∧ s.env.timer = validPoll.timer ++ []) ∧
      (let s := presented (Req.plain 0xB#4) emptyPoll.serial emptyPoll.timer
       Presents s (Req.plain 0xB#4) ∧ s.rxCur = 0 ∧ emptyPoll.ok ∧ emptyPoll.late ≠ none ∧
         s.env.serial = emptyPoll.serial ++ [] ∧ s.env.timer = emptyPoll.timer ++ []) :=
  ⟨⟨⟨rfl, rfl, rfl, _, rfl⟩, rfl, validPoll_ok, rfl, by decide, by decide⟩,
    ⟨rfl, rfl, rfl, _, rfl⟩, rfl, emptyPoll_ok, by decide, by decide, by decide⟩

/-- rx_cur = 0, and the bounds of the range between operations. -/
theorem witness_AvailPerforms :
    (fullReq 0xC#4).op = 0xC#4 ∧ Presents { presented (fullReq 0xC#4) [] [] with rxCur := 0 } (fullReq 0xC#4) ∧
      Presents { presented (fullReq 0xC#4) [] [] with rxCur := 2 } (fullReq 0xC#4) ∧
      Presents { presented (fullReq 0xC#4) [] [] with rxCur := 32 } (fullReq 0xC#4) :=
  ⟨rfl, ⟨rfl, rfl, rfl, _, rfl⟩, ⟨rfl, rfl, rfl, _, rfl⟩, rfl, rfl, rfl, _, rfl⟩

theorem witness_ReservedRequestsPerform :
    ∀ op ∈ [0x0#4, 0x7#4, 0xD#4, 0xE#4, 0xF#4],
      (fullReq op).op = op ∧ Presents (presented (fullReq op) [] []) (fullReq op) :=
  fun _ _ => ⟨rfl, rfl, rfl, rfl, _, rfl⟩

theorem witness_EmptyFlushPerforms :
    ∀ op ∈ [0x9#4, 0xA#4], (fullReq op).op = op ∧ Presents (presented (fullReq op) [] []) (fullReq op) ∧
      (presented (fullReq op) [] []).txCur = 0 :=
  fun _ _ => ⟨rfl, ⟨rfl, rfl, rfl, _, rfl⟩, rfl⟩

theorem witness_FinishedFrameReadsInOrder :
    let F := helloFrame.drop 2
    let s := withEnv base [] (List.replicate 32 (some (Req.plain 0xB#4)) ++ []) (answers (frameWs helloFrame) ++ [])
      (40#32 :: [])
    s.seq.phase = .idle ∧ s.seq.txn = none ∧ s.ss = .deasserted ∧ s.rxCur = 0 ∧
      s.env.requests = List.replicate 32 (some (Req.plain 0xB#4)) ++ [] ∧
      frameAnswer (frameWs helloFrame) (0xDF#8 :: 0x48#8 :: F) ∧
      s.env.serial = answers (frameWs helloFrame) ++ [] ∧ s.env.timer = 40#32 :: [] :=
  ⟨rfl, rfl, rfl, rfl, rfl, helloFrame_answered, rfl, rfl⟩

/-- A message of 32 bytes: two frames (V-O4). -/
theorem witness_MessageIsFramed :
    let rs := [lateFlush, lateFlush]
    let s := withEnv base []
      (countFrame.map (fun b => some { Req.plain 0x8#4 with a8 := b }) ++ some (Req.plain 0x9#4) :: [])
      (rs.flatMap (fun r => r.gate.serial ++ answers r.ws) ++ []) (rs.flatMap (fun r => r.gate.timer) ++ [])
    s.seq.phase = .idle ∧ s.seq.txn = none ∧ s.ss = .deasserted ∧ s.txCur = 0 ∧ 1 ≤ countFrame.length ∧
      rs.length = frameCount countFrame.length ∧ (∀ r ∈ rs, r.ok) ∧
      s.env.requests =
        countFrame.map (fun b => some { Req.plain 0x8#4 with a8 := b }) ++ some (Req.plain 0x9#4) :: [] ∧
      s.env.serial = rs.flatMap (fun r => r.gate.serial ++ answers r.ws) ++ [] ∧
      s.env.timer = rs.flatMap (fun r => r.gate.timer) ++ [] := by
  refine ⟨rfl, rfl, rfl, rfl, by decide, by decide, ?_, rfl, rfl, rfl⟩
  intro r hr
  rcases List.mem_cons.mp hr with rfl | hr
  · exact lateFlush_ok
  · rcases List.mem_singleton.mp hr with rfl
    exact lateFlush_ok

/-! ### An endless run that meets both environment assumptions, and samples the Timer for ever -/

/-- The samples at edge n: WAIT_RX 3000 presented, the serializer answering 0x00, and a Timer that has advanced
by 65535 ms at the test of each wait (edge 18 of the 21 that a wait takes here). -/
def tick (n : Nat) : Ports :=
  { request := some (fullReq 0x5#4), serial := some 0x00#8, msNow := if n % 21 = 18 then 65535#32 else 0#32 }

/-- The sequencer in such a wait, with t0 = 0. -/
def waitSeq (p : Phase) (sub : Option TxnPhase) (captured : Nat) : Sequencer :=
  { phase := p, req := fullReq 0x5#4, txn := sub.map (fun t => ⟨.readStatus, t⟩), t0 := 0,
    asm := List.replicate captured 0x00#8, dur := 1 }

/-- The sequencer before each of the 21 edges of a wait: accept, DECODE, t0, start pulse, body, end pulse, test,
warning, response. -/
def waitSeqAt : Nat → Sequencer
  | 0 => waitSeq .idle none 0
  | 1 => waitSeq .decode none 0
  | 2 => waitSeq (.waitLoop .sampleT0) none 0
  | 3 | 4 => waitSeq (.waitLoop .test) (some .startAssert) 0
  | 5 => waitSeq (.waitLoop .test) (some .startGap) 0
  | 16 | 17 => waitSeq (.waitLoop .test) (some .endAssert) 4
  | 18 => waitSeq (.waitLoop .test) none 4
  | 19 => waitSeq (.waitLoop .warn) none 4
  | 20 => waitSeq (.respond (.send {})) none 4
  | j => waitSeq (.waitLoop .test) (some (.body ((j - 6) / 2) (j % 2 == 1))) ((j - 6) / 2 - 1)

/-- The select line before each of them. -/
def waitSsAt (j : Nat) : SelectLine := if j = 4 ∨ j = 17 then .asserted else .deasserted

/-- The block stands before edge j of a wait. -/
def Waits (j : Nat) (s : State) : Prop := s.seq = waitSeqAt j ∧ s.ss = waitSsAt j ∧ s.clkHz = 1

/-- Edge j takes a block that stands before it to the next edge of the wait; edge 18 samples the Timer. -/
def WaitEdge (j : Nat) : Prop :=
  ∀ s, Waits j s → ∃ t, step (s.drive (tick j)) = .next t ∧ Waits ((j + 1) % 21) t ∧
    (j = 18 → t.trace = .now 65535#32 :: s.trace)

theorem assert_cycles : cyclesOf Config.tSsAssert 1 = 1 := by decide

theorem gap_cycles : cyclesOf Config.tSsGap 1 = 1 := by decide

/-- The serializer has answered zeros: the field is BUSY. -/
theorem lastField_silent {s : State} (h : s.seq.asm = List.replicate 4 0x00#8) : lastField .rx s = 0 := by
  rw [lastField, h]; decide

/-- At the test of such a wait every budget has expired. -/
theorem waitReady_late {budget : Nat} {here : WaitAt → Phase} {back : BitVec 4 → Phase} {s : State}
    (h : s.seq.asm = List.replicate 4 0x00#8) (h0 : s.seq.t0 = 0) (ht : s.now.1 = 65535#32) (hb : budget ≤ 65535) :
    waitReady .rx budget here back .test s = s.now.2.goto (here .warn) := by
  have he : expired 0 65535#32 budget = true := decide_eq_true hb
  simp only [waitReady, lastField_silent h, h0, ht, he]
  rfl

/-- The edges that load the duration counter: T_SS_ASSERT and T_SS_GAP are one cycle each at this CLK_HZ. -/
theorem waits_loads (j : Nat) (h : j = 3 ∨ j = 4 ∨ j = 16) : WaitEdge j := by
  rintro ⟨_, _, _, _, _, _, _, _, _, _⟩ ⟨rfl, rfl, rfl⟩
  rcases h with rfl | rfl | rfl <;> refine ⟨_, rfl, ⟨?_, rfl, rfl⟩, fun e => absurd e (by decide)⟩
  · exact congrArg (Sequencer.mk _ _ _ _ _) assert_cycles
  · exact congrArg (Sequencer.mk _ _ _ _ _) gap_cycles
  · exact congrArg (Sequencer.mk _ _ _ _ _) assert_cycles

theorem waits_test : WaitEdge 18 := by
  rintro ⟨_, _, _, _, _, _, _, _, _, _⟩ ⟨rfl, rfl, rfl⟩
  exact ⟨_, congrArg Host.Outcome.next (waitReady_late rfl rfl rfl (Nat.le_of_lt_succ (BitVec.isLt _))),
    ⟨rfl, rfl, rfl⟩, fun _ => rfl⟩

theorem waits_warn : WaitEdge 19 := by
  rintro ⟨_, _, _, _, _, _, _, _, _, _⟩ ⟨rfl, rfl, rfl⟩
  refine ⟨_, rfl, ⟨?_, rfl, rfl⟩, fun e => absurd e (by decide)⟩
  show Sequencer.mk (.respond (.send (fieldResponse (lastField .rx _)))) _ _ _ _ _ = _
  rw [lastField_silent rfl]
  rfl

theorem waits_edge (j : Nat) (h : j < 21) : WaitEdge j := by
  by_cases h1 : j = 3 ∨ j = 4 ∨ j = 16
  · exact waits_loads j h1
  by_cases h2 : j = 18
  · exact h2 ▸ waits_test
  by_cases h3 : j = 19
  · exact h3 ▸ waits_warn
  rintro ⟨_, _, _, _, _, _, _, _, _, _⟩ ⟨rfl, rfl, rfl⟩
  interval_cases j <;> first
    | exact absurd (by decide) h1
    | exact absurd rfl h2
    | exact absurd rfl h3
    | exact ⟨_, rfl, ⟨rfl, rfl, rfl⟩, fun e => absurd e (by decide)⟩

/-- The endless run from idle: one expired wait after the other. -/
def waitingRun : Nat → State
  | 0 => { State.reset with seq := waitSeqAt 0, clkHz := 1 }
  | n + 1 => (nextOf (step ((waitingRun n).drive (tick n)))).getD State.reset

/-- Edge n of the run is the edge of a wait that its number says. -/
theorem waitingRun_edge {n : Nat} (w : Waits (n % 21) (waitingRun n)) :
    step ((waitingRun n).drive (tick n)) = .next (waitingRun (n + 1)) ∧ Waits ((n + 1) % 21) (waitingRun (n + 1)) ∧
      (n % 21 = 18 → (waitingRun (n + 1)).trace = .now 65535#32 :: (waitingRun n).trace) := by
  obtain ⟨t, e, ht⟩ := waits_edge (n % 21) (Nat.mod_lt n (by decide)) _ w
  rw [Nat.mod_add_mod] at ht
  have hr : step ((waitingRun n).drive (tick n)) = .next t := by rw [← e]; simp [tick]
  rw [show waitingRun (n + 1) = t by rw [waitingRun, hr]; rfl]
  exact ⟨hr, ht⟩

theorem waitingRun_waits (n : Nat) : Waits (n % 21) (waitingRun n) := by
  induction n with
  | zero => exact ⟨rfl, rfl, rfl⟩
  | succ n ih => exact (waitingRun_edge ih).2.1

theorem waitingRun_samples (k : Nat) : SamplesTimer tick waitingRun (21 * k + 18) := by
  have hm : (21 * k + 18) % 21 = 18 := by omega
  rw [SamplesTimer, (waitingRun_edge (waitingRun_waits _)).2.2 hm]
  simp [tick, hm]

theorem waitSeqAt_t0 (j : Nat) : (waitSeqAt j).t0 = 0 := by
  unfold waitSeqAt
  split <;> rfl

theorem waitingRun_inv : MachineInv (waitingRun 0) := by
  refine ⟨⟨Or.inl rfl, rfl, ?_⟩, ⟨⟨by decide, trivial⟩, Or.inl rfl⟩, ?_, ?_, ?_, ?_⟩
  · intro n h; cases h; rfl
  · intro i hi; exact absurd hi (Nat.not_lt_zero i)
  · intro h; cases h
  · intro h; exact absurd rfl h
  · intro h; cases h

/-- A run that meets both assumptions, samples the Timer again and again, and has operations in flight. -/
theorem witness_OperationsEndInFairRuns :
    EndlessRun tick waitingRun ∧ MachineInv (waitingRun 0) ∧ SerializerAnswers tick waitingRun ∧
      TimerProgress tick waitingRun ∧ (∀ m, ∃ k, m ≤ k ∧ SamplesTimer tick waitingRun k) ∧
      (waitingRun 1).seq.phase ≠ .idle := by
  refine ⟨fun n => (waitingRun_edge (waitingRun_waits n)).1, waitingRun_inv,
    fun n _ => ⟨n, le_rfl, by simp [tick]⟩, ?_, fun m => ⟨21 * m + 18, by omega, waitingRun_samples m⟩, ?_⟩
  · intro n budget hb _
    refine ⟨21 * n + 18, by omega, waitingRun_samples n, ?_⟩
    rw [(waitingRun_waits n).1, waitSeqAt_t0]
    simpa [tick, show (21 * n + 18) % 21 = 18 by omega] using hb
  · rw [(waitingRun_waits 1).1]
    decide

end Sys2Proof.Tests
end

section
/-! PROOFS. R12, R13, R37 to R41: what an edge adds to the trace and how the one-cycle pulses show it; `respond(r)`. -/

namespace Sys2Proof.Machine

/-! ### respond(r) at the sending place -/

theorem consumerWait_send {s : State} {r : Rsp} (sel : Sel) (timeout : BitVec 16)
    (h : s.seq.phase = .respond (.send r)) : consumerWait sel timeout s = .next (s.respond r) := by
  simp [consumerWait, h]

theorem execWriteByte_send {s : State} {r : Rsp} (b : Byte) (h : s.seq.phase = .respond (.send r)) :
    execWriteByte b s = .next (s.respond r) := by
  simp [execWriteByte, h]

theorem flushOp_send {s : State} {r : Rsp} (ind : Byte) (h : s.seq.phase = .respond (.send r)) :
    flushOp ind s = .next (s.respond r) := by
  simp [flushOp, h]

theorem execReadByte_send {s : State} {r : Rsp} (h : s.seq.phase = .respond (.send r)) :
    execReadByte s = .next (s.respond r) := by
  simp [execReadByte, h]

/-- Settles O33: each of the six forms executes `State.respond` at the sending place. -/
theorem respondEndsOperation : Obligations.RespondEndsOperation := by
  intro i s r h hi
  have sends : exec i s = .next (s.respond r) := by
    rcases hi with ⟨timeout, rfl⟩ | ⟨timeout, rfl⟩ | ⟨b, rfl⟩ | rfl | rfl | rfl
    · exact consumerWait_send .rx timeout h
    · exact consumerWait_send .tx timeout h
    · exact execWriteByte_send b h
    · exact flushOp_send Config.indFinished h
    · exact flushOp_send Config.indContinues h
    · exact execReadByte_send h
  exact ⟨s.respond r, sends, ⟨rfl, rfl, rfl, rfl⟩, ⟨rfl, rfl, rfl, rfl⟩, ⟨rfl, rfl, rfl, rfl, rfl⟩,
    rfl, rfl, rfl, rfl⟩

/-! ### What the pulses show -/

/-- The events that have a one-cycle pulse of their own (R38, R41). -/
def Event.pulsed : Event → Bool
  | .rsp _ | .yielded | .warn _ => true
  | .req _ | .start | .stop | .x _ _ | .now _ => false

/-- No pulse is given in the cycle. -/
def Outputs.PulsesLow (o : Outputs) : Prop :=
  o.rspValid = false ∧ o.sxStart = false ∧ o.yieldO = false ∧ o.warnO = false

/-- The response, yield and warning ports show the events added at the edge, and no others. -/
structure PulsesShow (es : List Event) (o : Outputs) : Prop where
  rspValid : o.rspValid = true ↔ ∃ r, es = [.rsp r]
  rsp : ∀ r, es = [.rsp r] → o.rsp = r
  yieldO : o.yieldO = true ↔ es = [.yielded]
  warnO : o.warnO = true ↔ ∃ k, es = [.warn k]
  warnKind : ∀ k, es = [.warn k] → o.warnKind = k

/-- sx_start shows that the edge took the transaction from x to y by starting a byte, and sx_tx is that byte. -/
structure ShowsStart (x y : Option Txn) (o : Outputs) : Prop where
  sxStart : o.sxStart = true ↔ ∃ c k, x = some ⟨c, .body k false⟩ ∧ y = some ⟨c, .body k true⟩
  sxTx : o.sxStart = true → ∀ c k, x = some ⟨c, .body k false⟩ → (wireBody c)[k]? = some o.sxTx

/-- An edge from s to t adds the events es, at most one, and the ports show what it did. -/
structure EdgeShows (s t : State) (es : List Event) : Prop where
  trace : t.trace = es ++ s.trace
  atMostOne : es.length ≤ 1
  pulses : PulsesShow es t.out
  start : ShowsStart s.seq.txn t.seq.txn t.out

/-- An edge from s to t inside an operation: the ports show what it adds, which is no REQ. -/
def BusyEdgeShows (s t : State) : Prop := ∃ es, EdgeShows s t es ∧ ∀ q, Event.req q ∉ es

/-- Low pulses show events that have no pulse. -/
theorem PulsesShow.of_low {es : List Event} {o : Outputs} (low : o.PulsesLow)
    (silent : ∀ e ∈ es, e.pulsed = false) : PulsesShow es o := by
  obtain ⟨rspLow, -, yieldLow, warnLow⟩ := low
  have noPulse (e : Event) (he : e.pulsed = true) : es ≠ [e] := by
    rintro rfl
    simp [silent e] at he
  exact
    { rspValid := by simp [rspLow, noPulse _ (rfl : (Event.rsp _).pulsed = true)]
      rsp := fun r h => absurd h (noPulse _ rfl)
      yieldO := by simp [yieldLow, noPulse .yielded rfl]
      warnO := by simp [warnLow, noPulse _ (rfl : (Event.warn _).pulsed = true)]
      warnKind := fun k h => absurd h (noPulse _ rfl) }

/-- A low sx_start shows that no byte was started. -/
theorem ShowsStart.of_low {x y : Option Txn} {o : Outputs} (low : o.sxStart = false)
    (noStart : ∀ c k, x = some ⟨c, .body k false⟩ → y ≠ some ⟨c, .body k true⟩) : ShowsStart x y o where
  sxStart := by simpa [low] using noStart
  sxTx := by simp [low]

/-- An edge that leaves all pulses low and starts no byte shows it, whatever event without a pulse it adds. -/
theorem EdgeShows.of_low {s t : State} {es : List Event} (trace : t.trace = es ++ s.trace)
    (atMostOne : es.length ≤ 1) (silent : ∀ e ∈ es, e.pulsed = false) (low : t.out.PulsesLow)
    (noStart : ∀ c k, s.seq.txn = some ⟨c, .body k false⟩ → t.seq.txn ≠ some ⟨c, .body k true⟩) :
    EdgeShows s t es :=
  ⟨trace, atMostOne, .of_low low silent, .of_low low.2.1 noStart⟩

theorem State.clearPulses_pulsesLow (s : State) : s.clearPulses.out.PulsesLow := ⟨rfl, rfl, rfl, rfl⟩

/-! ### Edges of operations and of transactions, from a state with low pulses -/

/-- An edge of a consumer operation adds at most one event, never REQ. -/
theorem OpEdge.shows {s t : State} (h : OpEdge s t) (low : s.out.PulsesLow) (noTxn : s.seq.txn = none) :
    BusyEdgeShows s t := by
  have ⟨rspLow, sxLow, yieldLow, warnLow⟩ := low
  have noStart (y : Option Txn) (c : WireCmd) (k : Nat) (h : s.seq.txn = some ⟨c, .body k false⟩) :
      y ≠ some ⟨c, .body k true⟩ := by simp [noTxn] at h
  have quiet {u : State} (trace : u.trace = s.trace) (out : u.out = s.out) : BusyEdgeShows s u :=
    ⟨[], .of_low trace (by simp) (by simp) (out ▸ low) (noStart _), by simp⟩
  have samples {u : State} (trace : u.trace = .now s.sampleTimer.1 :: s.trace) (out : u.out = s.out) :
      BusyEdgeShows s u :=
    ⟨[.now s.sampleTimer.1], .of_low trace (by simp) (by simp [Event.pulsed]) (out ▸ low) (noStart _),
      by simp⟩
  cases h with
  | respond r =>
    refine ⟨[.rsp r], ⟨rfl, by simp, ?_, .of_low sxLow (noStart _)⟩, by simp⟩
    constructor <;> simp [yieldLow, warnLow]
  | goto p busy => exact quiet rfl rfl
  | call c p wf busy => exact quiet rfl rfl
  | sample p busy => exact samples (by simp) (by simp)
  | loop c p wf at' busy => exact samples (by simp) (by simp)
  | warn k p busy =>
    refine ⟨[.warn k], ⟨rfl, by simp, ?_, .of_low sxLow (noStart _)⟩, by simp⟩
    constructor <;> simp [rspLow, yieldLow]
  | again c p wf busy =>
    refine ⟨[.yielded], ⟨rfl, by simp, ?_, .of_low sxLow (noStart _)⟩, by simp⟩
    constructor <;> simp [rspLow, warnLow]
  | setTxCur n p busy => exact quiet rfl rfl
  | setRxCur n p busy => exact quiet rfl rfl
  | store p at' len busy => exact quiet rfl rfl
  | append b p at' room busy => exact quiet rfl rfl

/-- The events of a transaction: START, END, X (R12). -/
def Event.onWire : Event → Bool
  | .start | .stop | .x _ _ => true
  | .req _ | .now _ | .yielded | .warn _ | .rsp _ => false

theorem Event.pulsed_of_onWire : {e : Event} → e.onWire = true → e.pulsed = false
  | .start, _ | .stop, _ | .x _ _, _ => rfl

/-- The trace of t is that of s with at most one event of the wire added. -/
def AtMostWireEvent (s t : State) : Prop :=
  t.trace = s.trace ∨ ∃ e : Event, e.onWire = true ∧ t.trace = e :: s.trace

/-- An edge of a transaction starts a byte, or leaves the output ports and adds at most one event of the wire. -/
theorem txnStep_starts_or_emits {body : List Byte} {capFrom : Nat} {s t : State}
    (h : txnStep body capFrom s = .next t) :
    ∃ x, s.seq.txn = some x ∧
      ((∃ k m, x.sub = .body k false ∧ body[k]? = some m ∧ t = (s.startByte m).gotoTxn (.body k true)) ∨
        ((∀ k, x.sub ≠ .body k false) ∧ t.out = s.out ∧ AtMostWireEvent s t)) := by
  obtain ⟨x, hx, edge⟩ := txnStep_next h
  refine ⟨x, hx, ?_⟩
  rcases edge with ⟨sub, rfl⟩ | ⟨sub, rfl⟩ | ⟨k, sent, m, sub, hm, rfl⟩ | ⟨sub, rfl⟩
  · rcases s.startAssertStep_cases with ⟨-, e⟩ | ⟨-, -, e⟩ | ⟨-, -, e⟩ <;> rw [e] <;>
      exact .inr ⟨by simp [sub], rfl, .inl rfl⟩
  · rcases s.startGapStep_cases with ⟨-, e⟩ | ⟨-, e⟩ <;> rw [e]
    · exact .inr ⟨by simp [sub], rfl, .inr ⟨.start, rfl, rfl⟩⟩
    · exact .inr ⟨by simp [sub], rfl, .inl rfl⟩
  · rcases s.byteStep_cases m (decide (capFrom ≤ k)) k body.length sent with
      ⟨rfl, e⟩ | ⟨rfl, -, e⟩ | ⟨b, rfl, -, e⟩ <;> rw [e]
    · exact .inl ⟨k, m, sub, hm, rfl⟩
    · exact .inr ⟨by simp [sub], by simp, .inl (by simp)⟩
    · rw [State.finishByte_eq]
      exact .inr ⟨by simp [sub], by simp, .inr ⟨.x m b, rfl, by simp⟩⟩
  · rcases s.endAssertStep_cases with ⟨-, e⟩ | ⟨-, -, e⟩ | ⟨-, -, e⟩ <;> rw [e]
    · exact .inr ⟨by simp [sub], rfl, .inl rfl⟩
    · exact .inr ⟨by simp [sub], rfl, .inr ⟨.stop, rfl, rfl⟩⟩
    · exact .inr ⟨by simp [sub], rfl, .inl rfl⟩

/-- Pulsing sx_start with byte k of the body shows the start of that byte. -/
theorem State.startByte_shows {s : State} {c : WireCmd} {k : Nat} {m : Byte} (low : s.out.PulsesLow)
    (txn : s.seq.txn = some ⟨c, .body k false⟩) (hm : (wireBody c)[k]? = some m) :
    EdgeShows s ((s.startByte m).gotoTxn (.body k true)) [] where
  trace := rfl
  atMostOne := by simp
  pulses := by
    obtain ⟨rspLow, -, yieldLow, warnLow⟩ := low
    constructor <;> simp [rspLow, yieldLow, warnLow]
  start := by constructor <;> simp [txn, hm]

/-- An edge of a wire command adds at most one event, never REQ. -/
theorem txnStep_shows {s t : State} {x : Txn} (low : s.out.PulsesLow) (txn : s.seq.txn = some x)
    (h : txnStep (wireBody x.cmd) (captureFrom x.cmd) s = .next t) : BusyEdgeShows s t := by
  obtain ⟨y, hy, ⟨k, m, sub, hm, rfl⟩ | ⟨notAtStart, out, emits⟩⟩ := txnStep_starts_or_emits h <;>
    obtain rfl : x = y := Option.some.inj (txn.symm.trans hy)
  · obtain ⟨c, _⟩ := x
    subst sub
    exact ⟨[], State.startByte_shows low txn hm, by simp⟩
  · have noStart (c : WireCmd) (k : Nat) (hs : s.seq.txn = some ⟨c, .body k false⟩) :
        t.seq.txn ≠ some ⟨c, .body k true⟩ := by
      obtain rfl := Option.some.inj (txn.symm.trans hs)
      exact absurd rfl (notAtStart k)
    rcases emits with trace | ⟨e, wire, trace⟩
    · exact ⟨[], .of_low trace (by simp) (by simp) (out ▸ low) noStart, by simp⟩
    · refine ⟨[e], .of_low trace (by simp) (by simpa using Event.pulsed_of_onWire wire) (out ▸ low) noStart, ?_⟩
      intro q hq
      obtain rfl := List.mem_singleton.mp hq
      cases wire

/-! ### The clock edge -/

/-- An edge inside an operation adds at most one event, never REQ. -/
theorem exec_inFlight_shows {s t : State} (low : s.out.PulsesLow) (h : exec s.inFlight s = .next t) :
    BusyEdgeShows s t := by
  rcases s.inFlight_cases with ⟨x, txn, e⟩ | ⟨noTxn, e⟩ <;> rw [e] at h
  · rw [exec_toInstr] at h
    exact txnStep_shows low txn h
  · exact (exec_edge (decodeReq_format _) h).shows low noTxn

/-- What an edge adds to the trace and shows at the ports does not depend on the pulses of the cycle before. -/
theorem EdgeShows.of_same {s u t : State} {es : List Event} (h : EdgeShows u t es)
    (trace : u.trace = s.trace) (seq : u.seq = s.seq) : EdgeShows s t es :=
  ⟨trace ▸ h.trace, h.atMostOne, h.pulses, seq ▸ h.start⟩

/-- Every edge adds at most one event, an idle one nothing or REQ, and its ports show what it did. -/
theorem step_shows {s t : State} (h : step s = .next t) :
    ∃ es, EdgeShows s t es ∧ (s.seq.phase ≠ .idle → ∀ q, Event.req q ∉ es) ∧
      (s.seq.phase = .idle → es = [] ∨ ∃ q, es = [.req q]) := by
  rcases step_next h with ⟨-, rfl⟩ | ⟨idle, rfl⟩ | ⟨q, idle, rfl⟩ | ⟨busy, h⟩
  · exact ⟨[], .of_low (by simp) (by simp) (by simp) ⟨rfl, rfl, rfl, rfl⟩ (by simp [Sequencer.reset]),
      by simp, by simp⟩
  · refine ⟨[], .of_low (by simp) (by simp) (by simp) ?_ (by simp +contextual), by simp, by simp⟩
    rw [State.sampleRequest_out]
    exact State.clearPulses_pulsesLow _
  · refine ⟨[.req q], .of_low (by simp) (by simp) (by simp [Event.pulsed]) ?_ (by simp),
      by simp [idle], by simp⟩
    rw [State.accept_out, State.sampleRequest_out]
    exact State.clearPulses_pulsesLow _
  · have same : s.sampleRst.2.clearPulses.seq = s.seq := by simp
    have inFlight : s.sampleRst.2.clearPulses.inFlight = s.inFlight := by simp [State.inFlight]
    obtain ⟨es, shows, noReq⟩ := exec_inFlight_shows (State.clearPulses_pulsesLow _) (inFlight ▸ h)
    exact ⟨es, shows.of_same (by simp) same, fun _ => noReq, fun idle => absurd idle busy⟩

/-- Settles O12, by the kinds of edge: a reset, an idle edge, an acceptance, an edge of the operation or of the
transaction in flight. -/
theorem edgeEventsMatchPulses : Obligations.EdgeEventsMatchPulses := by
  intro s t h
  obtain ⟨es, ⟨trace, atMostOne, pulses, start⟩, busy, idle⟩ := step_shows h
  exact ⟨es, trace, atMostOne, busy, idle, pulses.rspValid, pulses.rsp, pulses.yieldO, pulses.warnO,
    pulses.warnKind, start.sxStart, start.sxTx⟩

end Sys2Proof.Machine
end

section
/-! PROOFS. R22, R24, R26, R31, R44, R51: from a state of the invariant every edge has a next state, which meets it. -/

namespace Sys2Proof.Machine

/-! ### Transactions leave the operation alone -/

theorem State.startAssertStep_apart (s : State) : Apart s s.startAssertStep := by
  rcases s.startAssertStep_cases with ⟨-, e⟩ | ⟨-, -, e⟩ | ⟨-, -, e⟩ <;> rw [e] <;> simp [Apart, SameBuffers]

theorem State.startGapStep_apart (s : State) : Apart s s.startGapStep := by
  rcases s.startGapStep_cases with ⟨-, e⟩ | ⟨-, e⟩ <;> rw [e] <;> simp [Apart, SameBuffers]

theorem State.byteStep_apart (s : State) (m : Byte) (captured : Bool) (k n : Nat) (sent : Bool) :
    Apart s (s.byteStep m captured k n sent) := by
  rcases s.byteStep_cases m captured k n sent with ⟨-, e⟩ | ⟨-, -, e⟩ | ⟨b, -, -, e⟩ <;> rw [e]
  · simp [Apart, SameBuffers]
  · simp [Apart, SameBuffers]
  · simp [State.finishByte_eq, Apart, SameBuffers]

theorem State.endAssertStep_apart (s : State) : Apart s s.endAssertStep := by
  rcases s.endAssertStep_cases with ⟨-, e⟩ | ⟨-, -, e⟩ | ⟨-, -, e⟩ <;> rw [e] <;> simp [Apart, SameBuffers]

/-- An edge of a transaction leaves the operation and its buffers alone. -/
theorem txnStep_apart {body : List Byte} {capFrom : Nat} {s t : State} (h : txnStep body capFrom s = .next t) :
    Apart s t := by
  obtain ⟨x, -, ⟨-, rfl⟩ | ⟨-, rfl⟩ | ⟨k, sent, m, -, -, rfl⟩ | ⟨-, rfl⟩⟩ := txnStep_next h
  · exact s.startAssertStep_apart
  · exact s.startGapStep_apart
  · exact s.byteStep_apart _ _ _ _ _
  · exact s.endAssertStep_apart

/-! ### What the invariant says of the buffers, and of the sequencer -/

/-- The cursors and the written bytes of s are as operation i needs them at its place p. -/
structure Fits (i : Instr) (p : Phase) (s : State) : Prop where
  owns : p = .idle ∨ ownsPlace i p = true
  txCur : txCurAt i p s.txCur
  rxCur : rxCurAt p s.rxCur
  txWritten : Written s.txBuf s.txCur
  appended : p = .respond .advance → (s.txBuf.read s.txCur).isSome = true
  rxWritten : s.rxCur ≠ 0 → Written s.rxBuf 32
  fetched : p = .rxPoll .setCur → Written s.rxBuf 32

theorem MachineInv.fits {s : State} (h : MachineInv s) : Fits (decodeReq s.seq.req) s.seq.phase s := by
  obtain ⟨⟨owns, -⟩, ⟨txCur, rxCur⟩, txWritten, appended, rxWritten, fetched⟩ := h
  exact ⟨owns, txCur, rxCur, txWritten, appended, rxWritten, fetched⟩

/-- Only the buffers and their cursors count. -/
theorem Fits.same {i : Instr} {p : Phase} {s t : State} (h : Fits i p s) (same : SameBuffers s t) : Fits i p t := by
  obtain ⟨txBuf, txCur, rxBuf, rxCur⟩ := same
  obtain ⟨h1, h2, h3, h4, h5, h6, h7⟩ := h
  constructor <;> simpa only [txBuf, txCur, rxBuf, rxCur]

/-- An edge of a transaction does not change what the operation needs. -/
theorem Fits.apart {s t : State} (h : Fits (decodeReq s.seq.req) s.seq.phase s) (apart : Apart s t) :
    Fits (decodeReq t.seq.req) t.seq.phase t := by
  obtain ⟨buffers, phase, req, -⟩ := apart
  rw [phase, req]
  exact h.same buffers

/-- The invariant inside a transaction. -/
theorem Fits.inTxn {s : State} {x : Txn} (h : Fits (decodeReq s.seq.req) s.seq.phase s)
    (txn : s.seq.txn = some x) (inv : TxnInv s x) : MachineInv s :=
  ⟨⟨h.owns, by rwa [txn]⟩, ⟨h.txCur, h.rxCur⟩, h.txWritten, h.appended, h.rxWritten, h.fetched⟩

/-- The invariant at a place of the operation. -/
theorem Fits.atPlace {s : State} (h : Fits (decodeReq s.seq.req) s.seq.phase s) (noTxn : s.seq.txn = none)
    (ss : s.ss = .deasserted)
    (returned : ∀ n, returnedAt (decodeReq s.seq.req) s.seq.phase = some n → s.seq.asm.length = n) :
    MachineInv s :=
  ⟨⟨h.owns, by rw [noTxn]; exact ⟨ss, returned⟩⟩, ⟨h.txCur, h.rxCur⟩, h.txWritten, h.appended, h.rxWritten,
    h.fetched⟩

theorem MachineInv.txnInv {s : State} {x : Txn} (h : MachineInv s) (txn : s.seq.txn = some x) : TxnInv s x := by
  have inv := h.1.2
  rwa [txn] at inv

/-- The invariant does not speak of the trace, the ports and the inputs. -/
theorem MachineInv.same {s t : State} (h : MachineInv s) (buffers : SameBuffers s t) (seq : t.seq = s.seq)
    (ss : t.ss = s.ss) : MachineInv t := by
  obtain ⟨txBuf, txCur, rxBuf, rxCur⟩ := buffers
  simpa only [MachineInv, PlaceInv, TxnInv, CursorInv, WrittenInv, txBuf, txCur, rxBuf, rxCur, seq, ss] using h

/-! ### Transactions keep the invariant -/

theorem wireBody_length_pos (c : WireCmd) : 0 < (wireBody c).length := by cases c <;> simp [wireBody]

/-- The body of a command is the exchanges before the first returned byte and the returned ones. -/
theorem wireBody_length_sub {c : WireCmd} (h : cmdWf c) :
    (wireBody c).length - captureFrom c = captureCount c := by
  cases c with
  | writeStatus w => simp [wireBody, captureFrom, captureCount]
  | writeData payload =>
    have len : payload.length = 32 := h
    simp [wireBody, captureFrom, captureCount, len]
  | readData => rfl
  | readStatus => rfl

/-- A transaction leaves in the register what its caller expects there. -/
theorem captureCount_of_callsAt {i : Instr} {p : Phase} {c : WireCmd} {n : Nat} (calls : callsAt i p c)
    (returned : returnedAt i p = some n) : captureCount c = n := by
  unfold callsAt at calls
  split at calls
  · subst calls; simpa [returnedAt, captureCount] using returned
  · subst calls; simpa [returnedAt, captureCount] using returned
  · subst calls; simpa [returnedAt, captureCount] using returned
  · subst calls; simpa [returnedAt, captureCount] using returned
  · obtain ⟨payload, rfl⟩ := calls; simpa [returnedAt, captureCount] using returned
  · simpa [returnedAt, calls] using returned
  · exact calls.elim

section Transaction

variable {s : State} {c : WireCmd}

theorem startAssertStep_keeps_inv (inv : MachineInv s) (txn : s.seq.txn = some ⟨c, .startAssert⟩) :
    MachineInv s.startAssertStep := by
  obtain ⟨wf, calls, asm⟩ := inv.txnInv txn
  have fits := inv.fits.apart s.startAssertStep_apart
  rcases s.startAssertStep_cases with ⟨-, q⟩ | ⟨-, -, q⟩ | ⟨-, -, q⟩ <;> rw [q] at fits ⊢
  · exact fits.inTxn txn ⟨wf, calls, asm⟩
  · exact fits.inTxn (x := ⟨c, .startGap⟩) (by simp [txn]) ⟨wf, calls, asm, rfl⟩
  · exact fits.inTxn txn ⟨wf, calls, asm⟩

theorem startGapStep_keeps_inv (inv : MachineInv s) (txn : s.seq.txn = some ⟨c, .startGap⟩) :
    MachineInv s.startGapStep := by
  obtain ⟨wf, calls, asm, ss⟩ := inv.txnInv txn
  have fits := inv.fits.apart s.startGapStep_apart
  rcases s.startGapStep_cases with ⟨-, q⟩ | ⟨-, q⟩ <;> rw [q] at fits ⊢
  · exact fits.inTxn (x := ⟨c, .body 0 false⟩) (by simp [txn]) ⟨wf, calls, wireBody_length_pos c, by simp [asm], ss⟩
  · exact fits.inTxn txn ⟨wf, calls, asm, ss⟩

/-- The end of an exchange: the next one has captured one byte more, if it returns bytes; the last one has captured
all. -/
theorem finishByte_keeps_inv {k : Nat} {m b : Byte} (inv : MachineInv s) (txn : s.seq.txn = some ⟨c, .body k true⟩) :
    MachineInv (s.finishByte m b (decide (captureFrom c ≤ k)) (afterByte k (wireBody c).length)) := by
  obtain ⟨wf, calls, lt, asm, ss⟩ : cmdWf c ∧ callsAt (decodeReq s.seq.req) s.seq.phase c ∧
      k < (wireBody c).length ∧ s.seq.asm.length = k - captureFrom c ∧ s.ss = .deasserted := inv.txnInv txn
  have captured : (if captureFrom c ≤ k then s.seq.asm ++ [b] else s.seq.asm).length = k + 1 - captureFrom c := by
    split
    · rw [List.length_append, List.length_singleton]; omega
    · omega
  rw [State.finishByte_eq]
  by_cases more : k + 1 < (wireBody c).length
  · rw [afterByte, if_pos more]
    exact Fits.inTxn (x := ⟨c, .body (k + 1) false⟩) (inv.fits.same ⟨rfl, rfl, rfl, rfl⟩) (by simp [txn])
      ⟨wf, calls, more, by simpa using captured, ss⟩
  · have last : k + 1 = (wireBody c).length := by omega
    rw [afterByte, if_neg more]
    exact Fits.inTxn (x := ⟨c, .endAssert⟩) (inv.fits.same ⟨rfl, rfl, rfl, rfl⟩) (by simp [txn])
      ⟨wf, calls, by simpa [last, wireBody_length_sub wf] using captured⟩

theorem byteStep_keeps_inv {k : Nat} {sent : Bool} (m : Byte) (inv : MachineInv s)
    (txn : s.seq.txn = some ⟨c, .body k sent⟩) :
    MachineInv (s.byteStep m (decide (captureFrom c ≤ k)) k (wireBody c).length sent) := by
  have sampled : MachineInv s.sampleSerial.2 := inv.same (by simp [SameBuffers]) (by simp) (by simp)
  rcases s.byteStep_cases m (decide (captureFrom c ≤ k)) k (wireBody c).length sent with
    ⟨-, q⟩ | ⟨-, -, q⟩ | ⟨b, rfl, -, q⟩ <;> rw [q]
  · obtain ⟨wf, calls, sub⟩ := inv.txnInv txn
    exact Fits.inTxn (x := ⟨c, .body k true⟩) (inv.fits.same ⟨rfl, rfl, rfl, rfl⟩) (by simp [txn]) ⟨wf, calls, sub⟩
  · exact sampled
  · exact finishByte_keeps_inv sampled (by simpa using txn)

theorem endAssertStep_keeps_inv (inv : MachineInv s) (txn : s.seq.txn = some ⟨c, .endAssert⟩) :
    MachineInv s.endAssertStep := by
  obtain ⟨wf, calls, asm⟩ := inv.txnInv txn
  have fits := inv.fits.apart s.endAssertStep_apart
  rcases s.endAssertStep_cases with ⟨-, q⟩ | ⟨-, -, q⟩ | ⟨-, -, q⟩ <;> rw [q] at fits ⊢
  · exact fits.inTxn txn ⟨wf, calls, asm⟩
  · exact fits.atPlace rfl rfl (fun n returned => asm.trans (captureCount_of_callsAt calls returned))
  · exact fits.inTxn txn ⟨wf, calls, asm⟩

/-- An edge of a transaction leads to a state of the invariant (R44, R51, R204). -/
theorem txnStep_keeps_inv {x : Txn} (inv : MachineInv s) (txn : s.seq.txn = some x) :
    ∃ t, txnStep (wireBody x.cmd) (captureFrom x.cmd) s = .next t ∧ MachineInv t := by
  obtain ⟨c, p⟩ := x
  cases p with
  | startAssert => exact ⟨s.startAssertStep, by simp [txnStep, txn], startAssertStep_keeps_inv inv txn⟩
  | startGap => exact ⟨s.startGapStep, by simp [txnStep, txn], startGapStep_keeps_inv inv txn⟩
  | body k sent =>
    have ⟨_, _, (lt : k < (wireBody c).length), _⟩ := inv.txnInv txn
    exact ⟨_, by simp only [txnStep, txn, List.getElem?_eq_getElem lt], byteStep_keeps_inv (wireBody c)[k] inv txn⟩
  | endAssert => exact ⟨s.endAssertStep, by simp [txnStep, txn], endAssertStep_keeps_inv inv txn⟩

end Transaction

/-! ### Moves between the places of an operation -/

/-- Operation i is in flight in s with no transaction, and place p is in order for it. -/
structure OpAt (i : Instr) (p : Phase) (s : State) : Prop extends Fits i p s where
  req : decodeReq s.seq.req = i
  noTxn : s.seq.txn = none
  ss : s.ss = .deasserted

theorem MachineInv.opAt {s : State} (h : MachineInv s) (noTxn : s.seq.txn = none) :
    OpAt (decodeReq s.seq.req) s.seq.phase s := by
  have inv := h.1.2
  rw [noTxn] at inv
  exact { h.fits with req := rfl, noTxn := noTxn, ss := inv.1 }

/-- After the return of a transaction the assembly register holds its bytes. -/
theorem MachineInv.returned {s : State} {n : Nat} (h : MachineInv s) (noTxn : s.seq.txn = none)
    (returned : returnedAt (decodeReq s.seq.req) s.seq.phase = some n) : s.seq.asm.length = n := by
  have inv := h.1.2
  rw [noTxn] at inv
  exact inv.2 n returned

/-- Only the buffers, the sequencer and the select line count. -/
theorem OpAt.same {i : Instr} {p : Phase} {s t : State} (h : OpAt i p s) (buffers : SameBuffers s t)
    (seq : t.seq = s.seq) (ss : t.ss = s.ss) : OpAt i p t :=
  { h.toFits.same buffers with req := seq ▸ h.req, noTxn := seq ▸ h.noTxn, ss := ss ▸ h.ss }

/-- A Timer sample changes none of them. -/
theorem OpAt.now {i : Instr} {p : Phase} {s : State} (h : OpAt i p s) : OpAt i p s.now.2 :=
  h.same (by simp [SameBuffers]) (by simp) (by simp)

/-- To a place with the same needs of the buffers, the cursors staying in its ranges. -/
theorem OpAt.move {i : Instr} {p q : Phase} {s : State} (h : OpAt i p s) (owns : ownsPlace i q = true)
    (txCur : txCurWithin i s.txCur q) (rxCur : rxCurAt q s.rxCur)
    (notAdvance : q ≠ .respond .advance := by simp) (notSetCur : q ≠ .rxPoll .setCur := by simp) : OpAt i q s :=
  { h with
    owns := .inr owns
    txCur := ⟨h.txCur.1, txCur⟩
    rxCur := rxCur
    appended := fun e => absurd e notAdvance
    fetched := fun e => absurd e notSetCur }

/-- An edge that only moves on. -/
theorem OpAt.goto {i : Instr} {p : Phase} {s : State} (h : OpAt i p s) (fresh : returnedAt i p = none) :
    MachineInv (s.goto p) := by
  obtain ⟨fits, rfl, noTxn, ss⟩ := h
  exact Fits.atPlace (s := s.goto p) (fits.same ⟨rfl, rfl, rfl, rfl⟩) noTxn ss (fun n e => by simp [fresh] at e)

/-- An edge that starts a transaction. -/
theorem OpAt.call {i : Instr} {c : WireCmd} {p : Phase} {s : State} (h : OpAt i p s) (wf : cmdWf c)
    (calls : callsAt i p c) : MachineInv (s.call c p) := by
  obtain ⟨fits, rfl, -, -⟩ := h
  exact Fits.inTxn (s := s.call c p) (x := ⟨c, .startAssert⟩) (fits.same ⟨rfl, rfl, rfl, rfl⟩) rfl
    ⟨wf, calls, rfl⟩

/-- An edge that responds. -/
theorem OpAt.respond {i : Instr} {p : Phase} {s : State} (h : OpAt i p s) (rxCur : rxCurAt .idle s.rxCur) (r : Rsp) :
    MachineInv (s.respond r) := by
  have idle : Fits (decodeReq s.seq.req) .idle s :=
    { owns := .inl rfl, txCur := ⟨h.txCur.1, trivial⟩, rxCur := rxCur, txWritten := h.txWritten,
      appended := by simp, rxWritten := h.rxWritten, fetched := by simp }
  refine Fits.atPlace (s := s.respond r) (idle.same ⟨rfl, rfl, rfl, rfl⟩) h.noTxn h.ss (fun n e => ?_)
  simpa [returnedAt] using e

/-- The places of a polling loop need the same. -/
theorem OpAt.loop {i : Instr} {s : State} {here : WaitAt → Phase} {w : WaitAt}
    (at' : here = .waitLoop ∨ here = .rxContWait) (h : OpAt i (here w) s) (v : WaitAt) : OpAt i (here v) s := by
  rcases at' with rfl | rfl <;>
    exact h.move (h.owns.resolve_left (by simp)) h.txCur.2 h.rxCur

/-- An edge of a polling loop. -/
theorem waitReady_keeps_inv {i : Instr} {sel : Sel} {budget : Nat} {here : WaitAt → Phase}
    {back : BitVec 4 → Phase} {w : WaitAt} {s : State} (at' : here = .waitLoop ∨ here = .rxContWait)
    (h : OpAt i (here w) s) (ends : ∀ f, OpAt i (back f) s ∧ returnedAt i (back f) = none) :
    MachineInv (waitReady sel budget here back w s) := by
  have reads : callsAt i (here .test) .readStatus := by rcases at' with rfl | rfl <;> rfl
  have fresh : returnedAt i (here .warn) = none ∧ returnedAt i (here .yieldNext) = none := by
    rcases at' with rfl | rfl <;> exact ⟨rfl, rfl⟩
  rcases waitReady_cases sel budget here back w s with
    ⟨-, q⟩ | ⟨-, -, q⟩ | ⟨-, -, -, q⟩ | ⟨-, -, -, q⟩ | ⟨-, q⟩ | ⟨-, q⟩ <;> rw [q]
  · have first : OpAt i (here .test) (s.now.2.setT0 s.now.1) := { (h.loop at' .test).now with }
    exact first.call trivial reads
  · exact (ends _).1.goto (ends _).2
  · exact (h.loop at' .warn).now.goto fresh.1
  · exact (h.loop at' .yieldNext).now.goto fresh.2
  · have warned : OpAt i (back (lastField sel s)) (s.warn sel.kind) := { (ends _).1 with }
    exact warned.goto (ends _).2
  · have again : OpAt i (here .test) s.yieldNow := { h.loop at' .test with }
    exact again.call trivial reads

/-! ### The operations at their places -/

/-- The places of a raw operation. -/
theorem raw_places {i : Instr} {c : WireCmd} {p : Phase} (raw : rawCmd i = some c) (owns : ownsPlace i p = true) :
    p = .decode ∨ p = .respond .collect := by
  obtain ⟨noWait, noFlush, noAppend, noRead⟩ :
      waits i = false ∧ flushes i = false ∧ appends i = false ∧ i ≠ .readByte := by
    cases i <;> simp [rawCmd, waits, flushes, appends] at raw ⊢
  cases p with
  | decode => exact .inl rfl
  | respond p => cases p <;> simp_all [ownsPlace, ownsTail]
  | idle | waitLoop | flushSend | rxContWait | rxContFetch | rxPoll => simp_all [ownsPlace]

theorem rawStep_keeps_inv {i : Instr} {c : WireCmd} {result : List Byte → Rsp} {s : State}
    (h : OpAt i s.seq.phase s) (busy : s.seq.phase ≠ .idle) (raw : rawCmd i = some c) :
    ∃ t, rawStep c result s = .next t ∧ MachineInv t := by
  rcases raw_places raw (h.owns.resolve_left busy) with p | p <;> rw [p] at h
  · have collect : OpAt i (.respond .collect) s := h.move (by simp [ownsPlace, ownsTail, raw]) trivial h.rxCur
    exact ⟨s.call c (.respond .collect), by simp [rawStep, p], collect.call (rawCmd_wf raw) raw⟩
  · exact ⟨s.respond (result s.seq.asm), by simp [rawStep, p], h.respond h.rxCur _⟩

/-- The places of a consumer wait. -/
theorem wait_places {i : Instr} {p : Phase} (wait : waits i = true) (owns : ownsPlace i p = true) :
    p = .decode ∨ (∃ w, p = .waitLoop w) ∨ ∃ r, p = .respond (.send r) := by
  obtain ⟨noFlush, noAppend, noRead, noRaw⟩ :
      flushes i = false ∧ appends i = false ∧ i ≠ .readByte ∧ rawCmd i = none := by
    cases i <;> simp [rawCmd, waits, flushes, appends] at wait ⊢
  cases p with
  | decode => exact .inl rfl
  | waitLoop w => exact .inr (.inl ⟨w, rfl⟩)
  | respond p => cases p <;> simp_all [ownsPlace, ownsTail]
  | idle | flushSend | rxContWait | rxContFetch | rxPoll => simp_all [ownsPlace]

theorem consumerWait_keeps_inv {i : Instr} {sel : Sel} {timeout : BitVec 16} {s : State} (h : OpAt i s.seq.phase s)
    (busy : s.seq.phase ≠ .idle) (wait : waits i = true) :
    ∃ t, consumerWait sel timeout s = .next t ∧ MachineInv t := by
  have noFlush : flushes i = false ∧ appends i = false := by
    cases i <;> simp [waits, flushes, appends] at wait ⊢
  rcases wait_places wait (h.owns.resolve_left busy) with p | ⟨w, p⟩ | ⟨r, p⟩ <;> rw [p] at h
  · have first : OpAt i (.waitLoop .sampleT0) s :=
      h.move (by simp [ownsPlace, wait]) (by simp [txCurWithin, txCurInFlush, noFlush]) h.rxCur
    exact ⟨s.goto (.waitLoop .sampleT0), by simp [consumerWait, p], first.goto rfl⟩
  · have ends (f : BitVec 4) : OpAt i (.respond (.send (fieldResponse f))) s :=
      h.move (by simp [ownsPlace, ownsTail, wait]) trivial h.rxCur
    exact ⟨waitReady sel (budgetOf timeout) .waitLoop (fun f => .respond (.send (fieldResponse f))) w s,
      by simp [consumerWait, p], waitReady_keeps_inv (.inl rfl) h (fun f => ⟨ends f, rfl⟩)⟩
  · exact ⟨s.respond r, by simp [consumerWait, p], h.respond h.rxCur r⟩

/-- The places of WRITE_BYTE and the flushes. -/
theorem flush_places {i : Instr} {p : Phase} (flush : flushes i = true) (owns : ownsPlace i p = true) :
    p = .decode ∨ (∃ w, p = .waitLoop w) ∨ (∃ w, p = .flushSend w) ∨
      (p = .respond .append ∧ appends i = true) ∨ (p = .respond .advance ∧ appends i = true) ∨
      ∃ r, p = .respond (.send r) := by
  obtain ⟨noRead, noRaw⟩ : i ≠ .readByte ∧ rawCmd i = none := by
    cases i <;> simp [rawCmd, flushes] at flush ⊢
  cases p with
  | decode => exact .inl rfl
  | waitLoop w => simp
  | flushSend w => simp
  | respond p => cases p <;> simp_all [ownsPlace, ownsTail]
  | idle | rxContWait | rxContFetch | rxPoll => simp_all [ownsPlace]

/-- An edge of the gating wait of a flush. -/
theorem flushWait_keeps_inv {i : Instr} {w : WaitAt} {s : State} (h : OpAt i (.waitLoop w) s)
    (flush : flushes i = true) : MachineInv (flushWait w s) :=
  waitReady_keeps_inv (.inl rfl) h (fun _ => ⟨h.move (by simp [ownsPlace, flush]) h.txCur.2 h.rxCur, rfl⟩)

/-- An edge of FLUSH_SEND. -/
theorem flushSend_keeps_inv {i : Instr} {ind : Byte} {back : Phase} {w : SendAt} {s : State}
    (h : OpAt i (.flushSend w) s) (flush : flushes i = true)
    (ends : OpAt i back (s.setTxCur 0)) (fresh : returnedAt i back = none) :
    ∃ t, flushSend ind back w s = .next t ∧ MachineInv t := by
  cases w with
  | issue =>
    obtain ⟨pending, read, -, -⟩ := s.readTxMany_written 0 s.txCur (by simpa [Config.txCap] using h.txCur.1)
      (fun j _ lt => h.txWritten j (by simpa using lt))
    have clear : OpAt i (.flushSend .clear) s := h.move (by simp [ownsPlace, flush]) h.txCur.2 h.rxCur
    have wf : cmdWf (.writeData (payloadOf (muxPayload ind pending) (1 + s.txCur))) := payloadOf_length _ _
    exact ⟨_, by rw [flushSend, read, andThen_ok], clear.call wf ⟨_, rfl⟩⟩
  | clear => exact ⟨_, rfl, ends.goto fresh⟩

/-- The transmit cursor set to 0, at a place that allows it. -/
theorem OpAt.clearTx {i : Instr} {p q : Phase} {s : State} (h : OpAt i p s) (owns : ownsPlace i q = true)
    (txCur : txCurWithin i 0 q) (rxCur : rxCurAt q s.rxCur)
    (notAdvance : q ≠ .respond .advance := by simp) (notSetCur : q ≠ .rxPoll .setCur := by simp) :
    OpAt i q (s.setTxCur 0) :=
  { h with
    owns := .inr owns
    txCur := ⟨Nat.zero_le _, txCur⟩
    rxCur := rxCur
    txWritten := fun j lt => absurd lt (Nat.not_lt_zero j)
    appended := fun e => absurd e notAdvance
    fetched := fun e => absurd e notSetCur }

theorem flushOp_keeps_inv {i : Instr} {ind : Byte} {s : State} (h : OpAt i s.seq.phase s)
    (busy : s.seq.phase ≠ .idle) (flush : flushes i = true) (noAppend : appends i = false) :
    ∃ t, flushOp ind s = .next t ∧ MachineInv t := by
  have sends (r : Rsp) : ownsPlace i (.respond (.send r)) = true := by simp [ownsPlace, ownsTail, flush]
  rcases flush_places flush (h.owns.resolve_left busy) with
    p | ⟨w, p⟩ | ⟨w, p⟩ | ⟨-, append⟩ | ⟨-, append⟩ | ⟨r, p⟩
  · rw [p] at h
    by_cases empty : s.txCur = 0
    · exact ⟨s.respond Rsp.ack, by simp [flushOp, p, empty], h.respond h.rxCur _⟩
    · have pending : txCurInFlush i s.txCur := ⟨by simp [noAppend], fun _ => by omega⟩
      have first : OpAt i (.waitLoop .sampleT0) s := h.move (by simp [ownsPlace, flush]) pending h.rxCur
      exact ⟨s.goto (.waitLoop .sampleT0), by simp [flushOp, p, empty], first.goto rfl⟩
  · rw [p] at h
    exact ⟨flushWait w s, by simp [flushOp, p], flushWait_keeps_inv h flush⟩
  · rw [p] at h
    obtain ⟨t, e, inv⟩ := flushSend_keeps_inv (ind := ind) (back := .respond (.send Rsp.ack)) h flush
      (h.clearTx (sends _) trivial h.rxCur) rfl
    exact ⟨t, by simpa [flushOp, p] using e, inv⟩
  · simp [noAppend] at append
  · simp [noAppend] at append
  · rw [p] at h
    exact ⟨s.respond r, by simp [flushOp, p], h.respond h.rxCur r⟩

theorem execWriteByte_keeps_inv {b : Byte} {s : State} (h : OpAt (.writeByte b) s.seq.phase s)
    (busy : s.seq.phase ≠ .idle) : ∃ t, execWriteByte b s = .next t ∧ MachineInv t := by
  rcases flush_places rfl (h.owns.resolve_left busy) with
    p | ⟨w, p⟩ | ⟨w, p⟩ | ⟨p, -⟩ | ⟨p, -⟩ | ⟨r, p⟩ <;> rw [p] at h
  · have dropped : OpAt (.writeByte b) .decode (s.setRxCur 0) :=
      { h with rxCur := .inl rfl, rxWritten := fun e => absurd rfl e }
    refine ⟨writeDecode s, by simp [execWriteByte, p], ?_⟩
    unfold writeDecode
    split
    · rename_i full
      have pending : txCurInFlush (.writeByte b) s.txCur := by simp [txCurInFlush, full, Config.txCap]
      exact (dropped.move (q := .waitLoop .sampleT0) rfl pending (.inl rfl)).goto rfl
    · rename_i room
      have lt : s.txCur < 31 := lt_of_le_of_ne h.txCur.1 room
      exact (dropped.move (q := .respond .append) rfl lt (.inl rfl)).goto rfl
  · exact ⟨flushWait w s, by simp [execWriteByte, p], flushWait_keeps_inv h rfl⟩
  · obtain ⟨t, e, inv⟩ := flushSend_keeps_inv (ind := Config.indContinues) (back := .respond .append) h rfl
      (h.clearTx rfl (by simp [txCurWithin]) h.rxCur) rfl
    exact ⟨t, by simpa [execWriteByte, p] using e, inv⟩
  · have stored : OpAt (.writeByte b) (.respond .advance) { s with txBuf := s.txBuf.write s.txCur b } :=
      { h with
        owns := .inr rfl
        txWritten := fun j lt => Mem.isSome_write _ _ _ _ (h.txWritten j lt)
        appended := fun _ => by rw [Mem.read_write_same]; rfl
        fetched := by simp }
    have room : s.txCur < Config.txCap := h.txCur.2
    exact ⟨_, by simp only [execWriteByte, p, State.writeTx, if_pos room, andThen_ok], stored.goto rfl⟩
  · have room : s.txCur < 31 := h.txCur.2
    have advanced : OpAt (.writeByte b) (.respond (.send Rsp.ack)) (s.setTxCur (s.txCur + 1)) :=
      { h with
        owns := .inr rfl
        txCur := ⟨room, trivial⟩
        txWritten := fun j lt => (Nat.lt_succ_iff_lt_or_eq.mp lt).elim (h.txWritten j) (fun e => e ▸ h.appended rfl)
        appended := by simp
        fetched := by simp }
    exact ⟨_, by simp only [execWriteByte, p], advanced.goto rfl⟩
  · exact ⟨s.respond r, by simp [execWriteByte, p], h.respond h.rxCur r⟩

/-- The places of READ_BYTE. -/
theorem readByte_places {p : Phase} (owns : ownsPlace .readByte p = true) :
    p = .decode ∨ (∃ w, p = .rxContWait w) ∨ (∃ w, p = .rxContFetch w) ∨ (∃ w, p = .rxPoll w) ∨
      p = .respond .deliver ∨ ∃ r, p = .respond (.send r) := by
  cases p with
  | respond p => cases p <;> simp [ownsPlace, ownsTail, rawCmd, appends] at owns ⊢
  | decode | rxContWait | rxContFetch | rxPoll => simp
  | idle | waitLoop | flushSend => simp [ownsPlace, waits, flushes] at owns

/-- An edge of READ_BYTE at DECODE. -/
theorem readDecode_keeps_inv {s : State} (h : OpAt .readByte .decode s) :
    ∃ t, readDecode s = .next t ∧ MachineInv t := by
  have range : s.rxCur = 0 ∨ 2 ≤ s.rxCur ∧ s.rxCur ≤ 32 := h.rxCur
  by_cases consumed : s.rxCur = 32
  · obtain ⟨ind, read, -⟩ := Mem.fetch_written s.rxBuf Config.frameBytes 0 (by decide)
      (h.rxWritten (by omega) 0 (by decide))
    have e : readDecode s = .next ((s.setTxCur 0).goto
        (if ind = Config.indContinues then .rxContWait .sampleT0
         else .respond (.send (byteResponse Config.sentinel)))) := by
      simp only [readDecode, Config.rxCurMax, if_pos consumed, State.readRx, read, andThen_ok]
    refine ⟨_, e, ?_⟩
    split
    · exact (h.clearTx (q := .rxContWait .sampleT0) rfl rfl consumed).goto rfl
    · exact (h.clearTx (q := .respond (.send _)) rfl trivial h.rxCur).goto rfl
  · by_cases fresh : s.rxCur = 0
    · exact ⟨_, by simp only [readDecode, Config.rxCurMax, if_neg consumed, if_pos fresh],
        (h.clearTx (q := .rxPoll .sampleT0) rfl rfl fresh).goto rfl⟩
    · exact ⟨_, by simp only [readDecode, Config.rxCurMax, if_neg consumed, if_neg fresh],
        (h.clearTx (q := .respond .deliver) rfl rfl (by simp only [rxCurAt]; omega)).goto rfl⟩

/-- Storing a frame writes every byte of rx_buf. -/
theorem Mem.written_writeAll {m : Mem} {F : List Byte} (len : F.length = 32) : Written (m.writeAll 0 F) 32 := by
  intro j lt
  rw [Mem.read_writeAll, if_pos (by omega)]
  simpa [len] using lt

/-- A fetched frame stored, at a place that comes after. -/
theorem OpAt.store {p q : Phase} {s : State} (h : OpAt .readByte p s) (len : s.seq.asm.length = 32)
    (owns : ownsPlace .readByte q = true) (txCur : txCurWithin .readByte s.txCur q) (rxCur : rxCurAt q s.rxCur)
    (notAdvance : q ≠ .respond .advance := by simp) :
    OpAt .readByte q { s with rxBuf := s.rxBuf.writeAll 0 s.seq.asm } :=
  { h with
    owns := .inr owns
    txCur := ⟨h.txCur.1, txCur⟩
    rxCur := rxCur
    appended := fun e => absurd e notAdvance
    rxWritten := fun _ => Mem.written_writeAll len
    fetched := fun _ => Mem.written_writeAll len }

/-- An accepted frame: rx_cur goes to 1, and byte 1 is delivered next. -/
theorem OpAt.accepted {p : Phase} {s : State} (h : OpAt .readByte p s) (txCur : s.txCur = 0)
    (written : Written s.rxBuf 32) : OpAt .readByte (.respond .deliver) (s.setRxCur 1) :=
  { h with
    owns := .inr rfl
    txCur := ⟨h.txCur.1, txCur⟩
    rxCur := ⟨le_rfl, by simp⟩
    appended := by simp
    rxWritten := fun _ => written
    fetched := by simp }

/-- An edge of ContinueFetch after its wait. -/
theorem contFetch_keeps_inv {w : FetchAt} {s : State} (h : OpAt .readByte (.rxContFetch w) s)
    (returned : w = .store → s.seq.asm.length = 32) : ∃ t, contFetch w s = .next t ∧ MachineInv t := by
  have consumed : s.rxCur = 32 := h.rxCur
  cases w with
  | issue =>
    have store : OpAt .readByte (.rxContFetch .store) s := h.move rfl h.txCur.2 consumed
    exact ⟨_, rfl, store.call trivial rfl⟩
  | store =>
    have e : s.writeRx s.seq.asm = .ok { s with rxBuf := s.rxBuf.writeAll 0 s.seq.asm } :=
      (State.writeRx_ok _ _ _).mpr ⟨returned rfl, rfl⟩
    exact ⟨_, by rw [contFetch, e, andThen_ok],
      (h.store (q := .rxContFetch .setCur) (returned rfl) rfl h.txCur.2 consumed).goto rfl⟩
  | setCur => exact ⟨_, rfl, (h.accepted h.txCur.2 (h.rxWritten (by omega))).goto rfl⟩

/-- An edge of the frame poll. -/
theorem pollFrame_keeps_inv {w : PollAt} {s : State} (h : OpAt .readByte (.rxPoll w) s)
    (returned : w = .store → s.seq.asm.length = 32) : ∃ t, pollFrame w s = .next t ∧ MachineInv t := by
  have fresh : s.rxCur = 0 := h.rxCur
  have store : OpAt .readByte (.rxPoll .store) s := h.move rfl h.txCur.2 fresh
  cases w with
  | sampleT0 =>
    have first : OpAt .readByte (.rxPoll .store) (s.now.2.setT0 s.now.1) := { store.now with }
    exact ⟨_, rfl, first.call trivial rfl⟩
  | store =>
    have len := returned rfl
    have e : s.writeRx s.seq.asm = .ok { s with rxBuf := s.rxBuf.writeAll 0 s.seq.asm } :=
      (State.writeRx_ok _ _ _).mpr ⟨len, rfl⟩
    obtain ⟨ind, read, -⟩ := Mem.fetch_written (s.rxBuf.writeAll 0 s.seq.asm) Config.frameBytes 0 (by decide)
      (Mem.written_writeAll len 0 (by decide))
    have e' : pollFrame .store s = .next (({ s with rxBuf := s.rxBuf.writeAll 0 s.seq.asm }).goto
        (.rxPoll (if validIndicator ind then .setCur else .expire))) := by
      simp only [pollFrame, e, andThen_ok, State.readRx, read]
    refine ⟨_, e', ?_⟩
    split
    · exact (h.store (q := .rxPoll .setCur) len rfl h.txCur.2 fresh).goto rfl
    · exact (h.store (q := .rxPoll .expire) len rfl h.txCur.2 fresh).goto rfl
  | setCur => exact ⟨_, rfl, (h.accepted h.txCur.2 (h.fetched rfl)).goto rfl⟩
  | expire =>
    refine ⟨_, rfl, ?_⟩
    split
    · exact (h.move (q := .respond (.send _)) rfl trivial (.inl fresh)).now.goto rfl
    · exact (h.move (q := .rxPoll .yieldNext) rfl h.txCur.2 fresh).now.goto rfl
  | yieldNext =>
    have again : OpAt .readByte (.rxPoll .store) s.yieldNow := { store with }
    exact ⟨_, rfl, again.call trivial rfl⟩

/-- The edge of READ_BYTE that delivers. -/
theorem deliverByte_keeps_inv {s : State} (h : OpAt .readByte (.respond .deliver) s) :
    ∃ t, deliverByte s = .next t ∧ MachineInv t := by
  obtain ⟨low, high⟩ : 1 ≤ s.rxCur ∧ s.rxCur ≤ 31 := h.rxCur
  have written := h.rxWritten (by omega)
  obtain ⟨r, read, -⟩ := Mem.fetch_written s.rxBuf Config.frameBytes s.rxCur (Nat.lt_succ_of_le high)
    (written _ (Nat.lt_succ_of_le high))
  have delivered : OpAt .readByte (.respond (.send (byteResponse r))) (s.setRxCur (s.rxCur + 1)) :=
    { h with
      owns := .inr rfl
      txCur := ⟨h.txCur.1, trivial⟩
      rxCur := .inr ⟨Nat.succ_le_succ low, Nat.succ_le_succ high⟩
      appended := by simp
      rxWritten := fun _ => written
      fetched := by simp }
  exact ⟨_, by rw [deliverByte, State.readRx, read, andThen_ok], delivered.goto rfl⟩

theorem execReadByte_keeps_inv {s : State} (h : OpAt .readByte s.seq.phase s) (busy : s.seq.phase ≠ .idle)
    (returned : ∀ n, returnedAt .readByte s.seq.phase = some n → s.seq.asm.length = n) :
    ∃ t, execReadByte s = .next t ∧ MachineInv t := by
  rcases readByte_places (h.owns.resolve_left busy) with
    p | ⟨w, p⟩ | ⟨w, p⟩ | ⟨w, p⟩ | p | ⟨r, p⟩ <;> rw [p] at h returned
  · simpa only [execReadByte, p] using readDecode_keeps_inv h
  · have consumed : s.rxCur = 32 := h.rxCur
    have issue : OpAt .readByte (.rxContFetch .issue) s := h.move rfl h.txCur.2 consumed
    exact ⟨waitReady .tx Config.tReady .rxContWait (fun _ => .rxContFetch .issue) w s, by simp [execReadByte, p],
      waitReady_keeps_inv (.inr rfl) h (fun _ => ⟨issue, rfl⟩)⟩
  · simpa only [execReadByte, p] using contFetch_keeps_inv h (fun e => returned 32 (by rw [e]; rfl))
  · simpa only [execReadByte, p] using pollFrame_keeps_inv h (fun e => returned 32 (by rw [e]; rfl))
  · simpa only [execReadByte, p] using deliverByte_keeps_inv h
  · exact ⟨s.respond r, by simp [execReadByte, p], h.respond h.rxCur r⟩

/-- AVAIL and the reserved codes have no place but DECODE. -/
theorem decode_place {i : Instr} {p : Phase} (none' : rawCmd i = none) (noWait : waits i = false)
    (noFlush : flushes i = false) (noRead : i ≠ .readByte) (owns : ownsPlace i p = true) : p = .decode := by
  have noAppend : appends i = false := by cases i <;> simp [appends, flushes] at noFlush ⊢
  cases p with
  | decode => rfl
  | respond p => cases p <;> simp_all [ownsPlace, ownsTail]
  | idle | waitLoop | flushSend | rxContWait | rxContFetch | rxPoll => simp_all [ownsPlace]

theorem illegalStep_keeps_inv {i : Instr} {s : State} (h : OpAt i s.seq.phase s) (p : s.seq.phase = .decode) :
    ∃ t, illegalStep s = .next t ∧ MachineInv t := by
  rw [p] at h
  exact ⟨s.raiseIllegalOp, by simp [illegalStep, p], h.respond h.rxCur _⟩

/-- An edge of the operation in flight leads to a state of the invariant (R44, R51, R204). -/
theorem exec_keeps_inv {i : Instr} {s : State} (req : i.format = .request) (h : OpAt i s.seq.phase s)
    (busy : s.seq.phase ≠ .idle) (returned : ∀ n, returnedAt i s.seq.phase = some n → s.seq.asm.length = n) :
    ∃ t, exec i s = .next t ∧ MachineInv t := by
  have owns := h.owns.resolve_left busy
  cases i with
  | wrStatus w => exact rawStep_keeps_inv (result := fun _ => Rsp.ack) h busy rfl
  | wrData len frame => exact rawStep_keeps_inv (result := fun _ => Rsp.ack) h busy rfl
  | rdData => exact rawStep_keeps_inv h busy rfl
  | rdStatus => exact rawStep_keeps_inv h busy rfl
  | waitRx timeout => exact consumerWait_keeps_inv h busy rfl
  | waitTx timeout => exact consumerWait_keeps_inv h busy rfl
  | writeByte b => exact execWriteByte_keeps_inv h busy
  | flushFin => exact flushOp_keeps_inv h busy rfl rfl
  | flushCont => exact flushOp_keeps_inv h busy rfl rfl
  | readByte => exact execReadByte_keeps_inv h busy returned
  | avail =>
    have p := decode_place rfl rfl rfl (by simp) owns
    rw [p] at h
    exact ⟨s.respond (availResponse s.rxCur), by simp [exec, execAvail, p], h.respond h.rxCur _⟩
  | reserved0 => exact illegalStep_keeps_inv h (decode_place rfl rfl rfl (by simp) owns)
  | reserved7 => exact illegalStep_keeps_inv h (decode_place rfl rfl rfl (by simp) owns)
  | reservedD => exact illegalStep_keeps_inv h (decode_place rfl rfl rfl (by simp) owns)
  | reservedE => exact illegalStep_keeps_inv h (decode_place rfl rfl rfl (by simp) owns)
  | reservedF => exact illegalStep_keeps_inv h (decode_place rfl rfl rfl (by simp) owns)
  | wireWriteStatus w => cases req
  | wireWriteData payload => cases req
  | wireReadData => cases req
  | wireReadStatus => cases req

/-! ### The clock edge -/

/-- In IDLE there is no transaction. -/
theorem MachineInv.noTxn_of_idle {s : State} (h : MachineInv s) (idle : s.seq.phase = .idle) : s.seq.txn = none := by
  cases txn : s.seq.txn with
  | none => rfl
  | some x =>
    obtain ⟨-, calls, -⟩ := h.txnInv txn
    simp [callsAt, idle] at calls

theorem State.applyReset_inv (s : State) : MachineInv s.applyReset := by
  refine ⟨⟨.inl rfl, rfl, ?_⟩, ⟨⟨Nat.zero_le _, trivial⟩, .inl rfl⟩, ?_, ?_, ?_, ?_⟩ <;>
    simp [Written, Sequencer.reset, returnedAt]

/-- The edge that accepts a request. -/
theorem MachineInv.accept {s : State} (h : MachineInv s) (idle : s.seq.phase = .idle) (q : Req) :
    MachineInv (s.accept q) := by
  have op := h.opAt (h.noTxn_of_idle idle)
  have rxCur := op.rxCur
  rw [idle] at rxCur
  have fits : Fits (decodeReq q) .decode s :=
    { owns := .inr rfl, txCur := ⟨op.txCur.1, trivial⟩, rxCur := rxCur, txWritten := op.txWritten,
      appended := by simp, rxWritten := op.rxWritten, fetched := by simp }
  exact Fits.atPlace (s := s.accept q) (fits.same ⟨rfl, rfl, rfl, rfl⟩) rfl op.ss
    (fun n e => by simp [returnedAt] at e)

/-- From a state of the invariant an edge leads to a state of the invariant. -/
theorem step_total {s : State} (h : MachineInv s) : ∃ t, step s = .next t ∧ MachineInv t := by
  have live : MachineInv s.sampleRst.2.clearPulses := h.same (by simp [SameBuffers]) (by simp) (by simp)
  have asked : MachineInv s.sampleRst.2.clearPulses.sampleRequest.2 :=
    live.same (by simp [SameBuffers]) (by simp) (by simp)
  rcases s.fetch_cases with ⟨-, e⟩ | ⟨-, -, -, e⟩ | ⟨q, -, idle, -, e⟩ | ⟨-, busy, e⟩
  · exact ⟨_, step_of_quiet e, State.applyReset_inv _⟩
  · exact ⟨_, step_of_quiet e, asked⟩
  · exact ⟨_, step_of_quiet e, asked.accept (by simpa using idle) q⟩
  · rw [step_of_fetch e]
    rcases s.inFlight_cases with ⟨x, txn, i⟩ | ⟨noTxn, i⟩ <;> rw [i]
    · rw [exec_toInstr]
      exact txnStep_keeps_inv live (by simpa using txn)
    · have op := live.opAt (by simpa using noTxn)
      simp only [State.clearPulses_seq, State.sampleRst_seq] at op
      exact exec_keeps_inv (decodeReq_format _) (by simpa using op) (by simpa using busy)
        (fun n => by simpa using live.returned (n := n) (by simpa using noTxn))

/-- Settles O15: the next state is the one that every edge from a state of the invariant has. -/
theorem stepKeepsSequencerInv : Obligations.StepKeepsSequencerInv := by
  intro s t h e
  obtain ⟨u, e', inv⟩ := step_total h
  rwa [Host.Outcome.next.inj (e.symm.trans e')]

/-- Settles O16: the memory reads and writes of every place succeed, by what the invariant says of it. -/
theorem invariantNeverStops : Obligations.InvariantNeverStops := by
  intro s h
  obtain ⟨t, e, -⟩ := step_total h
  exact ⟨t, e⟩

end Sys2Proof.Machine
end

section
/-! PROOFS. R26, R30, R31, R34, R37: what follows of runs from the invariant, what operations leave alone, one reply per request. -/

namespace Sys2Proof.Machine

/-! ### Runs from the invariant -/

/-- Every run with rst = 0 keeps the invariant. -/
theorem runEdges_keeps_inv {n : Nat} {s t : State} (inv : MachineInv s) (h : runEdges n s = .next t) :
    MachineInv t := by
  induction n generalizing s with
  | zero => cases h; exact inv
  | succ n ih =>
    have low : MachineInv s.rstLow := inv
    obtain ⟨u, e, inv'⟩ := step_total low
    simp only [runEdges, e] at h
    exact ih inv' h

/-- Settles O20, by the ranges of the cursors at each place. -/
theorem cursorsBetweenOperations : Obligations.CursorsBetweenOperations := by
  intro n s t inv h
  have fits := (runEdges_keeps_inv inv h).fits
  constructor
  · intro idle
    have rxCur := fits.rxCur
    rw [idle] at rxCur
    exact ⟨fits.txCur.1, rxCur⟩
  · intro one
    have rxCur := fits.rxCur
    rw [one] at rxCur
    have place : t.seq.phase = .respond .deliver := by
      unfold rxCurAt at rxCur
      split at rxCur
      · assumption
      all_goals omega
    have owns := fits.owns
    rw [place] at owns
    exact ⟨place, by simpa [ownsPlace, ownsTail] using owns⟩

/-- Settles O21: the invariant after the edge says where the line may be ASSERTED. -/
theorem selectLineOnlyInPulses : Obligations.SelectLineOnlyInPulses := by
  intro s t inv h asserted
  have inv' : MachineInv t := stepKeepsSequencerInv s t inv h
  cases txn : t.seq.txn with
  | none => exact absurd (inv'.opAt txn).ss (by simp [asserted])
  | some x =>
    obtain ⟨-, calls, sub⟩ := inv'.txnInv txn
    refine ⟨fun idle => by simp [callsAt, idle] at calls, x, rfl, ?_⟩
    cases p : x.sub <;> simp [p, asserted] at sub ⊢

/-! ### What the edges of operations leave alone -/

section Operation

variable {s t : State}

theorem OpEdge.sameLink (h : OpEdge s t) : SameLink s t := by cases h <;> simp [SameLink]

theorem OpEdge.sameWorld (h : OpEdge s t) : SameWorld s t := by cases h <;> simp [SameWorld]

theorem OpEdge.req (h : OpEdge s t) : t.seq.req = s.seq.req := by cases h <;> simp

/-- t0 is written at the start of a polling loop only. -/
theorem OpEdge.t0 (h : OpEdge s t) (noWait : s.seq.phase ≠ .waitLoop .sampleT0)
    (noContWait : s.seq.phase ≠ .rxContWait .sampleT0) (noPoll : s.seq.phase ≠ .rxPoll .sampleT0) :
    t.seq.t0 = s.seq.t0 := by
  cases h with
  | loop c p wf at' busy => simp [noWait, noContWait, noPoll] at at'
  | _ => simp

/-- tx_buf is written at the cursor only, at the appending place. -/
theorem OpEdge.txBuf (h : OpEdge s t) {k : Nat} (other : k ≠ s.txCur ∨ s.seq.phase ≠ .respond .append) :
    t.txBuf.read k = s.txBuf.read k := by
  cases h with
  | append b p at' room busy => exact Mem.read_write_other _ _ _ _ (other.resolve_right (by simp [at']))
  | _ => simp

/-- rx_buf is written by the store of a frame only. -/
theorem OpEdge.rxBuf (h : OpEdge s t) {k : Nat}
    (other : 32 ≤ k ∨ (s.seq.phase ≠ .rxContFetch .store ∧ s.seq.phase ≠ .rxPoll .store)) :
    t.rxBuf.read k = s.rxBuf.read k := by
  cases h with
  | store p at' len busy =>
    have beyond : 32 ≤ k := other.resolve_right (fun no => at'.elim no.1 no.2)
    exact (Mem.read_writeAll _ _ _ _).trans (if_neg (by omega))
  | _ => simp

/-- The response ports are written by a response only. -/
theorem OpEdge.rsp (h : OpEdge s t) (busy : t.seq.phase ≠ .idle) :
    t.out.rspValid = s.out.rspValid ∧ t.out.rsp = s.out.rsp := by
  cases h with
  | respond r => exact absurd rfl busy
  | _ => simp

theorem OpEdge.yieldO (h : OpEdge s t) : t.out.yieldO = s.out.yieldO ∨ t.trace = .yielded :: s.trace := by
  cases h <;> simp

theorem OpEdge.warnO (h : OpEdge s t) :
    (t.out.warnO = s.out.warnO ∧ t.out.warnKind = s.out.warnKind) ∨
      t.trace = .warn t.out.warnKind :: s.trace := by
  cases h <;> simp

theorem OpEdge.timer (h : OpEdge s t) : t.env.timer = s.env.timer ∨ ∃ v, t.trace = .now v :: s.trace := by
  cases h <;> simp

/-- A transaction starts with an empty register; else the register stays until the response empties it. -/
theorem OpEdge.txn (h : OpEdge s t) :
    (t.seq.txn = s.seq.txn ∧ t.seq.asm = if t.seq.phase = .idle then [] else s.seq.asm) ∨
      ∃ c, t.seq.txn = some ⟨c, .startAssert⟩ ∧ t.seq.asm = [] := by
  cases h <;> simp [*]

end Operation

/-- Settles O23, field by field over the forms an edge of an operation has. -/
theorem operationFrame : Obligations.OperationFrame := by
  intro i s t req h
  have edge := exec_edge req h
  exact ⟨edge.sameLink, edge.sameWorld, edge.req, edge.t0, fun _ => edge.txBuf, fun _ => edge.rxBuf, edge.rsp,
    edge.yieldO, edge.warnO, edge.timer, edge.txn⟩

/-- Settles O13: neither operations nor transactions touch the request script or the latched request. -/
theorem busyAcceptsNothing : Obligations.BusyAcceptsNothing := by
  intro s t busy h
  refine ⟨by simp [State.reqReady, busy], ?_⟩
  rcases step_next h with ⟨-, rfl⟩ | ⟨idle, -⟩ | ⟨q, idle, -⟩ | ⟨-, h⟩
  · simp [Sequencer.reset]
  · exact absurd idle busy
  · exact absurd idle busy
  · rcases s.inFlight_cases with ⟨x, -, i⟩ | ⟨-, i⟩ <;> rw [i] at h
    · rw [exec_toInstr] at h
      obtain ⟨-, -, req, -, -, requests, -⟩ := txnStep_apart h
      exact ⟨by simpa using requests, fun _ => by simpa using req⟩
    · have edge := exec_edge (decodeReq_format _) h
      obtain ⟨-, requests, -⟩ := edge.sameWorld
      exact ⟨by simpa using requests, fun _ => by simpa using edge.req⟩

/-! ### Who writes the buffers -/

theorem waitReady_sameBuffers (sel : Sel) (budget : Nat) (here : WaitAt → Phase) (back : BitVec 4 → Phase)
    (w : WaitAt) (s : State) : SameBuffers s (waitReady sel budget here back w s) := by
  rcases waitReady_cases sel budget here back w s with
    ⟨-, q⟩ | ⟨-, -, q⟩ | ⟨-, -, -, q⟩ | ⟨-, -, -, q⟩ | ⟨-, q⟩ | ⟨-, q⟩ <;> rw [q] <;> simp [SameBuffers]

theorem rawStep_sameBuffers {c : WireCmd} {result : List Byte → Rsp} {s t : State}
    (h : rawStep c result s = .next t) : SameBuffers s t := by
  rcases rawStep_next h with ⟨-, rfl⟩ | ⟨-, rfl⟩ <;> exact ⟨rfl, rfl, rfl, rfl⟩

theorem consumerWait_sameBuffers {sel : Sel} {timeout : BitVec 16} {s t : State}
    (h : consumerWait sel timeout s = .next t) : SameBuffers s t := by
  rcases consumerWait_next h with ⟨-, rfl⟩ | ⟨w, -, rfl⟩ | ⟨r, -, rfl⟩
  · exact ⟨rfl, rfl, rfl, rfl⟩
  · exact waitReady_sameBuffers _ _ _ _ _ _
  · exact ⟨rfl, rfl, rfl, rfl⟩

theorem illegalStep_sameBuffers {s t : State} (h : illegalStep s = .next t) : SameBuffers s t := by
  obtain ⟨-, rfl⟩ := illegalStep_next h
  exact ⟨rfl, rfl, rfl, rfl⟩

/-- Settles O22, instruction by instruction. -/
theorem onlyMultiplexerWritesBuffers : Obligations.OnlyMultiplexerWritesBuffers := by
  intro i s t noWrite noFin noCont noRead h
  cases i with
  | wrStatus w => exact rawStep_sameBuffers (c := .writeStatus w) (result := fun _ => Rsp.ack) h
  | wrData len frame =>
    exact rawStep_sameBuffers (c := .writeData (payloadOf frame len.toNat)) (result := fun _ => Rsp.ack) h
  | rdData => exact rawStep_sameBuffers (c := .readData) (result := frameResponse) h
  | rdStatus => exact rawStep_sameBuffers (c := .readStatus) (result := statusResponse) h
  | waitRx timeout => exact consumerWait_sameBuffers h
  | waitTx timeout => exact consumerWait_sameBuffers h
  | writeByte b => exact absurd rfl (noWrite b)
  | flushFin => exact absurd rfl noFin
  | flushCont => exact absurd rfl noCont
  | readByte => exact absurd rfl noRead
  | avail =>
    obtain ⟨-, rfl⟩ := execAvail_next h
    exact ⟨rfl, rfl, rfl, rfl⟩
  | reserved0 => exact illegalStep_sameBuffers h
  | reserved7 => exact illegalStep_sameBuffers h
  | reservedD => exact illegalStep_sameBuffers h
  | reservedE => exact illegalStep_sameBuffers h
  | reservedF => exact illegalStep_sameBuffers h
  | wireWriteStatus w => exact (txnStep_apart h).1
  | wireWriteData payload => exact (txnStep_apart h).1
  | wireReadData => exact (txnStep_apart h).1
  | wireReadStatus => exact (txnStep_apart h).1

/-! ### One reply per request -/

/-- The events inside an operation: all but REQ and RSP. -/
def Event.inside : Event → Bool
  | .req _ | .rsp _ => false
  | .start | .stop | .x _ _ | .now _ | .yielded | .warn _ => true

theorem Event.inside_of_onWire : {e : Event} → e.onWire = true → e.inside = true
  | .start, _ | .stop, _ | .x _ _, _ => rfl

theorem awaiting_inside : {e : Event} → e.inside = true → ∀ tr, awaiting (e :: tr) = awaiting tr
  | .start, _, _ | .stop, _, _ | .x _ _, _, _ | .now _, _, _ | .yielded, _, _ | .warn _, _, _ => rfl

theorem replied_inside : {e : Event} → e.inside = true → ∀ tr, Replied (e :: tr) ↔ Replied tr
  | .start, _, _ | .stop, _, _ | .x _ _, _, _ | .now _, _, _ | .yielded, _, _ | .warn _, _, _ => Iff.rfl

/-- The trace of t is that of s with at most one event from inside an operation added. -/
def AtMostInside (s t : State) : Prop :=
  t.trace = s.trace ∨ ∃ e : Event, e.inside = true ∧ t.trace = e :: s.trace

/-- An edge of an operation responds, or adds at most one event from inside it. -/
theorem OpEdge.responds_or_inside {s t : State} (h : OpEdge s t) : (∃ r, t = s.respond r) ∨ AtMostInside s t := by
  cases h with
  | respond r => exact .inl ⟨r, rfl⟩
  | goto p busy => exact .inr (.inl rfl)
  | call c p wf busy => exact .inr (.inl rfl)
  | sample p busy => exact .inr (.inr ⟨.now s.sampleTimer.1, rfl, by simp⟩)
  | loop c p wf at' busy => exact .inr (.inr ⟨.now s.sampleTimer.1, rfl, by simp⟩)
  | warn k p busy => exact .inr (.inr ⟨_, rfl, rfl⟩)
  | again c p wf busy => exact .inr (.inr ⟨_, rfl, rfl⟩)
  | setTxCur n p busy => exact .inr (.inl rfl)
  | setRxCur n p busy => exact .inr (.inl rfl)
  | store p at' len busy => exact .inr (.inl rfl)
  | append b p at' room busy => exact .inr (.inl rfl)

/-- An edge of a transaction adds at most one event from inside an operation. -/
theorem txnStep_inside {body : List Byte} {capFrom : Nat} {s t : State} (h : txnStep body capFrom s = .next t) :
    AtMostInside s t := by
  obtain ⟨x, -, ⟨k, m, -, -, rfl⟩ | ⟨-, -, trace | ⟨e, wire, trace⟩⟩⟩ := txnStep_starts_or_emits h
  · exact .inl rfl
  · exact .inl trace
  · exact .inr ⟨e, Event.inside_of_onWire wire, trace⟩

/-- Inside an operation its request stays unanswered. -/
theorem AtMostInside.keeps_reply {s t : State} (h : AtMostInside s t) (replied : Replied s.trace)
    (unanswered : awaiting s.trace = true) : ReplyInv t := by
  rcases h with trace | ⟨e, inside, trace⟩ <;> rw [ReplyInv, trace]
  · exact ⟨replied, fun _ => unanswered⟩
  · rw [replied_inside inside, awaiting_inside inside]
    exact ⟨replied, fun _ => unanswered⟩

/-- Settles O19: the request in flight is unanswered until its operation's one response, which leads to IDLE. -/
theorem stepKeepsOneReplyPerRequest : Obligations.StepKeepsOneReplyPerRequest := by
  intro s t ⟨replied, unanswered⟩ h
  rcases step_next h with ⟨-, rfl⟩ | ⟨idle, rfl⟩ | ⟨q, -, rfl⟩ | ⟨busy, h⟩
  · exact ⟨by simpa using replied, fun busy => absurd rfl busy⟩
  · exact ⟨by simpa using replied, fun busy => absurd (by simpa using idle) busy⟩
  · exact ⟨by simpa [Replied] using replied, fun _ => rfl⟩
  · have replied' : Replied s.sampleRst.2.clearPulses.trace := by simpa using replied
    have unanswered' : awaiting s.sampleRst.2.clearPulses.trace = true := by simpa using unanswered busy
    rcases s.inFlight_cases with ⟨x, -, i⟩ | ⟨-, i⟩ <;> rw [i] at h
    · rw [exec_toInstr] at h
      exact (txnStep_inside h).keeps_reply replied' unanswered'
    · rcases (exec_edge (decodeReq_format _) h).responds_or_inside with ⟨r, rfl⟩ | inside
      · exact ⟨⟨unanswered', replied'⟩, fun busy => absurd rfl busy⟩
      · exact inside.keeps_reply replied' unanswered'

end Sys2Proof.Machine
end

section
/-! PROOFS. R37, R39, R42, R43, R180: single edges: reset, acceptance, what is executed, one exchange, the delivered byte. -/

namespace Sys2Proof.Machine

/-! ### Reset -/

/-- Settles O10: `State.reset` is written out field by field. -/
theorem resetLeavesGivenValues : Obligations.ResetLeavesGivenValues :=
  ⟨rfl, rfl, rfl, rfl, rfl, rfl, rfl, rfl, rfl, rfl, rfl, rfl, rfl⟩

/-- Settles O14: at reset nothing is in flight, the memories and the trace are empty. -/
theorem resetMeetsInvariants : Obligations.ResetMeetsInvariants := by
  have machine : MachineInv State.reset := State.applyReset_inv State.reset
  have mem : MemInv State.reset := ⟨rfl, rfl, by simp [State.reset], by simp [State.reset]⟩
  have wire : WireInv State.reset := ⟨trivial, by simp [State.reset, Sequencer.reset]⟩
  have reply : ReplyInv State.reset := ⟨trivial, fun busy => absurd rfl busy⟩
  exact ⟨machine, mem, wire, reply⟩

/-! ### What an edge executes -/

/-- What an edge finds when its rst sample is scripted 0. -/
theorem fetch_of_rst_low {s : State} {rs : List Bool} {f : Fetched} (h : s.env.rst = false :: rs)
    (e : ({ s with env := { s.env with rst := rs } } : State).rstLow.fetch = f) : s.fetch = f := by
  have same : ({ s with env := { s.env with rst := rs } } : State).rstLow = s := by simp [State.rstLow, ← h]
  rwa [same] at e

theorem fetch_reset {s : State} {rs : List Bool} (h : s.env.rst = true :: rs) :
    s.fetch = .quiet ({ s with env := { s.env with rst := rs } } : State).applyReset := by
  rw [State.fetch, State.sampleRst_scripted _ _ _ h]

/-- An idle edge at which no request is presented only ends the pulses. -/
theorem fetch_idle_none {s : State} {more : List (Option Req)} (h : s.seq.phase = .idle)
    (hq : s.env.requests = none :: more) :
    s.rstLow.fetch = .quiet ({ s with env := { s.env with requests := more } } : State).clearPulses := by
  have hr : s.clearPulses.sampleRequest =
      (none, { s.clearPulses with env := { s.clearPulses.env with requests := more } }) :=
    State.sampleRequest_scripted _ _ _ hq
  rw [State.rstLow_fetch, State.fetchLive, State.clearPulses_seq, h]
  simp only [State.fetchIdle, hr]
  rfl

/-- Settles O9, clause by clause from what `State.fetch` finds at the edge. -/
theorem stepRunsDecodedInstruction : Obligations.StepRunsDecodedInstruction := by
  rintro s rs u rfl
  refine ⟨fun h => step_of_quiet (fetch_reset h), fun h idle q more requests => ?_, fun h idle more requests => ?_,
    fun h busy t txn => ?_, fun h busy noTxn => ?_⟩
  · exact ⟨_, step_of_quiet (fetch_of_rst_low h (fetch_accept idle requests)), rfl, rfl, rfl, rfl, rfl, rfl,
      ⟨rfl, rfl, rfl, rfl⟩, rfl, rfl⟩
  · exact step_of_quiet (fetch_of_rst_low h (fetch_idle_none idle requests))
  · exact step_of_fetch (fetch_of_rst_low h (fetch_wire busy txn))
  · exact step_of_fetch (fetch_of_rst_low h (fetch_operation busy noTxn))

/-! ### Single edges of READ_BYTE and of an exchange -/

/-- Settles O38: the byte is read, the cursor set, and the place left. -/
theorem readByteDeliversAtCursor : Obligations.ReadByteDeliversAtCursor := by
  intro s r place lt read
  have fetched : s.readRx s.rxCur = .ok r := (Mem.fetch_ok _ _ _ _).mpr ⟨lt, read⟩
  have delivers : exec .readByte s =
      .next ((s.setRxCur (s.rxCur + 1)).goto (.respond (.send (byteResponse r)))) := by
    simp [exec, execReadByte, place, deliverByte, fetched]
  exact ⟨_, delivers, rfl, rfl, rfl, rfl, rfl, rfl, rfl, rfl, rfl, rfl, rfl⟩

/-- An edge of exchange k of a wire command. -/
theorem exec_body {c : WireCmd} {s : State} {k : Nat} {m : Byte} {sent : Bool} (hm : (wireBody c)[k]? = some m)
    (txn : s.seq.txn = some ⟨c, .body k sent⟩) :
    exec c.toInstr s = .next (s.byteStep m (decide (captureFrom c ≤ k)) k (wireBody c).length sent) := by
  rw [exec_toInstr]
  simp [txnStep, txn, hm]

/-- Settles O40: `State.byteStep` with the serializer's scripted sample. -/
theorem wireExchangeMovesOneByte : Obligations.WireExchangeMovesOneByte := by
  intro c s k m hm
  refine ⟨fun txn => ?_, fun txn more serial => ?_, fun txn b more serial => ?_⟩
  · exact ⟨(s.startByte m).gotoTxn (.body k true), exec_body hm txn, rfl, rfl, by simp [txn], rfl, rfl, rfl⟩
  · rw [exec_body hm txn, State.byteStep, State.sampleSerial_scripted _ _ _ serial]
    rfl
  · rw [exec_body hm txn, State.byteStep, State.sampleSerial_scripted _ _ _ serial]
    refine ⟨_, rfl, ?_⟩
    simp [State.finishByte_eq, txn, afterByte]

end Sys2Proof.Machine
end

section
/-! PROOFS. R22, R142 to R148, R160, R161: whole waits and WRITE_BYTE with a full buffer, from request to response. -/

namespace Sys2Proof.Machine

/-! ### A whole transaction (R110 to R117) -/

theorem Apart.busy {s t : State} (h : Apart s t) (busy : s.seq.phase ≠ .idle) : t.seq.phase ≠ .idle := by
  obtain ⟨-, phase, -⟩ := h
  rwa [phase]

/-- The exchanges of a body from exchange k on, answered one after the other. -/
theorem body_reaches (ws : List (Nat × Byte)) (s : State) (c : WireCmd) (k : Nat) (rest : List (Option Byte))
    (busy : s.seq.phase ≠ .idle) (txn : s.seq.txn = some ⟨c, .body k false⟩) (left : ws ≠ [])
    (len : k + ws.length = (wireBody c).length) (serial : s.env.serial = answers ws ++ rest) :
    ∃ t, Reaches s t ∧ Apart s t ∧ t.seq.txn = some ⟨c, .endAssert⟩ ∧
      t.seq.asm = s.seq.asm ++ (misoOf ws).drop (captureFrom c - k) ∧ t.ss = s.ss ∧
      t.trace = (List.zipWith Event.x ((wireBody c).drop k) (misoOf ws)).reverse ++ s.trace ∧
      t.env.serial = rest := by
  induction ws generalizing s k with
  | nil => exact absurd rfl left
  | cons w ws ih =>
    obtain ⟨n, b⟩ := w
    have lt : k < (wireBody c).length := by simp only [List.length_cons] at len; omega
    obtain ⟨t, run, apart, txn', asm, ss, trace, serial'⟩ := byte_reaches n s c k (wireBody c)[k] b
      (answers ws ++ rest) busy txn (List.getElem?_eq_getElem lt) (by simpa [answers] using serial)
    have asm' (bs : List Byte) : t.seq.asm ++ bs.drop (captureFrom c - (k + 1)) =
        s.seq.asm ++ (b :: bs).drop (captureFrom c - k) := by
      rw [asm]
      split
      · simp [show captureFrom c - k = 0 by omega, show captureFrom c - (k + 1) = 0 by omega]
      · simp [show captureFrom c - k = (captureFrom c - (k + 1)) + 1 by omega]
    have trace' (bs : List Byte) :
        (List.zipWith Event.x ((wireBody c).drop (k + 1)) bs).reverse ++ t.trace =
          (List.zipWith Event.x ((wireBody c).drop k) (b :: bs)).reverse ++ s.trace := by
      rw [trace, List.drop_eq_getElem_cons lt, List.zipWith_cons_cons, List.reverse_cons, List.append_assoc,
        List.singleton_append]
    cases ws with
    | nil =>
      have last : k + 1 = (wireBody c).length := by simpa using len
      rw [afterByte, if_neg (by omega)] at txn'
      exact ⟨t, run, apart, txn', by simpa [misoOf] using asm' [], ss, by simpa [misoOf] using trace' [],
        by simpa [answers] using serial'⟩
    | cons w' ws =>
      rw [afterByte, if_pos (by simp only [List.length_cons] at len; omega)] at txn'
      obtain ⟨u, run', apart', txn'', asm'', ss', trace'', serial''⟩ :=
        ih t (k + 1) (apart.busy busy) txn' (by simp)
          (by simp only [List.length_cons] at len ⊢; omega) serial'
      exact ⟨u, run.trans run', apart.trans apart', txn'', asm''.trans (asm' _), ss'.trans ss,
        trace''.trans (trace' _), serial''⟩

/-- A whole transaction, from its start pulse to its return. -/
theorem transaction_executes {s : State} {c : WireCmd} {ws : List (Nat × Byte)} {rest : List (Option Byte)}
    (busy : s.seq.phase ≠ .idle) (txn : s.seq.txn = some ⟨c, .startAssert⟩) (ss : s.ss = .deasserted)
    (asm : s.seq.asm = []) (len : ws.length = (wireBody c).length) (serial : s.env.serial = answers ws ++ rest) :
    ∃ t, Executes s c.toInstr t ∧ Apart s t ∧ t.seq.txn = none ∧ t.seq.asm = (misoOf ws).drop (captureFrom c) ∧
      t.ss = .deasserted ∧ t.trace = (txnEvents c (misoOf ws)).reverse ++ s.trace ∧ t.env.serial = rest := by
  have left : ws ≠ [] := List.ne_nil_of_length_pos (len ▸ wireBody_length_pos c)
  obtain ⟨t, run1, apart1, txn1, asm1, ss1, trace1, serial1⟩ := start_reaches s c busy txn ss
  obtain ⟨u, run2, apart2, txn2, asm2, ss2, trace2, serial2⟩ := body_reaches ws t c 0 rest
    (apart1.busy busy) txn1 left (by simpa using len) (serial1.trans serial)
  have busy2 : u.seq.phase ≠ .idle := (apart1.trans apart2).busy busy
  have run3 : Reaches u u.clearPulses.assertSs :=
    reaches_wire busy2 txn2 (by simp [txnStep, txn2, State.endAssertStep, ss2, ss1])
  have apart3 : Apart u u.clearPulses.assertSs := by simp [Apart, SameBuffers]
  obtain ⟨v, run4, apart4, txn4, asm4, ss4, trace4, serial4⟩ :=
    end_executes _ u.clearPulses.assertSs c busy2 rfl txn2 rfl
  refine ⟨v, Reaches.executes ((run1.trans run2).trans run3) run4,
    (apart1.trans apart2).trans (apart3.trans apart4), txn4, ?_, ss4, ?_, ?_⟩
  · simpa [asm4, asm1, asm] using asm2
  · simp [trace4, trace2, trace1, txnEvents]
  · simpa [serial4] using serial2

/-! ### An operation on its way -/

theorem SameBuffers.trans {s t u : State} (h1 : SameBuffers s t) (h2 : SameBuffers t u) : SameBuffers s u := by
  obtain ⟨a1, a2, a3, a4⟩ := h1
  obtain ⟨b1, b2, b3, b4⟩ := h2
  exact ⟨b1.trans a1, b2.trans a2, b3.trans a3, b4.trans a4⟩

/-- The trace so far, and the samples to come. -/
structure Course where
  trace    : List Event
  requests : List (Option Req)
  serial   : List (Option Byte)
  timer    : List Ms

/-- In s the operation of request q is at place p, where the trace and the inputs have come as far as w says. -/
structure Under (q : Req) (p : Phase) (w : Course) (s : State) : Prop where
  req : s.seq.req = q
  phase : s.seq.phase = p
  ss : s.ss = .deasserted
  trace : s.trace = w.trace
  requests : s.env.requests = w.requests
  serial : s.env.serial = w.serial
  timer : s.env.timer = w.timer

/-- No transaction is in flight: the next edge executes the operation at p. -/
structure Stands (q : Req) (p : Phase) (w : Course) (s : State) : Prop extends Under q p w s where
  noTxn : s.seq.txn = none

/-- The transaction of c is about to start and returns to p. -/
structure Calls (q : Req) (c : WireCmd) (p : Phase) (w : Course) (s : State) : Prop extends Under q p w s where
  txn : s.seq.txn = some ⟨c, .startAssert⟩
  asm : s.seq.asm = []

/-- The end of the pulses of the last cycle changes none of this. -/
theorem Stands.clearPulses {q : Req} {p : Phase} {w : Course} {s : State} (h : Stands q p w s) :
    Stands q p w s.clearPulses := { h with }

theorem Stands.busy {q : Req} {p : Phase} {w : Course} {s : State} (h : Stands q p w s) (busy : p ≠ .idle) :
    s.seq.phase ≠ .idle := by rw [h.phase]; exact busy

/-- An edge of the operation. -/
theorem Stands.executes {q : Req} {p : Phase} {w : Course} {s t : State} (h : Stands q p w s) (busy : p ≠ .idle)
    (e : exec (decodeReq q) s.clearPulses = .next t) : Executes s (decodeReq q) t :=
  ⟨s, s.clearPulses, .refl s, by rw [fetch_operation (h.busy busy) h.noTxn, h.req], e⟩

theorem Stands.edge {q : Req} {p : Phase} {w : Course} {s t : State} (h : Stands q p w s) (busy : p ≠ .idle)
    (e : exec (decodeReq q) s.clearPulses = .next t) : Reaches s t :=
  (h.executes busy e).reaches

/-- A called transaction returns. -/
theorem Calls.returns {q : Req} {c : WireCmd} {p : Phase} {tr : List Event} {reqs : List (Option Req)}
    {ws : List (Nat × Byte)} {rest : List (Option Byte)} {ts : List Ms} {s : State}
    (h : Calls q c p ⟨tr, reqs, answers ws ++ rest, ts⟩ s) (busy : p ≠ .idle)
    (len : ws.length = (wireBody c).length) :
    ∃ t, Reaches s t ∧ SameBuffers s t ∧ Stands q p ⟨(txnEvents c (misoOf ws)).reverse ++ tr, reqs, rest, ts⟩ t ∧
      t.seq.asm = (misoOf ws).drop (captureFrom c) ∧ t.seq.t0 = s.seq.t0 := by
  obtain ⟨t, run, ⟨buffers, phase, req, t0, timer, requests, -, -⟩, noTxn, asm, ss, trace, serial⟩ :=
    transaction_executes (by rw [h.phase]; exact busy) h.txn h.ss h.asm len h.serial
  exact ⟨t, run.reaches, buffers,
    { req := req.trans h.req, phase := phase.trans h.phase, ss := ss, trace := by rw [trace, h.trace]
      requests := requests.trans h.requests, serial := serial, timer := timer.trans h.timer, noTxn := noTxn },
    asm, t0⟩

/-- `Now()` takes the next sample of the script. -/
theorem State.now_scripted {s : State} {x : Ms} {ts : List Ms} (h : s.env.timer = x :: ts) :
    s.now = (x, ({ s with env := { s.env with timer := ts } } : State).emit (.now x)) := by
  rw [State.now, State.sampleTimer_scripted _ _ _ h]

/-- A READSTATUS answered with the word w leaves w in the register. -/
theorem lastField_of_statusAnswer {sel : Sel} {s : State} {ws : List (Nat × Byte)} {w : Word}
    (h : statusAnswer ws w) (asm : s.seq.asm = (misoOf ws).drop 1) : lastField sel s = waitField sel w := by
  obtain ⟨d, miso⟩ := h
  have word : s.seq.asm = wordBytes w := by rw [asm, miso, wordBytes_eq]; rfl
  rw [lastField, word, assembleWord_wordBytes]
  cases sel <;> rfl

theorem statusAnswer_length {ws : List (Nat × Byte)} {w : Word} (h : statusAnswer ws w) : ws.length = 5 := by
  obtain ⟨d, miso⟩ := h
  simpa [misoOf] using congrArg List.length miso

/-! ### The ready-polling loop (R142) -/

section WaitLoop

variable {q : Req} {sel : Sel} {budget : Nat} {here : WaitAt → Phase} {back : BitVec 4 → Phase}

/-- The operation of q runs the polling loop at the places `here`, and goes on from it at `back`. -/
structure Polls (q : Req) (sel : Sel) (budget : Nat) (here : WaitAt → Phase) (back : BitVec 4 → Phase) : Prop where
  runs : ∀ w v, v.seq.phase = here w → exec (decodeReq q) v = .next (waitReady sel budget here back w v)
  busy : ∀ w, here w ≠ .idle

variable {tr : List Event} {reqs : List (Option Req)} {ser : List (Option Byte)} {ts : List Ms} {s : State}

/-- An edge of the loop. -/
theorem Polls.edge {w : WaitAt} {co : Course} (loop : Polls q sel budget here back) (h : Stands q (here w) co s) :
    Reaches s (waitReady sel budget here back w s.clearPulses) :=
  h.edge (loop.busy w) (loop.runs w _ h.phase)

/-- t0 is sampled, and the first status read starts. -/
theorem Polls.begins {t0 : Ms} (loop : Polls q sel budget here back)
    (h : Stands q (here .sampleT0) ⟨tr, reqs, ser, t0 :: ts⟩ s) :
    ∃ t, Reaches s t ∧ SameBuffers s t ∧ Calls q .readStatus (here .test) ⟨.now t0 :: tr, reqs, ser, ts⟩ t ∧
      t.seq.t0 = t0 := by
  refine ⟨_, loop.edge h, ?_⟩
  rw [waitReady, State.now_scripted h.clearPulses.timer]
  exact ⟨⟨rfl, rfl, rfl, rfl⟩,
    { h with phase := rfl, trace := congrArg _ h.trace, timer := rfl, txn := rfl, asm := rfl }, rfl⟩

/-- A status read that returns the word w. -/
theorem Calls.readsStatus {ws : List (Nat × Byte)} {w : Word} {p : Phase} (busy : p ≠ .idle)
    (answered : statusAnswer ws w) (h : Calls q .readStatus p ⟨tr, reqs, answers ws ++ ser, ts⟩ s) :
    ∃ t, Reaches s t ∧ SameBuffers s t ∧
      Stands q p ⟨(txnEvents .readStatus (misoOf ws)).reverse ++ tr, reqs, ser, ts⟩ t ∧
      lastField sel t = waitField sel w ∧ t.seq.t0 = s.seq.t0 := by
  obtain ⟨t, run, buffers, stands, asm, t0⟩ := h.returns busy (statusAnswer_length answered)
  exact ⟨t, run, buffers, stands, lastField_of_statusAnswer answered asm, t0⟩

theorem Sel.ready_eq (sel : Sel) : sel.ready = 0x1#4 := by cases sel <;> rfl

/-- READY ends the loop with no Timer sample (R142). -/
theorem Polls.ready (loop : Polls q sel budget here back) (h : Stands q (here .test) ⟨tr, reqs, ser, ts⟩ s)
    (ready : lastField sel s = 0x1#4) :
    ∃ t, Reaches s t ∧ SameBuffers s t ∧ Stands q (back (lastField sel s)) ⟨tr, reqs, ser, ts⟩ t := by
  have e : waitReady sel budget here back .test s.clearPulses = s.clearPulses.goto (back (lastField sel s)) :=
    if_pos (ready.trans sel.ready_eq.symm)
  have run := loop.edge h
  rw [e] at run
  exact ⟨_, run, ⟨rfl, rfl, rfl, rfl⟩, { h with phase := rfl }⟩

/-- The Timer sample after a read that does not show READY. -/
theorem Polls.samples {t1 : Ms} (loop : Polls q sel budget here back)
    (h : Stands q (here .test) ⟨tr, reqs, ser, t1 :: ts⟩ s) (notReady : lastField sel s ≠ 0x1#4) :
    ∃ t, Reaches s t ∧ SameBuffers s t ∧ t.seq.t0 = s.seq.t0 ∧ lastField sel t = lastField sel s ∧
      Stands q (here (if budget ≤ (t1 - s.seq.t0).toNat then .warn else .yieldNext))
        ⟨.now t1 :: tr, reqs, ser, ts⟩ t := by
  have notReady' : lastField sel s.clearPulses ≠ sel.ready := fun e => notReady (e.trans sel.ready_eq)
  have now := State.now_scripted h.clearPulses.timer
  have test : expired s.clearPulses.seq.t0 s.clearPulses.now.1 budget = decide (budget ≤ (t1 - s.seq.t0).toNat) := by
    rw [now]
    rfl
  have e : waitReady sel budget here back .test s.clearPulses = s.clearPulses.now.2.goto
      (here (if budget ≤ (t1 - s.seq.t0).toNat then .warn else .yieldNext)) := by
    simp only [waitReady, if_neg notReady', test, decide_eq_true_eq]
    split <;> rfl
  have run := loop.edge h
  rw [e, now] at run
  refine ⟨_, run, ?_⟩
  exact ⟨⟨rfl, rfl, rfl, rfl⟩, rfl, rfl, { h with phase := rfl, trace := congrArg _ h.trace, timer := rfl }⟩

/-- A turn that goes on: one sample, one yield, and the next status read starts. -/
theorem Polls.goesOn {t1 : Ms} (loop : Polls q sel budget here back)
    (h : Stands q (here .test) ⟨tr, reqs, ser, t1 :: ts⟩ s) (notReady : lastField sel s ≠ 0x1#4)
    (early : (t1 - s.seq.t0).toNat < budget) :
    ∃ t, Reaches s t ∧ SameBuffers s t ∧
      Calls q .readStatus (here .test) ⟨.yielded :: .now t1 :: tr, reqs, ser, ts⟩ t ∧ t.seq.t0 = s.seq.t0 := by
  obtain ⟨t, run, buffers, t0, -, stands⟩ := loop.samples h notReady
  rw [if_neg (Nat.not_le.mpr early)] at stands
  exact ⟨t.clearPulses.yieldNow.call .readStatus (here .test), run.trans (loop.edge stands), buffers,
    { stands with phase := rfl, trace := congrArg _ stands.trace, txn := rfl, asm := rfl }, t0⟩

/-- An expired sample ends the loop with one warning (R144). -/
theorem Polls.expires {t1 : Ms} (loop : Polls q sel budget here back)
    (h : Stands q (here .test) ⟨tr, reqs, ser, t1 :: ts⟩ s) (notReady : lastField sel s ≠ 0x1#4)
    (late : budget ≤ (t1 - s.seq.t0).toNat) :
    ∃ t, Reaches s t ∧ SameBuffers s t ∧
      Stands q (back (lastField sel s)) ⟨waitWarning sel :: .now t1 :: tr, reqs, ser, ts⟩ t := by
  obtain ⟨t, run, buffers, -, field, stands⟩ := loop.samples h notReady
  rw [if_pos late] at stands
  have warning : waitWarning sel = .warn sel.kind := by cases sel <;> rfl
  refine ⟨(t.clearPulses.warn sel.kind).goto (back (lastField sel t)), run.trans (loop.edge stands), buffers, ?_⟩
  rw [warning, ← field]
  exact { stands with phase := rfl, trace := congrArg _ stands.trace }

/-- From the start of a status read on, the turns that go on and the last read lead out of the loop; of the events of
the wait only the first, the sample of t0, lies before it. -/
theorem Polls.ends {w : Word} {t0 : Ms} {ws : List (Nat × Byte)} {late : Option Ms} (turns : List Turn)
    (loop : Polls q sel budget here back) (ok : (⟨t0, turns, ws, w, late⟩ : WaitRun).ok sel budget)
    (h0 : s.seq.t0 = t0)
    (h : Calls q .readStatus (here .test) ⟨tr, reqs, (⟨t0, turns, ws, w, late⟩ : WaitRun).serial ++ ser,
      turns.map (fun p => p.t1) ++ late.toList ++ ts⟩ s) :
    ∃ t, Reaches s t ∧ SameBuffers s t ∧ Stands q (back (waitField sel w))
      ⟨(((⟨t0, turns, ws, w, late⟩ : WaitRun).events sel).tail).reverse ++ tr, reqs, ser, ts⟩ t := by
  induction turns generalizing s tr with
  | nil =>
    obtain ⟨-, answered, outcome⟩ := ok
    obtain ⟨t, run, buffers, stands, field, t0'⟩ := h.readsStatus (sel := sel) (loop.busy _) answered
    cases late with
    | none =>
      obtain ⟨u, run', buffers', stands'⟩ := loop.ready stands (field.trans outcome)
      refine ⟨u, run.trans run', buffers.trans buffers', ?_⟩
      simpa [field, WaitRun.events, turnEvents] using stands'
    | some t1 =>
      obtain ⟨notReady, expired⟩ := outcome
      obtain ⟨u, run', buffers', stands'⟩ :=
        loop.expires stands (field ▸ notReady) (by rw [t0', h0]; exact expired)
      refine ⟨u, run.trans run', buffers.trans buffers', ?_⟩
      simpa [field, WaitRun.events, turnEvents] using stands'
  | cons turn turns ih =>
    obtain ⟨goOn, answered, outcome⟩ := ok
    obtain ⟨⟨v, read, notReady⟩, early⟩ := goOn turn List.mem_cons_self
    simp only [WaitRun.serial, turnAnswers, List.append_assoc, List.map_cons, List.cons_append] at h
    obtain ⟨t, run, buffers, stands, field, t0'⟩ := h.readsStatus (sel := sel) (loop.busy _) read
    obtain ⟨u, run', buffers', calls, t0''⟩ :=
      loop.goesOn stands (field ▸ notReady) (by rw [t0', h0]; exact early)
    have ok' : (⟨t0, turns, ws, w, late⟩ : WaitRun).ok sel budget :=
      ⟨fun p mem => goOn p (List.mem_cons_of_mem _ mem), answered, outcome⟩
    obtain ⟨x, run'', buffers'', stands''⟩ := ih ok' (t0''.trans (t0'.trans h0))
      (by simpa [WaitRun.serial] using calls)
    refine ⟨x, (run.trans run').trans run'', (buffers.trans buffers').trans buffers'', ?_⟩
    simpa [WaitRun.events, turnEvents] using stands''

/-- A whole wait, from its first sample to what comes after it (R142 to R144). -/
theorem Polls.performs (loop : Polls q sel budget here back) (r : WaitRun) (ok : r.ok sel budget)
    (h : Stands q (here .sampleT0) ⟨tr, reqs, r.serial ++ ser, r.timer ++ ts⟩ s) :
    ∃ t, Reaches s t ∧ SameBuffers s t ∧
      Stands q (back (waitField sel r.w)) ⟨(r.events sel).reverse ++ tr, reqs, ser, ts⟩ t := by
  obtain ⟨t, run, buffers, calls, t0⟩ := loop.begins h
  obtain ⟨u, run', buffers', stands⟩ := loop.ends r.turns ok t0 calls
  refine ⟨u, run.trans run', buffers.trans buffers', ?_⟩
  simpa [WaitRun.events] using stands

end WaitLoop

/-! ### From the request, and to the response -/

/-- A presented request is accepted, and its operation stands at DECODE. -/
theorem Presents.accepted {s : State} {q : Req} (h : Presents s q) :
    ∃ t reqs, Reaches s t ∧ SameBuffers s t ∧
      Stands q .decode ⟨.req q :: s.trace, reqs, s.env.serial, s.env.timer⟩ t := by
  obtain ⟨idle, -, ss, more, requests⟩ := h
  exact ⟨_, more, reaches_accept idle requests, ⟨rfl, rfl, rfl, rfl⟩,
    { req := rfl, phase := rfl, ss := ss, trace := rfl, requests := rfl, serial := rfl, timer := rfl, noTxn := rfl }⟩

/-- An operation that has come from its request to the sending place performs with its response. -/
theorem Stands.performs {s t : State} {q : Req} {r : Rsp} {evs : List Event} {tr : List Event}
    {reqs : List (Option Req)} {ser : List (Option Byte)} {ts : List Ms} (run : Reaches s t)
    (h : Stands q (.respond (.send r)) ⟨tr, reqs, ser, ts⟩ t) (trace : tr = evs.reverse ++ .req q :: s.trace)
    (sends : ∀ v, v.seq.phase = .respond (.send r) → exec (decodeReq q) v = .next (v.respond r)) :
    ∃ u, Performs s q (decodeReq q) evs r u ∧ SameBuffers t u ∧ u.env.requests = reqs ∧ u.env.serial = ser ∧
      u.env.timer = ts := by
  have e := sends t.clearPulses h.phase
  refine ⟨_, ⟨rfl, run.executes (h.executes (by simp) e), rfl, h.noTxn, h.ss, rfl, rfl, ?_⟩, ⟨rfl, rfl, rfl, rfl⟩,
    h.requests, h.serial, h.timer⟩
  rw [State.respond_trace, State.clearPulses_trace, h.trace, trace]
  rfl

/-! ### WAIT_RX and WAIT_TX -/

/-- Either wait, from its request to its response. -/
theorem wait_performs {s : State} {q : Req} {sel : Sel} {timeout : BitVec 16} {r : WaitRun}
    {rest : List (Option Byte)} {ts : List Ms} (presented : Presents s q)
    (runs : ∀ v, exec (decodeReq q) v = consumerWait sel timeout v) (ok : r.ok sel timeout.toNat)
    (serial : s.env.serial = r.serial ++ rest) (timer : s.env.timer = r.timer ++ ts) :
    ∃ t, Performs s q (decodeReq q) (r.events sel) { byte := (waitField sel r.w).setWidth 8 } t ∧
      SameBuffers s t ∧ t.env.serial = rest ∧ t.env.timer = ts := by
  have loop : Polls q sel timeout.toNat .waitLoop (fun f => .respond (.send (fieldResponse f))) :=
    ⟨fun w v place => by rw [runs, consumerWait, place]; rfl, by simp⟩
  obtain ⟨t, reqs, run, buffers, decode⟩ := presented.accepted
  rw [serial, timer] at decode
  have e : exec (decodeReq q) t.clearPulses = .next (t.clearPulses.goto (.waitLoop .sampleT0)) := by
    rw [runs, consumerWait, decode.clearPulses.phase]
  have first : Stands q (.waitLoop .sampleT0)
      ⟨.req q :: s.trace, reqs, r.serial ++ rest, r.timer ++ ts⟩ (t.clearPulses.goto (.waitLoop .sampleT0)) :=
    { decode with phase := rfl }
  obtain ⟨u, run', buffers', done⟩ := loop.performs r ok first
  obtain ⟨x, performs, buffers'', -, serial', timer'⟩ :=
    done.performs ((run.trans (decode.edge (by simp) e)).trans run') rfl
      (fun v place => by rw [runs, consumerWait, place])
  exact ⟨x, performs, (buffers.trans buffers').trans buffers'', serial', timer'⟩

theorem decodeReq_waitRx {q : Req} (op : q.op = 0x5#4) : decodeReq q = .waitRx (q.a32.extractLsb' 0 16) := by
  rw [decodeReq, op]
  simp [BitVec.extractLsb', Nat.shiftRight_zero]

theorem decodeReq_waitTx {q : Req} (op : q.op = 0x6#4) : decodeReq q = .waitTx (q.a32.extractLsb' 0 16) := by
  rw [decodeReq, op]
  simp [BitVec.extractLsb', Nat.shiftRight_zero]

/-- Settles O48: either wait is the loop with its own field and warning. -/
theorem waitsPerform : Obligations.WaitsPerform := by
  intro s q sel i r f kind rest ts presented which ok serial timer
  rcases which with ⟨op, rfl, rfl, rfl, rfl⟩ | ⟨op, rfl, rfl, rfl, rfl⟩
  · obtain ⟨t, performs, same⟩ := wait_performs presented
      (fun v => by rw [decodeReq_waitRx op]; rfl) ok serial timer
    exact ⟨t, _, decodeReq_waitRx op ▸ performs, rfl, same⟩
  · obtain ⟨t, performs, same⟩ := wait_performs presented
      (fun v => by rw [decodeReq_waitTx op]; rfl) ok serial timer
    exact ⟨t, _, decodeReq_waitTx op ▸ performs, rfl, same⟩

/-! ### A whole flush of pending bytes (R160) -/

/-- TXB read from index 0 gives the bytes it holds. -/
theorem State.readTxMany_holds {s : State} {data : List Byte} (holds : Holds s.txBuf data) (len : data.length ≤ 31) :
    s.readTxMany 0 data.length = .ok data := by
  obtain ⟨bs, read, len', bytes⟩ := s.readTxMany_written 0 data.length (by simpa [Config.txCap] using len)
    (fun j _ lt => by rw [holds j (by omega)]; simpa using lt)
  have same : bs = data := by
    apply List.ext_getElem?
    intro k
    by_cases lt : k < data.length
    · rw [bytes k lt, Nat.zero_add, holds k lt]
    · rw [List.getElem?_eq_none (by omega), List.getElem?_eq_none (by omega)]
  rw [read, same]

/-- What a flush sends is the frame of R87. -/
theorem payloadOf_muxPayload (ind : Byte) {data : List Byte} (len : data.length ≤ 31) :
    payloadOf (muxPayload ind data) (1 + data.length) = muxFrame ind data := by
  have whole : min (1 + data.length) 32 = (ind :: data).length := by simp only [List.length_cons]; omega
  rw [muxPayload, payloadOf_eq _ _ whole.le, whole, List.take_length, List.length_cons, muxFrame,
    show 32 - (data.length + 1) = 31 - data.length by omega]

/-- The operation of q flushes with the indicator ind, and goes on from the flush at back. -/
structure FlushesWith (q : Req) (ind : Byte) (back : Phase) : Prop where
  waits : Polls q .rx 3000 .waitLoop (fun _ => .flushSend .issue)
  sends : ∀ w v, v.seq.phase = .flushSend w → exec (decodeReq q) v = flushSend ind back w v

/-- The gating wait, then one frame of the pending bytes whatever the wait returned, then tx_cur 0. -/
theorem FlushesWith.performs {q : Req} {ind : Byte} {back : Phase} {data : List Byte} {tr : List Event}
    {reqs : List (Option Req)} {ser : List (Option Byte)} {ts : List Ms} {s : State} (flush : FlushesWith q ind back)
    (r : FlushRun) (ok : r.ok) (holds : Holds s.txBuf data) (cur : s.txCur = data.length) (len : data.length ≤ 31)
    (h : Stands q (.waitLoop .sampleT0)
      ⟨tr, reqs, r.gate.serial ++ (answers r.ws ++ ser), r.gate.timer ++ ts⟩ s) :
    ∃ t, Reaches s t ∧ SameBuffers (s.setTxCur 0) t ∧ Stands q back
      ⟨(r.gate.events .rx ++ txnEvents (.writeData (muxFrame ind data)) (misoOf r.ws)).reverse ++ tr, reqs, ser, ts⟩
      t := by
  obtain ⟨gateOk, answered⟩ := ok
  obtain ⟨t, run, ⟨txBuf, txCur, rxBuf, rxCur⟩, issue⟩ := flush.waits.performs r.gate gateOk h
  have read : t.clearPulses.readTxMany 0 t.clearPulses.txCur = .ok data := by
    have holds' : Holds t.clearPulses.txBuf data := by rw [State.clearPulses_txBuf, txBuf]; exact holds
    rw [State.clearPulses_txCur, txCur, cur]
    exact State.readTxMany_holds holds' len
  have e : exec (decodeReq q) t.clearPulses =
      .next (t.clearPulses.call (.writeData (muxFrame ind data)) (.flushSend .clear)) := by
    rw [flush.sends _ _ issue.clearPulses.phase, flushSend, read, andThen_ok, State.clearPulses_txCur, txCur, cur,
      payloadOf_muxPayload ind len]
  have calls : Calls q (.writeData (muxFrame ind data)) (.flushSend .clear)
      ⟨(r.gate.events .rx).reverse ++ tr, reqs, answers r.ws ++ ser, ts⟩
      (t.clearPulses.call (.writeData (muxFrame ind data)) (.flushSend .clear)) :=
    { issue with phase := rfl, txn := rfl, asm := rfl }
  have frame : r.ws.length = (wireBody (.writeData (muxFrame ind data))).length := by
    simp only [answered, wireBody, muxFrame, List.length_cons, List.length_append, List.length_replicate]
    omega
  obtain ⟨u, run', ⟨txBuf', -, rxBuf', rxCur'⟩, clear, -, -⟩ := calls.returns (by simp) frame
  have e' : exec (decodeReq q) u.clearPulses = .next ((u.clearPulses.setTxCur 0).goto back) :=
    flush.sends _ _ clear.clearPulses.phase
  refine ⟨_, (run.trans (issue.edge (by simp) e)).trans (run'.trans (clear.edge (by simp) e')),
    ⟨txBuf'.trans txBuf, rfl, rxBuf'.trans rxBuf, rxCur'.trans rxCur⟩, ?_⟩
  rw [List.reverse_append, List.append_assoc]
  exact { clear with phase := rfl }

/-! ### WRITE_BYTE with a full buffer -/

theorem decodeReq_writeByte {q : Req} (op : q.op = 0x8#4) : decodeReq q = .writeByte q.a8 := by
  rw [decodeReq, op]
  rfl

theorem writeByte_flushes {q : Req} (op : q.op = 0x8#4) : FlushesWith q 0xDC#8 (.respond .append) where
  waits := ⟨fun w v place => by rw [decodeReq_writeByte op, exec, execWriteByte, place]; rfl, by simp⟩
  sends w v place := by rw [decodeReq_writeByte op, exec, execWriteByte, place]; rfl

/-- With room in the buffer, WRITE_BYTE stores its byte, advances the cursor and sends ack. -/
theorem append_performs {s t : State} {q : Req} {evs : List Event} {reqs : List (Option Req)}
    {ser : List (Option Byte)} {ts : List Ms} (op : q.op = 0x8#4) (run : Reaches s t)
    (h : Stands q (.respond .append) ⟨evs.reverse ++ .req q :: s.trace, reqs, ser, ts⟩ t) (room : t.txCur < 31) :
    ∃ u, Performs s q (.writeByte q.a8) evs Rsp.ack u ∧
      SameBuffers { t with txBuf := t.txBuf.write t.txCur q.a8, txCur := t.txCur + 1 } u ∧
      u.env.requests = reqs ∧ u.env.serial = ser ∧ u.env.timer = ts := by
  have isWrite := decodeReq_writeByte op
  have stores : exec (decodeReq q) t.clearPulses = .next
      (({ t.clearPulses with txBuf := t.txBuf.write t.txCur q.a8 } : State).goto (.respond .advance)) := by
    have written := (State.writeTx_ok t.clearPulses _ t.txCur q.a8).mpr ⟨room, rfl⟩
    rw [isWrite, exec, execWriteByte, h.clearPulses.phase]
    simp only [State.clearPulses_txCur, written, andThen_ok]
    rfl
  have advance : Stands q (.respond .advance) ⟨evs.reverse ++ .req q :: s.trace, reqs, ser, ts⟩
      (({ t.clearPulses with txBuf := t.txBuf.write t.txCur q.a8 } : State).goto (.respond .advance)) :=
    { h with phase := rfl }
  generalize hv : ({ t.clearPulses with txBuf := t.txBuf.write t.txCur q.a8 } : State).goto (.respond .advance) = v
    at stores advance
  have advances : exec (decodeReq q) v.clearPulses =
      .next ((v.clearPulses.setTxCur (v.txCur + 1)).goto (.respond (.send Rsp.ack))) := by
    rw [isWrite, exec, execWriteByte, advance.clearPulses.phase]
    rfl
  have send : Stands q (.respond (.send Rsp.ack)) ⟨evs.reverse ++ .req q :: s.trace, reqs, ser, ts⟩
      ((v.clearPulses.setTxCur (v.txCur + 1)).goto (.respond (.send Rsp.ack))) :=
    { advance with phase := rfl }
  obtain ⟨u, performs, buffers, env⟩ := send.performs
    ((run.trans (h.edge (by simp) stores)).trans (advance.edge (by simp) advances)) rfl
    (fun v place => by rw [isWrite]; exact execWriteByte_send _ place)
  subst hv
  exact ⟨u, isWrite ▸ performs, buffers, env⟩

/-- Settles O50: the flush of the 31 bytes, then the append into the empty buffer. -/
theorem writeByteToFullBufferFlushes : Obligations.WriteByteToFullBufferFlushes := by
  intro s q data r rest ts presented op full len holds ok serial timer
  obtain ⟨t, reqs, run, ⟨txBuf, txCur, rxBuf, rxCur⟩, decode⟩ := presented.accepted
  rw [serial, timer, List.append_assoc] at decode
  have e : exec (decodeReq q) t.clearPulses = .next ((t.clearPulses.setRxCur 0).goto (.waitLoop .sampleT0)) := by
    have full' : t.clearPulses.txCur = Config.txCap := txCur.trans full
    rw [decodeReq_writeByte op, exec, execWriteByte, decode.clearPulses.phase]
    simp only [writeDecode, if_pos full']
  obtain ⟨u, run', ⟨txBuf', txCur', rxBuf', rxCur'⟩, append⟩ := (writeByte_flushes op).performs (data := data)
    (s := (t.clearPulses.setRxCur 0).goto (.waitLoop .sampleT0)) r ok
    (by simpa [txBuf] using holds) (by simp [txCur, full, len]) len.le { decode with phase := rfl }
  have frame : muxFrame 0xDC#8 data = 0xDC#8 :: data := by simp [muxFrame, len]
  rw [frame] at append
  obtain ⟨v, performs, ⟨txBuf'', txCur'', rxBuf'', rxCur''⟩, -, serial', timer'⟩ := append_performs op
    ((run.trans (decode.edge (by simp) e)).trans run') append (by simp [txCur'])
  simp only [txBuf', txCur', rxBuf', rxCur', State.setTxCur_txBuf, State.setTxCur_txCur, State.setTxCur_rxBuf,
    State.setTxCur_rxCur, State.goto_txBuf, State.goto_rxBuf, State.goto_rxCur, State.setRxCur_txBuf,
    State.setRxCur_rxBuf, State.setRxCur_rxCur, State.clearPulses_txBuf, State.clearPulses_rxBuf, txBuf, rxBuf]
    at txBuf'' txCur'' rxBuf'' rxCur''
  refine ⟨v, performs, txCur'', ?_, fun k other => ?_, rxCur'', rxBuf'', serial', timer'⟩
  · rw [txBuf'', Mem.read_write_same]
  · rw [txBuf'', Mem.read_write_other _ _ _ _ other]

end Sys2Proof.Machine
end

section
/-! PROOFS. R50, R51, R58, R75, R76, R110, R118: every edge keeps the memories canonical and the transactions whole. -/

namespace Sys2Proof.Machine

/-! ### The memories stay canonical -/

/-- The invariant of the memories speaks of nothing but the memories. -/
theorem MemInv.same {s t : State} (inv : MemInv s) (txBuf : t.txBuf = s.txBuf) (rxBuf : t.rxBuf = s.rxBuf) :
    MemInv t := by
  simpa only [MemInv, txBuf, rxBuf] using inv

/-- The append is below TX_CAP and the stored frame has 32 bytes; no other edge of an operation writes a memory. -/
theorem OpEdge.keeps_mem {s t : State} (h : OpEdge s t) (inv : MemInv s) : MemInv t := by
  cases h with
  | store p at' len busy =>
    obtain ⟨txWf, rxWf, txBound, rxBound⟩ := inv
    refine ⟨txWf, Mem.wf_writeAll _ _ _ rxWf, txBound, fun c listed => ?_⟩
    rcases Mem.mem_writeAll _ _ _ _ listed with ⟨-, stored⟩ | old
    · simpa [len, Config.frameBytes] using stored
    · exact rxBound c old
  | append b p at' room busy =>
    obtain ⟨txWf, rxWf, txBound, rxBound⟩ := inv
    refine ⟨Mem.wf_write _ _ _ txWf, rxWf, fun c listed => ?_, rxBound⟩
    rcases Mem.mem_write _ _ _ _ listed with rfl | old
    · exact room
    · exact txBound c old
  | _ => exact inv.same (by simp) (by simp)

/-- Settles O17: a reset empties both memories, a transaction does not touch them, an operation's edge keeps them. -/
theorem stepKeepsMemoryCanonical : Obligations.StepKeepsMemoryCanonical := by
  intro s t inv h
  have inv' : MemInv s.sampleRst.2.clearPulses := inv.same (by simp) (by simp)
  rcases step_next h with ⟨-, rfl⟩ | ⟨-, rfl⟩ | ⟨q, -, rfl⟩ | ⟨-, h⟩
  · exact ⟨rfl, rfl, by simp, by simp⟩
  · exact inv'.same (by simp) (by simp)
  · exact inv'.same (by simp) (by simp)
  · rcases s.inFlight_cases with ⟨x, -, i⟩ | ⟨-, i⟩ <;> rw [i] at h
    · rw [exec_toInstr] at h
      obtain ⟨⟨txBuf, -, rxBuf, -⟩, -⟩ := txnStep_apart h
      exact inv'.same txBuf rxBuf
    · exact (exec_edge (decodeReq_format _) h).keeps_mem inv'

/-! ### The open bracket is the transaction in flight -/

/-- The open bracket of the trace is the body of transaction x, as far as it has come. -/
def Sent (tr : List Event) (x : Txn) : Prop :=
  cmdWf x.cmd ∧
    match x.sub with
    | .startAssert | .startGap => True
    | .body k _ => k < (wireBody x.cmd).length ∧ openBody tr = some ((wireBody x.cmd).take k)
    | .endAssert => openBody tr = some (wireBody x.cmd)

theorem WireInv.sent {s : State} {x : Txn} (inv : WireInv s) (txn : s.seq.txn = some x) : Sent s.trace x :=
  inv.2 x txn

theorem WireInv.outside {s : State} (bracketed : Bracketed s.trace) (noTxn : s.seq.txn = none) : WireInv s :=
  ⟨bracketed, fun x txn => by simp [noTxn] at txn⟩

theorem WireInv.inside {s : State} {x : Txn} (bracketed : Bracketed s.trace) (txn : s.seq.txn = some x)
    (sent : Sent s.trace x) : WireInv s :=
  ⟨bracketed, fun y hy => by obtain rfl := Option.some.inj (txn.symm.trans hy); exact sent⟩

/-- The invariant of the wire speaks of the trace and the transaction in flight only. -/
theorem WireInv.same {s t : State} (inv : WireInv s) (trace : t.trace = s.trace) (txn : t.seq.txn = s.seq.txn) :
    WireInv t := by
  simpa only [WireInv, trace, txn] using inv

theorem bracketed_offWire {e : Event} (off : e.onWire = false) (tr : List Event) :
    Bracketed (e :: tr) ↔ Bracketed tr := by
  cases e with
  | start => cases off
  | stop => cases off
  | x m b => cases off
  | _ => exact Iff.rfl

section Transaction

variable {s : State} {c : WireCmd}

theorem startAssertStep_keeps_wire (inv : WireInv s) (txn : s.seq.txn = some ⟨c, .startAssert⟩) :
    WireInv s.startAssertStep := by
  obtain ⟨wf, -⟩ := inv.sent txn
  rcases s.startAssertStep_cases with ⟨-, e⟩ | ⟨-, -, e⟩ | ⟨-, -, e⟩ <;> rw [e]
  · exact inv.same rfl rfl
  · exact .inside (x := ⟨c, .startGap⟩) inv.1 (by simp [txn]) ⟨wf, trivial⟩
  · exact inv.same rfl rfl

/-- START opens the bracket, with nothing sent yet. -/
theorem startGapStep_keeps_wire (inv : WireInv s) (txn : s.seq.txn = some ⟨c, .startGap⟩) :
    WireInv s.startGapStep := by
  obtain ⟨wf, -⟩ := inv.sent txn
  rcases s.startGapStep_cases with ⟨-, e⟩ | ⟨-, e⟩ <;> rw [e]
  · exact .inside (x := ⟨c, .body 0 false⟩) inv.1 (by simp [txn]) ⟨wf, wireBody_length_pos c, rfl⟩
  · exact inv.same rfl rfl

/-- With exchange k ended, the first k + 1 bytes of the body are sent: all of them, if the end pulse follows. -/
theorem sent_afterByte {tr : List Event} {k : Nat} {m b : Byte} (wf : cmdWf c) (hm : (wireBody c)[k]? = some m)
    (sent : openBody tr = some ((wireBody c).take k)) :
    Sent (.x m b :: tr) ⟨c, afterByte k (wireBody c).length⟩ := by
  have grown : openBody (.x m b :: tr) = some ((wireBody c).take (k + 1)) := by
    simp [openBody, sent, List.take_add_one, hm]
  refine ⟨wf, ?_⟩
  by_cases more : k + 1 < (wireBody c).length
  · simpa only [afterByte, if_pos more] using ⟨more, grown⟩
  · simpa only [afterByte, if_neg more, List.take_of_length_le (Nat.le_of_not_lt more)] using grown

/-- An exchange adds its byte to the open bracket when the serializer has answered. -/
theorem byteStep_keeps_wire {k : Nat} {sent : Bool} {m : Byte} (captured : Bool) (inv : WireInv s)
    (txn : s.seq.txn = some ⟨c, .body k sent⟩) (hm : (wireBody c)[k]? = some m) :
    WireInv (s.byteStep m captured k (wireBody c).length sent) := by
  obtain ⟨wf, inBody, soFar⟩ := inv.sent txn
  rcases s.byteStep_cases m captured k (wireBody c).length sent with ⟨-, e⟩ | ⟨-, -, e⟩ | ⟨b, -, -, e⟩ <;> rw [e]
  · exact .inside (x := ⟨c, .body k true⟩) inv.1 (by simp [txn]) ⟨wf, inBody, soFar⟩
  · exact inv.same (by simp) (by simp)
  · have trace : (s.sampleSerial.2.finishByte m b captured (afterByte k (wireBody c).length)).trace =
        .x m b :: s.trace := by simp [State.finishByte_eq]
    refine .inside (x := ⟨c, afterByte k (wireBody c).length⟩) ?_ (by simp [State.finishByte_eq, txn]) ?_ <;>
      rw [trace]
    · exact ⟨by simp [soFar], inv.1⟩
    · exact sent_afterByte wf hm soFar

/-- END closes a bracket that holds the whole body. -/
theorem endAssertStep_keeps_wire (inv : WireInv s) (txn : s.seq.txn = some ⟨c, .endAssert⟩) :
    WireInv s.endAssertStep := by
  obtain ⟨wf, whole⟩ := inv.sent txn
  rcases s.endAssertStep_cases with ⟨-, e⟩ | ⟨-, -, e⟩ | ⟨-, -, e⟩ <;> rw [e]
  · exact inv.same rfl rfl
  · exact .outside ⟨⟨c, wf, whole⟩, inv.1⟩ rfl
  · exact inv.same rfl rfl

end Transaction

theorem txnStep_keeps_wire {s t : State} {x : Txn} (inv : WireInv s) (txn : s.seq.txn = some x)
    (h : txnStep (wireBody x.cmd) (captureFrom x.cmd) s = .next t) : WireInv t := by
  obtain ⟨y, hy, edge⟩ := txnStep_next h
  obtain rfl : x = y := Option.some.inj (txn.symm.trans hy)
  obtain ⟨c, sub⟩ := x
  rcases edge with ⟨rfl, rfl⟩ | ⟨rfl, rfl⟩ | ⟨k, sent, m, rfl, hm, rfl⟩ | ⟨rfl, rfl⟩
  · exact startAssertStep_keeps_wire inv txn
  · exact startGapStep_keeps_wire inv txn
  · exact byteStep_keeps_wire _ inv txn hm
  · exact endAssertStep_keeps_wire inv txn

/-! ### Operations add no event of the wire -/

/-- An edge of an operation adds at most one event, none of the wire. -/
theorem OpEdge.emits_offWire {s t : State} (h : OpEdge s t) :
    t.trace = s.trace ∨ ∃ e : Event, e.onWire = false ∧ t.trace = e :: s.trace := by
  cases h with
  | respond r => exact .inr ⟨.rsp r, rfl, rfl⟩
  | sample p busy => exact .inr ⟨.now s.sampleTimer.1, rfl, by simp⟩
  | loop c p wf at' busy => exact .inr ⟨.now s.sampleTimer.1, rfl, by simp⟩
  | warn k p busy => exact .inr ⟨.warn k, rfl, rfl⟩
  | again c p wf busy => exact .inr ⟨.yielded, rfl, rfl⟩
  | _ => exact .inl rfl

/-- An edge of an operation leaves the transaction, or calls one of a well-formed command. -/
theorem OpEdge.calls_wf {s t : State} (h : OpEdge s t) :
    t.seq.txn = s.seq.txn ∨ ∃ c, cmdWf c ∧ t.seq.txn = some ⟨c, .startAssert⟩ := by
  cases h with
  | call c p wf busy => exact .inr ⟨c, wf, rfl⟩
  | loop c p wf at' busy => exact .inr ⟨c, wf, rfl⟩
  | again c p wf busy => exact .inr ⟨c, wf, rfl⟩
  | _ => exact .inl (by simp)

theorem OpEdge.keeps_wire {s t : State} (h : OpEdge s t) (noTxn : s.seq.txn = none) (inv : WireInv s) :
    WireInv t := by
  have bracketed : Bracketed t.trace := by
    rcases h.emits_offWire with trace | ⟨e, off, trace⟩ <;> rw [trace]
    · exact inv.1
    · exact (bracketed_offWire off _).mpr inv.1
  rcases h.calls_wf with txn | ⟨c, wf, txn⟩
  · exact .outside bracketed (txn.trans noTxn)
  · exact .inside bracketed txn ⟨wf, trivial⟩

/-- Settles O18: only transactions add events of the wire, and each of their edges keeps the open bracket the part
of the body that has been sent. -/
theorem stepKeepsTransactionsWhole : Obligations.StepKeepsTransactionsWhole := by
  intro s t inv h
  have inv' : WireInv s.sampleRst.2.clearPulses := inv.same (by simp) (by simp)
  rcases step_next h with ⟨-, rfl⟩ | ⟨-, rfl⟩ | ⟨q, -, rfl⟩ | ⟨-, h⟩
  · exact .outside (by simpa using inv.1) rfl
  · exact inv'.same (by simp) (by simp)
  · exact .outside (by simpa [Bracketed] using inv.1) rfl
  · rcases s.inFlight_cases with ⟨x, txn, i⟩ | ⟨noTxn, i⟩ <;> rw [i] at h
    · rw [exec_toInstr] at h
      exact txnStep_keeps_wire inv' (by simpa using txn) h
    · exact (exec_edge (decodeReq_format _) h).keeps_wire (by simpa using noTxn) inv'

end Sys2Proof.Machine
end

section
/-! PROOFS. R70 to R72, R76 to R80, R89, R90, R95: request records, wire bodies, unused operands, the status word. -/

namespace Sys2Proof

/-! ### Request records (R70, R71) -/

/-- Above its low 44 bits a packed request holds its frame. -/
theorem Req.pack_div (q : Req) : q.pack / 2 ^ 44 = q.frame.toNat := by
  have := q.op.isLt
  have := q.a8.isLt
  have := q.a32.isLt
  simp only [Req.pack]
  omega

/-- A packed request takes 300 bits. -/
theorem Req.pack_lt (q : Req) : q.pack < 2 ^ 300 := by
  have frame := q.frame.isLt
  have := Req.pack_div q
  omega

/-- The four fields of a packed request lie side by side. -/
theorem Req.unpack_pack (q : Req) : Req.unpack q.pack = q := by
  obtain ⟨op, a8, a32, frame⟩ := q
  have := op.isLt
  have := a8.isLt
  have := a32.isLt
  simp only [Req.unpack, Req.pack_div, BitVec.ofNat_toNat, BitVec.setWidth_eq, Req.mk.injEq, and_true]
  refine ⟨?_, ?_, ?_⟩ <;> apply BitVec.eq_of_toNat_eq <;> simp only [BitVec.toNat_ofNat, Req.pack] <;> omega

/-- Every request, whatever its fields, is read back from its 38 bytes. -/
theorem decodeRequestBytes_bytes (q : Req) : decodeRequestBytes q.bytes = .ok (decodeReq q) := by
  have number : natOfBytes q.bytes = q.pack := by
    have lt := Req.pack_lt q
    rw [Req.bytes, natOfBytes_bytesOfNat]
    omega
  have length : q.bytes.length = 38 := bytesOfNat_length 38 _
  rw [decodeRequestBytes, if_neg (not_not.mpr length), number, Req.pack_div, if_pos q.frame.isLt, Req.unpack_pack]

end Sys2Proof

namespace Sys2Proof.Machine

/-- A timeout is the low half of the operand word that carries it (R92). -/
theorem low_of_timeout (timeout : BitVec 16) : (BitVec.ofNat 32 timeout.toNat).extractLsb' 0 16 = timeout := by
  apply BitVec.eq_of_toNat_eq
  simpa using timeout.isLt

/-- An operation is encoded as the record of a request that asks for it. -/
theorem encode_request {i : Instr} (wf : WellFormed i) (request : i.format = .request) :
    ∃ q : Req, encode i = q.bytes ∧ decodeReq q = i := by
  cases i with
  | wrData len frame =>
    have whole : frame.length = 32 := by simpa [WellFormed, Instr.wf, Config.frameBytes] using wf
    exact ⟨_, rfl, congrArg (Instr.wrData len) (frameBytesOf_frameBitsOf frame whole)⟩
  | waitRx timeout => exact ⟨_, rfl, (decodeReq_waitRx rfl).trans (congrArg Instr.waitRx (low_of_timeout timeout))⟩
  | waitTx timeout => exact ⟨_, rfl, (decodeReq_waitTx rfl).trans (congrArg Instr.waitTx (low_of_timeout timeout))⟩
  | wrStatus | writeByte | rdData | rdStatus | flushFin | flushCont | readByte | avail
  | reserved0 | reserved7 | reservedD | reservedE | reservedF => exact ⟨_, rfl, rfl⟩
  | wireWriteStatus | wireWriteData | wireReadData | wireReadStatus => cases request

/-- Settles O1: the record of a request is read back, and the request asks for the operation. -/
theorem requestEncodingRoundTrips : Obligations.RequestEncodingRoundTrips := by
  intro i wf request
  obtain ⟨q, bytes, asks⟩ := encode_request wf request
  rw [bytes, decode, decodeRequestBytes_bytes, asks]

/-! ### Wire bodies (R76 to R80, R95) -/

/-- The stream decoder takes as many bytes after the command byte as that byte fixes (R95). -/
theorem decodeWire_append {b : Byte} {args more : List Byte} {c : WireCmd}
    (fixed : bodyLength b = some (args.length + 1)) (body : decodeBody b args = .ok c) :
    decodeWire (b :: args ++ more) = .ok (c, more) := by
  simp [decodeWire, fixed, body]

/-- Settles O3: each command byte fixes the length of its body, and the body's bytes give the command back. -/
theorem wireStreamSplitsAtBody : Obligations.WireStreamSplitsAtBody := by
  intro c more wf
  cases c with
  | writeStatus w =>
    exact decodeWire_append (by rw [wordBytes_length]; rfl) (by rw [decodeBody, if_pos rfl, assembleWord_wordBytes])
  | writeData payload =>
    have whole : payload.length = 32 := wf
    exact decodeWire_append (by rw [List.length_cons, whole]; rfl) rfl
  | readData => exact decodeWire_append rfl rfl
  | readStatus => exact decodeWire_append rfl rfl

/-- A well-formed wire instruction is a well-formed wire command, encoded as its body. -/
theorem encode_wire {i : Instr} (wf : WellFormed i) (wire : i.format = .wire) :
    ∃ c : WireCmd, i = c.toInstr ∧ cmdWf c ∧ encode i = wireBody c := by
  cases i with
  | wireWriteStatus w => exact ⟨.writeStatus w, rfl, trivial, rfl⟩
  | wireWriteData payload => exact ⟨.writeData payload, rfl, beq_iff_eq.mp wf, rfl⟩
  | wireReadData => exact ⟨.readData, rfl, trivial, rfl⟩
  | wireReadStatus => exact ⟨.readStatus, rfl, trivial, rfl⟩
  | _ => cases wire

/-- Settles O2: a body is split from the stream that ends with it. -/
theorem wireEncodingRoundTrips : Obligations.WireEncodingRoundTrips := by
  intro i wf wire
  obtain ⟨c, rfl, whole, body⟩ := encode_wire wf wire
  have split := wireStreamSplitsAtBody c [] whole
  rw [List.append_nil] at split
  rw [body, decode, split]

/-- Settles O7: the word's four bytes, and the clamped payload with its padding. -/
theorem wireBodiesAsTabulated : Obligations.WireBodiesAsTabulated := by
  refine ⟨fun w => ?_, fun P len whole => ?_, rfl, rfl⟩
  · rw [wireBody, wordBytes_eq]
    rfl
  · rw [wireBody, payloadOf_eq P len (by omega)]
    rfl

/-- Settles O4: every word is a closed term that the decoders evaluate. -/
theorem sampleWordsDecode : Obligations.SampleWordsDecode :=
  ⟨rfl, rfl, rfl, rfl, rfl, rfl, rfl, rfl, rfl, rfl, rfl, rfl, rfl, rfl⟩

/-! ### Operands an operation does not use (R72) -/

theorem decodeReq_wrStatus {q : Req} (op : q.op = 0x1#4) : decodeReq q = .wrStatus q.a32 := by
  rw [decodeReq, op]
  rfl

theorem decodeReq_wrData {q : Req} (op : q.op = 0x2#4) : decodeReq q = .wrData q.a8 (frameBytesOf q.frame) := by
  rw [decodeReq, op]
  rfl

/-- The op codes whose operation uses no operand field (R72), the reserved ones included. -/
def opCodesWithoutOperand : List (BitVec 4) :=
  [0x0#4, 0x3#4, 0x4#4, 0x7#4, 0x9#4, 0xA#4, 0xB#4, 0xC#4, 0xD#4, 0xE#4, 0xF#4]

/-- An op code is one of the five whose operation has an operand, or one of the other eleven (R71, R74). -/
theorem opCode_cases (op : BitVec 4) :
    op = 0x1#4 ∨ op = 0x2#4 ∨ op = 0x5#4 ∨ op = 0x6#4 ∨ op = 0x8#4 ∨
      op ∈ opCodesWithoutOperand := by
  decide +revert

/-- A request for an operation without operands is decoded by its op code alone. -/
theorem decodeReq_eq_plain {q : Req} (op : q.op ∈ opCodesWithoutOperand) :
    decodeReq q = decodeReq (Req.plain q.op) := by
  obtain ⟨code, a8, a32, frame⟩ := q
  simp only [opCodesWithoutOperand, List.mem_cons, List.not_mem_nil, or_false] at op
  rcases op with rfl | rfl | rfl | rfl | rfl | rfl | rfl | rfl | rfl | rfl | rfl <;> rfl

/-- The bytes WRITEDATA sends depend on the first min(len, 32) operand bytes only (R80, R91). -/
theorem payloadOf_congr {P Q : List Byte} {len : Nat} (agree : ∀ k, k < min len 32 → P[k]? = Q[k]?) :
    payloadOf P len = payloadOf Q len := by
  apply List.map_congr_left
  intro k _
  by_cases sent : k < clampLen len
  · rw [if_pos sent, if_pos sent, List.getD_eq_getElem?_getD, List.getD_eq_getElem?_getD, agree k sent]
  · rw [if_neg sent, if_neg sent]

/-- WR_DATA is executed as its payload says, whatever else the frame operand holds. -/
theorem exec_wrData_congr {len : Byte} {P Q : List Byte} (same : payloadOf P len.toNat = payloadOf Q len.toNat)
    (s : State) : exec (.wrData len P) s = exec (.wrData len Q) s := by
  rw [exec, exec, execWrData, execWrData, same]

/-- Settles O5, by the op code: four operations decode to the one operand they use, WR_DATA sends the same payload,
and the others decode by the op code alone. -/
theorem unusedOperandsIgnored : Obligations.UnusedOperandsIgnored := by
  intro p q same status timeout byte data s
  rcases opCode_cases p.op with op | op | op | op | op | op
  · rw [decodeReq_wrStatus op, decodeReq_wrStatus (same ▸ op), status op]
  · obtain ⟨len, bytes⟩ := data op
    rw [decodeReq_wrData op, decodeReq_wrData (same ▸ op), ← len]
    refine exec_wrData_congr (payloadOf_congr fun k sent => ?_) s
    rw [getElem?_frameBytesOf _ k (by omega), getElem?_frameBytesOf _ k (by omega), bytes k sent]
  · rw [decodeReq_waitRx op, decodeReq_waitRx (same ▸ op), timeout (.inl op)]
  · rw [decodeReq_waitTx op, decodeReq_waitTx (same ▸ op), timeout (.inr op)]
  · rw [decodeReq_writeByte op, decodeReq_writeByte (same ▸ op), byte op]
  · rw [decodeReq_eq_plain op, decodeReq_eq_plain (q := q) (same ▸ op), same]

/-! ### The status word (R89, R90) -/

/-- Appended words as a sum of values, the form `omega` works with. -/
theorem toNat_append_eq_add {m n : Nat} (x : BitVec m) (y : BitVec n) :
    (x ++ y).toNat = x.toNat * 2 ^ n + y.toNat := by
  rw [BitVec.toNat_append, ← Nat.shiftLeft_add_eq_or_of_lt y.isLt, Nat.shiftLeft_eq]

theorem toNat_assembleWord (s0 s1 s2 s3 : Byte) :
    (assembleWord [s0, s1, s2, s3]).toNat =
      s0.toNat + 2 ^ 8 * s1.toNat + 2 ^ 16 * s2.toNat + 2 ^ 24 * s3.toNat := by
  have := s0.isLt
  have := s1.isLt
  have := s2.isLt
  have := s3.isLt
  simp only [assembleWord, natOfBytes, BitVec.toNat_ofNat]
  omega

/-- The assembled word is {s3, s2, s1, s0} (R89). -/
theorem assembleWord_eq_append (s0 s1 s2 s3 : Byte) : assembleWord [s0, s1, s2, s3] = s3 ++ s2 ++ s1 ++ s0 := by
  apply BitVec.eq_of_toNat_eq
  rw [toNat_assembleWord]
  simp only [toNat_append_eq_add]
  omega

/-- Bit i of {s3, s2, s1, s0} is a bit of the one byte that is shifted to it. -/
theorem append_eq_or_shifted (s0 s1 s2 s3 : Byte) :
    s3 ++ s2 ++ s1 ++ s0 =
      (s0.setWidth 32 ||| s1.setWidth 32 <<< 8 ||| s2.setWidth 32 <<< 16 ||| s3.setWidth 32 <<< 24) := by
  apply BitVec.eq_of_getLsbD_eq
  intro i lt
  simp only [BitVec.getLsbD_append, BitVec.getLsbD_or, BitVec.getLsbD_setWidth, BitVec.getLsbD_shiftLeft]
  grind

/-- Settles O6: the two forms by their value and by their bits, the fields from the word's value. -/
theorem statusWordAssembled : Obligations.StatusWordAssembled := by
  intro s0 s1 s2 s3
  have value := toNat_assembleWord s0 s1 s2 s3
  have appended := assembleWord_eq_append s0 s1 s2 s3
  refine ⟨appended.trans (append_eq_or_shifted s0 s1 s2 s3), appended, ?_, ?_⟩
  · rw [rxs, BitVec.extractLsb'_toNat, Nat.shiftRight_eq_div_pow]
    omega
  · rw [txs, BitVec.extractLsb'_toNat, Nat.shiftRight_eq_div_pow]
    omega

end Sys2Proof.Machine
end

section
/-! PROOFS. R86 to R88, R160, R181, R182: the frame a flush sends, and the frame a fetch stores. -/

namespace Sys2Proof.Machine

/-! ### The frame a flush sends (R87, R88, R160) -/

/-- At FLUSH_SEND the three users of Flush run it with their own indicator (R88). -/
theorem exec_flushSend {i : Instr} {ind : Byte}
    (user : (i = .flushFin ∧ ind = 0xDF#8) ∨ (i = .flushCont ∧ ind = 0xDC#8) ∨
      ∃ b, i = .writeByte b ∧ ind = 0xDC#8) :
    ∃ back, ∀ (p : SendAt) (s : State), s.seq.phase = .flushSend p → exec i s = flushSend ind back p s := by
  rcases user with ⟨rfl, rfl⟩ | ⟨rfl, rfl⟩ | ⟨b, rfl, rfl⟩
  · exact ⟨_, fun p s place => by rw [exec, execFlushFin, flushOp, place]; rfl⟩
  · exact ⟨_, fun p s place => by rw [exec, execFlushCont, flushOp, place]; rfl⟩
  · exact ⟨_, fun p s place => by rw [exec, execWriteByte, place]; rfl⟩

/-- Settles O36: the pending bytes are read whole, and the payload is the frame of R87. -/
theorem flushSendsPendingBytes : Obligations.FlushSendsPendingBytes := by
  intro i ind s user
  obtain ⟨back, runs⟩ := exec_flushSend user
  refine ⟨fun place data len room holds => ?_, fun place => ⟨_, runs .clear s place, rfl, rfl, rfl, rfl, rfl⟩⟩
  have read : s.readTxMany 0 s.txCur = .ok data := len ▸ State.readTxMany_holds holds (by omega)
  have sends : exec i s = .next (s.call (.writeData (muxFrame ind data)) (.flushSend .clear)) := by
    rw [runs .issue s place, flushSend, read, andThen_ok, ← len, payloadOf_muxPayload ind (by omega)]
  exact ⟨_, sends, rfl, rfl, rfl, rfl, rfl, rfl, rfl⟩

/-! ### A fetched frame (R86, R181, R182) -/

/-- A memory written from index 0 holds the bytes written. -/
theorem holds_writeAll (m : Mem) (bs : List Byte) : Holds (m.writeAll 0 bs) bs := by
  intro k lt
  rw [Mem.read_writeAll, if_pos (by omega), Nat.sub_zero]

theorem validIndicator_iff (b : Byte) : validIndicator b = true ↔ b = 0xDF#8 ∨ b = 0xDC#8 := by
  simp [validIndicator, Config.indFinished, Config.indContinues]

/-- Settles O39: both fetches store the 32 captured bytes; the poll then reads the indicator back and tests it. -/
theorem fetchedFrameIsStored : Obligations.FetchedFrameIsStored := by
  intro s F ind asm len
  have stored : s.writeRx s.seq.asm = .ok { s with rxBuf := s.rxBuf.writeAll 0 (ind :: F) } :=
    (State.writeRx_ok _ _ _).mpr ⟨by rw [asm, List.length_cons, len]; rfl, by rw [asm]⟩
  have holds := holds_writeAll s.rxBuf (ind :: F)
  refine ⟨fun place => ?_, fun place => ?_, ?_⟩
  · have read : ({ s with rxBuf := s.rxBuf.writeAll 0 (ind :: F) } : State).readRx 0 = .ok ind :=
      (Mem.fetch_ok _ _ _ _).mpr ⟨by decide, holds 0 (by simp)⟩
    rw [exec, execReadByte, place]
    simp only [pollFrame, stored, andThen_ok, read, validIndicator_iff]
    exact ⟨_, rfl, holds, rfl, rfl⟩
  · rw [exec, execReadByte, place]
    simp only [contFetch, stored, andThen_ok]
    exact ⟨_, rfl, holds, rfl, rfl⟩
  · rintro (place | place) <;> rw [exec, execReadByte, place] <;> exact ⟨_, rfl, rfl, rfl, rfl⟩

end Sys2Proof.Machine
end

section
/-! PROOFS. R110 to R122, R244: the pulses in clk cycles, what a wire command leaves alone, whole raw operations. -/

namespace Sys2Proof.Machine

/-! ### Wire commands as edges and as whole transactions (R110 to R118) -/

theorem toInstr_of_format_wire {i : Instr} (wire : i.format = .wire) : ∃ c : WireCmd, i = c.toInstr := by
  cases i with
  | wireWriteStatus w => exact ⟨.writeStatus w, rfl⟩
  | wireWriteData payload => exact ⟨.writeData payload, rfl⟩
  | wireReadData => exact ⟨.readData, rfl⟩
  | wireReadStatus => exact ⟨.readStatus, rfl⟩
  | _ => cases wire

/-- Of the output ports an edge of a transaction writes the serializer's only. -/
theorem txnStep_outputs {body : List Byte} {capFrom : Nat} {s t : State} (h : txnStep body capFrom s = .next t) :
    t.out = { s.out with sxStart := t.out.sxStart, sxTx := t.out.sxTx } := by
  obtain ⟨x, -, ⟨k, m, -, -, rfl⟩ | ⟨-, out, -⟩⟩ := txnStep_starts_or_emits h
  · rfl
  · rw [out]

/-- Settles O24: every edge of a transaction stays apart from the operation and its output ports. -/
theorem wireCommandFrame : Obligations.WireCommandFrame := by
  intro i s t wire h
  obtain ⟨c, rfl⟩ := toInstr_of_format_wire wire
  rw [exec_toInstr] at h
  obtain ⟨buffers, phase, req, t0, timer, requests, rst, clkHz⟩ := txnStep_apart h
  have out := txnStep_outputs h
  refine ⟨buffers, ⟨phase, req, t0, ?_, ?_, ?_, ?_, ?_, timer⟩, rst, requests, clkHz⟩ <;> rw [out]

/-- Settles O43: the frame `Apart` of `transaction_executes`, field by field. -/
theorem transactionRunsWhole : Obligations.TransactionRunsWhole := by
  intro s c ws rest busy txn ss asm _ len serial
  obtain ⟨t, executes, ⟨buffers, phase, req, t0, timer, requests, -, clkHz⟩, txn', asm', ss', trace, serial'⟩ :=
    transaction_executes busy txn ss asm len serial
  exact ⟨t, executes, txn', ss', trace, asm', phase, req, t0, buffers, serial', timer, requests, clkHz⟩

/-! ### Holds in clk cycles (R244) -/

/-- The cycles a hold lasts that is loaded for T microseconds: ceil(T x CLK_HZ), at least one (log 6). -/
def holdCycles (micros clkHz : Nat) : Nat := max 1 (cyclesOf micros clkHz)

theorem one_le_holdCycles (micros clkHz : Nat) : 1 ≤ holdCycles micros clkHz := le_max_left _ _

/-- A hold lasts T microseconds, and less than one cycle more unless it is of one cycle. -/
theorem holdCycles_bounds (micros clkHz : Nat) :
    micros * clkHz ≤ holdCycles micros clkHz * 1000000 ∧
      (holdCycles micros clkHz = 1 ∨ (holdCycles micros clkHz - 1) * 1000000 < micros * clkHz) := by
  unfold holdCycles cyclesOf
  split <;> omega

/-- During a hold: everything but the counter and the pulses of the last cycle is as it was. -/
structure Held (s t : State) : Prop where
  apart : Apart s t
  txn : t.seq.txn = s.seq.txn
  asm : t.seq.asm = s.seq.asm
  ss : t.ss = s.ss
  trace : t.trace = s.trace

theorem Held.clearPulses {s t : State} (h : Held s t) : Held s t.clearPulses := { h with }

theorem Held.trans {s t u : State} (h1 : Held s t) (h2 : Held t u) : Held s u where
  apart := h1.apart.trans h2.apart
  txn := h2.txn.trans h1.txn
  asm := h2.asm.trans h1.asm
  ss := h2.ss.trans h1.ss
  trace := h2.trace.trans h1.trace

theorem Held.setDur (s : State) (n : Nat) : Held s (s.clearPulses.setDur n) where
  apart := by simp [Apart, SameBuffers]
  txn := rfl
  asm := rfl
  ss := rfl
  trace := rfl

/-- At the sub-phase of x, with the line at l, an edge is one cycle of a hold that goes on with done. -/
def HoldsAt (x : Txn) (l : SelectLine) (done : State → State) : Prop :=
  ∀ u, u.seq.txn = some x → u.ss = l → txnStep (wireBody x.cmd) (captureFrom x.cmd) u = .next (u.hold done)

section Hold

variable {x : Txn} {l : SelectLine} {done : State → State}

/-- Before its last cycle a hold counts down and does nothing else. -/
theorem HoldsAt.counts (holds : HoldsAt x l done) (k : Nat) {s : State} (busy : s.seq.phase ≠ .idle)
    (txn : s.seq.txn = some x) (ss : s.ss = l) (lt : k < max 1 s.seq.dur) :
    ∃ t, runEdges k s = .next t ∧ Held s t ∧ t.seq.dur = s.seq.dur - k := by
  induction k generalizing s with
  | zero => exact ⟨s, rfl, ⟨by simp [Apart, SameBuffers], rfl, rfl, rfl, rfl⟩, rfl⟩
  | succ k ih =>
    have edge := holds s.clearPulses txn ss
    rw [State.hold, if_neg (by rw [State.clearPulses_seq]; omega)] at edge
    obtain ⟨t, run, held, dur⟩ := ih (s := s.clearPulses.setDur (s.seq.dur - 1)) busy txn ss
      (by rw [State.setDur_seq_dur]; omega)
    refine ⟨t, (runEdges_wire k busy txn edge).trans run, (Held.setDur s _).trans held, ?_⟩
    rw [dur, State.setDur_seq_dur]
    omega

/-- The edge of a hold's last cycle goes on. -/
theorem HoldsAt.ends (holds : HoldsAt x l done) {s : State} (busy : s.seq.phase ≠ .idle)
    (txn : s.seq.txn = some x) (ss : s.ss = l) :
    ∃ u, runEdges (max 1 s.seq.dur) s = .next (done u) ∧ Held s u := by
  obtain ⟨t, run, held, dur⟩ := holds.counts (max 1 s.seq.dur - 1) busy txn ss (by omega)
  have edge := holds t.clearPulses (held.txn.trans txn) (held.ss.trans ss)
  rw [State.hold, if_pos (by rw [State.clearPulses_seq, dur]; omega)] at edge
  refine ⟨t.clearPulses, ?_, held.clearPulses⟩
  rw [show max 1 s.seq.dur = (max 1 s.seq.dur - 1) + 1 by omega, runEdges_add, run]
  exact runEdges_wire 0 (held.apart.busy busy) (held.txn.trans txn) edge

/-- A pulse from the line DEASSERTED: one edge asserts it, and it stays so for T_SS_ASSERT (R111, R112). -/
theorem HoldsAt.pulse (holds : HoldsAt x .asserted done) {s : State} (busy : s.seq.phase ≠ .idle)
    (txn : s.seq.txn = some x)
    (asserts : txnStep (wireBody x.cmd) (captureFrom x.cmd) s.clearPulses = .next s.clearPulses.assertSs) :
    (∀ k, 1 ≤ k → k ≤ holdCycles 1 s.clkHz →
      ∃ t, runEdges k s = .next t ∧ t.ss = .asserted ∧ t.trace = s.trace) ∧
    ∃ u, runEdges (holdCycles 1 s.clkHz + 1) s = .next (done u) ∧ Held s.clearPulses.assertSs u := by
  have first (n : Nat) : runEdges (n + 1) s = runEdges n s.clearPulses.assertSs := runEdges_wire n busy txn asserts
  refine ⟨fun k pos le => ?_, ?_⟩
  · obtain ⟨j, rfl⟩ := Nat.exists_eq_add_of_le' pos
    obtain ⟨t, run, held, -⟩ := holds.counts j (s := s.clearPulses.assertSs) busy txn rfl le
    exact ⟨t, (first j).trans run, held.ss, held.trace⟩
  · obtain ⟨u, run, held⟩ := holds.ends (s := s.clearPulses.assertSs) busy txn rfl
    exact ⟨u, (first _).trans run, held⟩

end Hold

/-! ### The start pulse and the end pulse (R111, R112) -/

theorem txnStep_startAssert {c : WireCmd} {body : List Byte} {capFrom : Nat} {s : State}
    (txn : s.seq.txn = some ⟨c, .startAssert⟩) : txnStep body capFrom s = .next s.startAssertStep := by
  simp [txnStep, txn]

theorem txnStep_startGap {c : WireCmd} {body : List Byte} {capFrom : Nat} {s : State}
    (txn : s.seq.txn = some ⟨c, .startGap⟩) : txnStep body capFrom s = .next s.startGapStep := by
  simp [txnStep, txn]

theorem txnStep_endAssert {c : WireCmd} {body : List Byte} {capFrom : Nat} {s : State}
    (txn : s.seq.txn = some ⟨c, .endAssert⟩) : txnStep body capFrom s = .next s.endAssertStep := by
  simp [txnStep, txn]

/-- What ends the assertion of the start pulse (R111 step 3). -/
def State.enterGap (s : State) : State :=
  ((s.setSs .deasserted).setDur (cyclesOf Config.tSsGap s.clkHz)).gotoTxn .startGap

/-- What ends the gap of the start pulse (R111 step 5). -/
def State.enterBody (s : State) : State := (s.emit .start).gotoTxn (.body 0 false)

/-- What ends the end pulse (R112). -/
def State.finishTxn (s : State) : State := ((s.setSs .deasserted).emit .stop).endTxn

theorem startAssert_holds (c : WireCmd) : HoldsAt ⟨c, .startAssert⟩ .asserted State.enterGap := by
  intro u txn ss
  rw [txnStep_startAssert txn, State.startAssertStep, ss]
  rfl

theorem startGap_holds (c : WireCmd) : HoldsAt ⟨c, .startGap⟩ .deasserted State.enterBody :=
  fun _ txn _ => txnStep_startGap txn

theorem endAssert_holds (c : WireCmd) : HoldsAt ⟨c, .endAssert⟩ .asserted State.finishTxn := by
  intro u txn ss
  rw [txnStep_endAssert txn, State.endAssertStep, ss]
  rfl

/-- Settles O42: the pulse of 1 us, then the hold of the 15 us gap. -/
theorem startPulseTiming : Obligations.StartPulseTiming := by
  intro s c busy txn ss
  have asserts : txnStep (wireBody c) (captureFrom c) s.clearPulses = .next s.clearPulses.assertSs := by
    rw [txnStep_startAssert (s := s.clearPulses) txn, State.startAssertStep, State.clearPulses_ss, ss]
  obtain ⟨asserted, u, run, held⟩ := (startAssert_holds c).pulse busy txn asserts
  obtain ⟨long, notLonger⟩ := holdCycles_bounds 1 s.clkHz
  obtain ⟨gapLong, gapNotLonger⟩ := holdCycles_bounds 15 s.clkHz
  have busyGap : u.enterGap.seq.phase ≠ .idle := held.apart.busy busy
  have txnGap : u.enterGap.seq.txn = some ⟨c, .startGap⟩ := by
    simp [State.enterGap, held.txn, txn]
  have durGap : max 1 u.enterGap.seq.dur = holdCycles 15 s.clkHz := by
    obtain ⟨-, -, -, -, -, -, -, clkHz⟩ := held.apart
    simp [State.enterGap, holdCycles, Config.tSsGap, clkHz]
  have after (n : Nat) : runEdges (holdCycles 1 s.clkHz + 1 + n) s = runEdges n u.enterGap := by
    rw [runEdges_add, run]
  refine ⟨holdCycles 1 s.clkHz, holdCycles 15 s.clkHz, one_le_holdCycles _ _, one_le_holdCycles _ _, long, gapLong,
    notLonger, gapNotLonger, asserted, fun k gt le => ?_, ?_⟩
  · obtain ⟨j, rfl⟩ := Nat.exists_eq_add_of_le gt
    obtain ⟨t, runGap, heldGap, -⟩ := (startGap_holds c).counts j busyGap txnGap rfl (by omega)
    exact ⟨t, (after j).trans runGap, heldGap.ss, heldGap.trace.trans held.trace⟩
  · obtain ⟨v, runGap, heldGap⟩ := (startGap_holds c).ends busyGap txnGap rfl
    rw [durGap] at runGap
    rw [Nat.add_right_comm]
    exact ⟨v.enterBody, (after _).trans runGap, heldGap.ss, congrArg _ (heldGap.trace.trans held.trace),
      by simp [State.enterBody, heldGap.txn, txnGap]⟩

/-- Settles O41: the last cycle of the hold, and the whole pulse of 1 us. -/
theorem wireCommandReturnsAfterEndPulse : Obligations.WireCommandReturnsAfterEndPulse := by
  intro c s txn
  refine ⟨fun ss dur => ?_, fun ss busy => ?_⟩
  · have edge : exec c.toInstr s = .next s.finishTxn := by
      rw [exec_toInstr, endAssert_holds c s txn ss, State.hold, if_pos dur]
    exact ⟨_, edge, rfl, rfl, rfl, rfl, rfl⟩
  · have asserts : txnStep (wireBody c) (captureFrom c) s.clearPulses = .next s.clearPulses.assertSs := by
      rw [txnStep_endAssert (s := s.clearPulses) txn, State.endAssertStep, State.clearPulses_ss, ss]
    obtain ⟨asserted, u, run, held⟩ := (endAssert_holds c).pulse busy txn asserts
    obtain ⟨long, notLonger⟩ := holdCycles_bounds 1 s.clkHz
    obtain ⟨-, phase, -⟩ := held.apart
    exact ⟨holdCycles 1 s.clkHz, one_le_holdCycles _ _, long, notLonger, asserted, u.finishTxn, run, rfl,
      congrArg _ held.trace, rfl, phase, held.asm⟩

/-! ### Edges of the raw operations (R119 to R122) -/

theorem rawStep_decode (c : WireCmd) (result : List Byte → Rsp) {s : State} (place : s.seq.phase = .decode) :
    rawStep c result s = .next (s.call c (.respond .collect)) := by
  rw [rawStep, place]

theorem rawStep_collect (c : WireCmd) (result : List Byte → Rsp) {s : State}
    (place : s.seq.phase = .respond .collect) : rawStep c result s = .next (s.respond (result s.seq.asm)) := by
  rw [rawStep, place]

/-- A raw operation runs `rawStep` with its transaction. -/
theorem exec_of_rawCmd {i : Instr} {c : WireCmd} (raw : rawCmd i = some c) :
    ∃ result, ∀ s, exec i s = rawStep c result s := by
  cases i with
  | wrStatus w => obtain rfl := Option.some.inj raw; exact ⟨fun _ => Rsp.ack, fun _ => rfl⟩
  | wrData len P => obtain rfl := Option.some.inj raw; exact ⟨fun _ => Rsp.ack, fun _ => rfl⟩
  | rdData => obtain rfl := Option.some.inj raw; exact ⟨frameResponse, fun _ => rfl⟩
  | rdStatus => obtain rfl := Option.some.inj raw; exact ⟨statusResponse, fun _ => rfl⟩
  | _ => cases raw

/-- Settles O30: each operation calls the transaction that `rawCmd` gives it. -/
theorem rawOperationsEnterTransaction : Obligations.RawOperationsEnterTransaction := by
  intro i c s place which
  have raw : rawCmd i = some c := by
    rcases which with ⟨w, rfl, rfl⟩ | ⟨len, P, rfl, whole, rfl⟩ | ⟨rfl, rfl⟩ | ⟨rfl, rfl⟩
    · rfl
    · rw [rawCmd, payloadOf_eq P len.toNat (by omega)]
      rfl
    · rfl
    · rfl
  obtain ⟨result, runs⟩ := exec_of_rawCmd raw
  exact ⟨_, (runs s).trans (rawStep_decode c result place), rfl, rfl, rfl, rfl, ⟨rfl, rfl, rfl, rfl⟩,
    ⟨rfl, rfl, rfl, rfl, rfl⟩, rfl⟩

/-- The bytes of a frame on the response port are the captured ones (R36, R121). -/
theorem extractLsb'_frameBitsOf {bs : List Byte} (len : bs.length = 32) (k : Nat) (lt : k < 32) :
    some ((frameBitsOf bs).extractLsb' (8 * k) 8) = bs[k]? := by
  rw [← getElem?_frameBytesOf _ k lt, frameBytesOf_frameBitsOf bs len]

theorem statusResponse_eq (s0 s1 s2 s3 : Byte) :
    statusResponse [s0, s1, s2, s3] = { word := s3 ++ s2 ++ s1 ++ s0 } := by
  rw [statusResponse, assembleWord_eq_append]

/-- Settles O31: each operation responds with its own reading of the captured bytes. -/
theorem rawOperationsAnswer : Obligations.RawOperationsAnswer := by
  intro s place
  have answer (c : WireCmd) (result : List Byte → Rsp) : ∃ t, rawStep c result s = .next t ∧
      Responds s t (result s.seq.asm) ∧ SameBuffers s t :=
    ⟨_, rawStep_collect c result place, ⟨rfl, rfl, rfl, rfl⟩, ⟨rfl, rfl, rfl, rfl⟩⟩
  refine ⟨fun w => answer (.writeStatus w) (fun _ => Rsp.ack),
    fun len P => answer (.writeData (payloadOf P len.toNat)) (fun _ => Rsp.ack), fun len => ?_,
    fun s0 s1 s2 s3 asm => ?_⟩
  · obtain ⟨t, e, responds, buffers⟩ := answer .readData frameResponse
    exact ⟨t, e, buffers, frameBitsOf s.seq.asm, responds, extractLsb'_frameBitsOf len⟩
  · obtain ⟨t, e, responds, buffers⟩ := answer .readStatus statusResponse
    rw [asm, statusResponse_eq] at responds
    exact ⟨t, e, buffers, responds⟩

/-! ### Whole raw operations (R119 to R122) -/

/-- A raw operation, from its request to its response. -/
theorem raw_performs {s : State} {q : Req} {c : WireCmd} {result : List Byte → Rsp} {ws : List (Nat × Byte)}
    {rest : List (Option Byte)} (presented : Presents s q) (runs : ∀ v, exec (decodeReq q) v = rawStep c result v)
    (len : ws.length = (wireBody c).length) (serial : s.env.serial = answers ws ++ rest) :
    ∃ t, Performs s q (decodeReq q) (txnEvents c (misoOf ws)) (result ((misoOf ws).drop (captureFrom c))) t ∧
      SameBuffers s t ∧ t.env.serial = rest ∧ t.env.timer = s.env.timer := by
  obtain ⟨t, reqs, run, buffers, decode⟩ := presented.accepted
  rw [serial] at decode
  have calls : Calls q c (.respond .collect) ⟨.req q :: s.trace, reqs, answers ws ++ rest, s.env.timer⟩
      (t.clearPulses.call c (.respond .collect)) := { decode with phase := rfl, txn := rfl, asm := rfl }
  have enters := decode.edge (by simp) ((runs _).trans (rawStep_decode c result decode.phase))
  obtain ⟨u, run', buffers', collect, asm, -⟩ := calls.returns (by simp) len
  have answer := collect.executes (by simp) ((runs _).trans (rawStep_collect c result collect.phase))
  rw [State.clearPulses_seq, asm] at answer
  refine ⟨_, ⟨rfl, ((run.trans enters).trans run').executes answer, rfl, collect.noTxn, collect.ss, rfl, rfl, ?_⟩,
    buffers.trans buffers', collect.serial, collect.timer⟩
  rw [State.respond_trace, State.clearPulses_trace, collect.trace]
  rfl

theorem decodeReq_rdData {q : Req} (op : q.op = 0x3#4) : decodeReq q = .rdData := by
  rw [decodeReq, op]
  rfl

theorem decodeReq_rdStatus {q : Req} (op : q.op = 0x4#4) : decodeReq q = .rdStatus := by
  rw [decodeReq, op]
  rfl

theorem length_misoOf (ws : List (Nat × Byte)) : (misoOf ws).length = ws.length := List.length_map _

/-- Settles O44: one READSTATUS, answered with the word of the last four bytes. -/
theorem rdStatusPerforms : Obligations.RdStatusPerforms := by
  intro s q ws rest d s0 s1 s2 s3 presented op miso serial
  have isRead := decodeReq_rdStatus op
  obtain ⟨t, performs, same⟩ := raw_performs (c := .readStatus) (result := statusResponse) presented
    (fun v => by rw [isRead]; rfl) (by rw [← length_misoOf, miso]; rfl) serial
  rw [isRead, miso, captureFrom, List.drop_one, List.tail_cons, statusResponse_eq] at performs
  exact ⟨t, performs, same⟩

/-- Settles O45: one WRITESTATUS with the four bytes of the operand. -/
theorem wrStatusPerforms : Obligations.WrStatusPerforms := by
  intro s q ws rest d0 d1 d2 d3 d4 presented op miso serial
  have isWrite := decodeReq_wrStatus op
  obtain ⟨t, performs, same⟩ := raw_performs (c := .writeStatus q.a32) (result := fun _ => Rsp.ack) presented
    (fun v => by rw [isWrite]; rfl) (by rw [← length_misoOf, miso]; rfl) serial
  rw [isWrite, miso, txnEvents, wireBody, wordBytes_eq] at performs
  exact ⟨t, performs, same⟩

/-- Settles O46: one READDATA, answered with the frame of the last 32 bytes. -/
theorem rdDataPerforms : Obligations.RdDataPerforms := by
  intro s q ws rest F presented op ⟨whole, d, e, miso⟩ serial
  have isRead := decodeReq_rdData op
  obtain ⟨t, performs, same⟩ := raw_performs (c := .readData) (result := frameResponse) presented
    (fun v => by rw [isRead]; rfl) (by rw [← length_misoOf, miso, List.length_cons, List.length_cons, whole]; rfl)
    serial
  have frame : (misoOf ws).drop (captureFrom .readData) = F := by rw [miso]; rfl
  rw [isRead, frame] at performs
  exact ⟨t, frameBitsOf F, performs, extractLsb'_frameBitsOf whole, same⟩

/-- What WR_DATA sends, byte by byte: the operand's bytes below the length, then zeros (R91). -/
theorem payloadOf_frameBytesOf (f : FrameBits) (len : Nat) :
    payloadOf (frameBytesOf f) len =
      (List.range 32).map (fun k => if k < len then f.extractLsb' (8 * k) 8 else 0x00#8) := by
  apply List.map_congr_left
  intro k mem
  have lt : k < 32 := List.mem_range.mp mem
  have clamped : k < clampLen len ↔ k < len := by simp only [clampLen, Config.frameBytes]; omega
  rw [List.getD_eq_getElem?_getD, getElem?_frameBytesOf f k lt, Option.getD_some, Config.padByte]
  simp only [clamped]

/-- Settles O47: one WRITEDATA of the clamped and padded operand, with nothing before it. -/
theorem wrDataPerforms : Obligations.WrDataPerforms := by
  intro s q ws rest P presented op len serial payload
  have isWrite := decodeReq_wrData op
  have sent : payloadOf (frameBytesOf q.frame) q.a8.toNat = P :=
    (payloadOf_frameBytesOf q.frame q.a8.toNat).trans payload.symm
  obtain ⟨t, performs, same⟩ := raw_performs (c := .writeData P) (result := fun _ => Rsp.ack) presented
    (fun v => by rw [isWrite, exec, execWrData, sent])
    (by rw [len, wireBody, payload, List.length_cons, List.length_cons, List.length_map, List.length_range]) serial
  rw [isWrite] at performs
  exact ⟨t, frameBytesOf q.frame, performs, same⟩

end Sys2Proof.Machine
end

section
/-! PROOFS. R140 to R150, R247: elapsed time, one test of the ready-polling loop, and no operation that goes on for ever. -/

namespace Sys2Proof.Machine

/-! ### Elapsed time across a Timer wrap (R140, R141) -/

theorem expired_iff {t0 t1 : Ms} {budget : Nat} : expired t0 t1 budget = true ↔ budget ≤ elapsed t0 t1 :=
  decide_eq_true_iff

theorem elapsed_eq_emod (t0 t1 : Ms) : (elapsed t0 t1 : Int) = ((t1.toNat : Int) - t0.toNat) % 2 ^ 32 := by
  rw [elapsed, BitVec.toNat_sub]
  omega

theorem elapsed_add_ofNat (t0 : Ms) {d : Nat} (lt : d < 2 ^ 32) : elapsed t0 (t0 + BitVec.ofNat 32 d) = d := by
  rw [elapsed, add_sub_cancel_left, BitVec.toNat_ofNat, Nat.mod_eq_of_lt lt]

/-- Settles O8: both clauses of expiry are `Elapsed >= B`, whose value is known exactly. -/
theorem elapsedAcrossWrap : Obligations.ElapsedAcrossWrap := by
  refine ⟨fun t0 t1 budget => ⟨elapsed_eq_emod t0 t1, expired_iff⟩, fun t0 d budget lt => ?_⟩
  have measured := elapsed_add_ofNat t0 lt
  exact ⟨measured, by rw [expired_iff, measured]⟩

/-! ### One test of the ready-polling loop (R142 to R148) -/

/-- RXS is the high half of the last byte of the status read (R89, R90). -/
theorem rxs_assembleWord (s0 s1 s2 s3 : Byte) : rxs (assembleWord [s0, s1, s2, s3]) = s3.extractLsb' 4 4 := by
  obtain ⟨-, -, value, -⟩ := statusWordAssembled s0 s1 s2 s3
  apply BitVec.eq_of_toNat_eq
  rw [value, BitVec.extractLsb'_toNat, Nat.shiftRight_eq_div_pow]
  omega

/-- TXS is the low half of the last byte of the status read (R89, R90). -/
theorem txs_assembleWord (s0 s1 s2 s3 : Byte) : txs (assembleWord [s0, s1, s2, s3]) = s3.extractLsb' 0 4 := by
  obtain ⟨-, -, -, value⟩ := statusWordAssembled s0 s1 s2 s3
  apply BitVec.eq_of_toNat_eq
  rw [value, BitVec.extractLsb'_toNat, Nat.shiftRight_zero]

section Test

variable {sel : Sel} {budget : Nat} {here : WaitAt → Phase} {back : BitVec 4 → Phase} {s : State}

/-- READY ends the loop with no Timer sample. -/
theorem waitReady_test_of_ready (ready : lastField sel s = 0x1#4) :
    waitReady sel budget here back .test s = s.goto (back 0x1#4) := by
  rw [waitReady, if_pos (ready.trans sel.ready_eq.symm), ready]

/-- Any other value takes one Timer sample, which chooses between the warning and the next turn. -/
theorem waitReady_test_of_not_ready {t1 : Ms} {ts : List Ms} (notReady : lastField sel s ≠ 0x1#4)
    (timer : s.env.timer = t1 :: ts) :
    waitReady sel budget here back .test s =
      (({ s with env := { s.env with timer := ts } } : State).emit (.now t1)).goto
        (here (if budget ≤ (t1 - s.seq.t0).toNat then .warn else .yieldNext)) := by
  have notReady' : lastField sel s ≠ sel.ready := fun e => notReady (e.trans sel.ready_eq)
  rw [waitReady, if_neg notReady', State.now_scripted timer]
  simp only [expired_iff, elapsed]
  split <;> rfl

end Test

theorem consumerWait_loop {sel : Sel} {timeout : BitVec 16} {w : WaitAt} {s : State}
    (place : s.seq.phase = .waitLoop w) : consumerWait sel timeout s =
      .next (waitReady sel timeout.toNat .waitLoop (fun f => .respond (.send (fieldResponse f))) w s) := by
  rw [consumerWait, place]
  rfl

/-- Settles O32: either wait is the loop with its own field, tested as the two lemmas above say. -/
theorem waitTestsReadyFirst : Obligations.WaitTestsReadyFirst := by
  intro i sel timeout s s0 s1 s2 s3 f which place asm
  have loop : exec i s = consumerWait sel timeout s ∧ lastField sel s = f := by
    rw [lastField, asm]
    obtain ⟨rfl, rfl, rfl⟩ | ⟨rfl, rfl, rfl⟩ := which
    · exact ⟨rfl, rxs_assembleWord s0 s1 s2 s3⟩
    · exact ⟨rfl, txs_assembleWord s0 s1 s2 s3⟩
  obtain ⟨waits, rfl⟩ := loop
  rw [waits, consumerWait_loop place]
  constructor
  · intro ready
    rw [waitReady_test_of_ready ready]
    exact ⟨_, rfl, rfl, rfl, rfl, rfl, rfl, rfl, rfl⟩
  · intro notReady t1 ts timer
    rw [waitReady_test_of_not_ready notReady timer]
    exact ⟨_, rfl, rfl, rfl, ⟨rfl, rfl, rfl, rfl⟩, apply_ite Phase.waitLoop _ _ _⟩

/-! ### Endless runs: a turn of a polling loop, and what follows it (R150, R247) -/

/-- Edge m gives the response of the operation in flight. -/
def RespondsAt (run : Nat → State) (m : Nat) : Prop :=
  ∃ r, (run (m + 1)).trace = .rsp r :: (run m).trace ∧ (run (m + 1)).out.rspValid = true ∧
    (run (m + 1)).out.rsp = r ∧ (run (m + 1)).seq.phase = .idle

/-- From edge n on there is neither a response nor an edge at a place nearer to it than a polling loop. -/
def StuckFrom (run : Nat → State) (n : Nat) : Prop :=
  ∀ m, n ≤ m → ¬ RespondsAt run m ∧ ((run m).seq.phase ≠ .idle → 7 ≤ (run m).seq.phase.rank)

/-- Before edge k the block is in a turn of the polling loop that it was in before edge n. -/
structure InLoopOf (run : Nat → State) (n k : Nat) : Prop where
  le   : n ≤ k
  rank : (run k).seq.phase.rank = 7
  t0   : (run k).seq.t0 = (run n).seq.t0

section Endless

variable {ports : Nat → Ports} {run : Nat → State}

theorem EndlessRun.inv (e : EndlessRun ports run) (inv : MachineInv (run 0)) (n : Nat) : MachineInv (run n) := by
  induction n with
  | zero => exact inv
  | succ n ih => exact stepKeepsSequencerInv _ _ (ih.drive (ports n)) (e n)

namespace InLoopOf

variable {n k : Nat}

theorem busy (h : InLoopOf run n k) : (run k).seq.phase ≠ .idle := by
  intro idle
  have rank := h.rank
  rw [idle] at rank
  cases rank

theorem samePlace {m : Nat} (h : InLoopOf run n k) (same : SamePlace run k m) : InLoopOf run n m :=
  ⟨h.le.trans same.le, by rw [same.phase, h.rank], same.t0.trans h.t0⟩

/-- An operation edge of a loop that does not end goes on with the turn. -/
theorem operation (e : EndlessRun ports run) (stuck : StuckFrom run n) (h : InLoopOf run n k)
    (noTxn : (run k).seq.txn = none) :
    InLoopOf run n (k + 1) ∧ (SamplesTimer ports run k → ((ports k).msNow - (run n).seq.t0).toNat < 65535) ∧
      (SamplesTimer ports run k ∨ (run (k + 1)).seq.phase.toSample < (run k).seq.phase.toSample) := by
  cases operation_edge e h.busy noTxn with
  | responds r event valid fields idle => exact absurd ⟨r, event, valid, fields, idle⟩ (stuck k h.le).1
  | nearer busy lt =>
    have far := (stuck (k + 1) (Nat.le_succ_of_le h.le)).2 busy
    rw [h.rank] at lt
    omega
  | turns before after t0 early sample =>
    exact ⟨⟨Nat.le_succ_of_le h.le, after, t0.trans h.t0⟩, h.t0 ▸ early _, sample⟩

/-- A transaction edge stays in the turn and does not sample the Timer. -/
theorem wire (e : EndlessRun ports run) (h : InLoopOf run n k) {x : Txn} (txn : (run k).seq.txn = some x) :
    InLoopOf run n (k + 1) ∧ ¬ SamplesTimer ports run k := by
  obtain ⟨phase, -, t0, silent⟩ := step_drive_wire h.busy txn (e k)
  exact ⟨h.samePlace ⟨Nat.le_succ k, phase, t0⟩, silent _⟩

theorem early (e : EndlessRun ports run) (stuck : StuckFrom run n) (h : InLoopOf run n k)
    (samples : SamplesTimer ports run k) : ((ports k).msNow - (run n).seq.t0).toNat < 65535 := by
  cases txn : (run k).seq.txn with
  | none => exact (h.operation e stuck txn).2.1 samples
  | some x => exact absurd samples (h.wire e txn).2

theorem next (e : EndlessRun ports run) (stuck : StuckFrom run n) (h : InLoopOf run n k) :
    InLoopOf run n (k + 1) := by
  cases txn : (run k).seq.txn with
  | none => exact (h.operation e stuck txn).1
  | some x => exact (h.wire e txn).1

/-- A loop that does not end is never left. -/
theorem always (e : EndlessRun ports run) (stuck : StuckFrom run n) (h : InLoopOf run n n) (le : n ≤ k) :
    InLoopOf run n k :=
  Nat.le_induction h (fun _ _ ih => ih.next e stuck) k le

/-- Every turn comes to its Timer sample. -/
theorem samples (e : EndlessRun ports run) (inv : MachineInv (run 0)) (fair : SerializerAnswers ports run)
    (stuck : StuckFrom run n) (h : InLoopOf run n k) : ∃ m, k ≤ m ∧ SamplesTimer ports run m := by
  induction toSample : (run k).seq.phase.toSample using Nat.strong_induction_on generalizing k with
  | _ d ih =>
    obtain ⟨m, same, noTxn⟩ := transaction_ends e fair (e.inv inv k) h.busy
    obtain ⟨h', -, sample | sooner⟩ := (h.samePlace same).operation e stuck noTxn
    · exact ⟨m, same.le, sample⟩
    · rw [same.phase, toSample] at sooner
      obtain ⟨m', le, sample⟩ := ih _ sooner h' rfl
      exact ⟨m', same.le.trans ((Nat.le_succ m).trans le), sample⟩

/-- No polling loop goes on for ever, if the Timer progresses (R150, R247 (b)). -/
theorem ends (e : EndlessRun ports run) (inv : MachineInv (run 0)) (fair : SerializerAnswers ports run)
    (progress : TimerProgress ports run) (h : InLoopOf run n n) : ¬ StuckFrom run n := by
  intro stuck
  have again (m : Nat) : ∃ k, m ≤ k ∧ SamplesTimer ports run k := by
    obtain ⟨k, le, sample⟩ := (h.always e stuck (Nat.le_max_left n m)).samples e inv fair stuck
    exact ⟨k, (Nat.le_max_right n m).trans le, sample⟩
  obtain ⟨k, le, sample, late⟩ := progress n 65535 le_rfl again
  exact absurd ((h.always e stuck le).early e stuck sample) (Nat.not_lt.mpr late)

end InLoopOf

/-- Every operation in flight comes to its response, by induction on how far its place is from it: the transaction in
flight ends, and the operation edge after it responds, or comes nearer, or is one of a polling loop, which ends. -/
theorem operation_ends (e : EndlessRun ports run) (inv : MachineInv (run 0)) (fair : SerializerAnswers ports run)
    (progress : TimerProgress ports run) {n : Nat} (busy : (run n).seq.phase ≠ .idle) :
    ∃ m, n ≤ m ∧ RespondsAt run m := by
  induction far : (run n).seq.phase.rank using Nat.strong_induction_on generalizing n with
  | _ d ih =>
    obtain ⟨m, same, noTxn⟩ := transaction_ends e fair (e.inv inv n) busy
    have rank : (run m).seq.phase.rank = d := by rw [same.phase, far]
    have fromNearer {k : Nat} (le : m ≤ k) (busy : (run k).seq.phase ≠ .idle) (lt : (run k).seq.phase.rank < d) :
        ∃ m, n ≤ m ∧ RespondsAt run m := by
      obtain ⟨m', le', responds⟩ := ih _ lt busy rfl
      exact ⟨m', same.le.trans (le.trans le'), responds⟩
    cases operation_edge e (same.busy busy) noTxn with
    | responds r event valid fields idle => exact ⟨m, same.le, r, event, valid, fields, idle⟩
    | nearer busy lt => exact fromNearer (Nat.le_succ m) busy (rank ▸ lt)
    | turns before =>
      by_contra never
      have stuck : StuckFrom run m := by
        refine fun k le => ⟨fun responds => never ⟨k, same.le.trans le, responds⟩, fun busy => ?_⟩
        by_contra near
        exact never (fromNearer le busy (by omega))
      exact InLoopOf.ends e inv fair progress ⟨le_rfl, before, rfl⟩ stuck

end Endless

/-- Settles O60: the response of `operation_ends`, with its edge and its fields. -/
theorem operationsEndInFairRuns : Obligations.OperationsEndInFairRuns := by
  intro ports run e inv fair progress n busy
  obtain ⟨m, le, r, responds⟩ := operation_ends e inv fair progress busy
  exact ⟨m, r, le, responds⟩

end Sys2Proof.Machine
end

section
/-! PROOFS. R160 to R164, R167, R168: WRITE_BYTE and the flushes: what they write, their single edges, and whole operations. -/

namespace Sys2Proof.Machine

/-! ### What the edges write (R160, R161) -/

theorem flushWait_sameBuffers (w : WaitAt) (s : State) : SameBuffers s (flushWait w s) :=
  waitReady_sameBuffers _ _ _ _ _ _

/-- FLUSH_SEND writes neither buffer, and of the cursors tx_cur only, to 0. -/
theorem flushSend_sameBuffers {ind : Byte} {back : Phase} {p : SendAt} {s t : State}
    (h : flushSend ind back p s = .next t) : SameBuffers s t ∨ SameBuffers (s.setTxCur 0) t := by
  rcases flushSend_next h with ⟨-, pending, -, rfl⟩ | ⟨-, rfl⟩
  · exact .inl ⟨rfl, rfl, rfl, rfl⟩
  · exact .inr ⟨rfl, rfl, rfl, rfl⟩

/-- Settles O25, by the six things an edge of WRITE_BYTE can do: the append writes at tx_cur, and nothing else writes
tx_buf. -/
theorem writeByteFrame : Obligations.WriteByteFrame := by
  intro b s t h
  rcases execWriteByte_next h with
    ⟨-, rfl⟩ | ⟨w, -, rfl⟩ | ⟨w, -, h⟩ | ⟨-, -, rfl⟩ | ⟨-, rfl⟩ | ⟨r, -, rfl⟩
  · exact ⟨rfl, .inr rfl, .inl rfl, fun _ _ => rfl⟩
  · obtain ⟨txBuf, txCur, rxBuf, rxCur⟩ := flushWait_sameBuffers w s
    exact ⟨rxBuf, .inl rxCur, .inl txCur, fun _ _ => by rw [txBuf]⟩
  · rcases flushSend_sameBuffers h with ⟨txBuf, txCur, rxBuf, rxCur⟩ | ⟨txBuf, txCur, rxBuf, rxCur⟩
    · exact ⟨rxBuf, .inl rxCur, .inl txCur, fun _ _ => by rw [txBuf]⟩
    · exact ⟨rxBuf, .inl rxCur, .inr (.inl txCur), fun _ _ => by rw [txBuf]; rfl⟩
  · exact ⟨rfl, .inl rfl, .inl rfl, fun _ other => Mem.read_write_other _ _ _ _ other⟩
  · exact ⟨rfl, .inl rfl, .inr (.inr rfl), fun _ _ => rfl⟩
  · exact ⟨rfl, .inl rfl, .inl rfl, fun _ _ => rfl⟩

/-- FLUSH_FIN and FLUSH_CONT are the flush operation, each with its own indicator (R88). -/
theorem exec_flush {i : Instr} (flush : i = .flushFin ∨ i = .flushCont) : ∃ ind, ∀ s, exec i s = flushOp ind s := by
  rcases flush with rfl | rfl
  · exact ⟨Config.indFinished, fun _ => rfl⟩
  · exact ⟨Config.indContinues, fun _ => rfl⟩

/-- Settles O26, by the four things an edge of a flush can do: only the end of FLUSH_SEND writes, and only tx_cur. -/
theorem flushFrame : Obligations.FlushFrame := by
  intro i s t flush h
  obtain ⟨ind, runs⟩ := exec_flush flush
  have buffers : SameBuffers s t ∨ SameBuffers (s.setTxCur 0) t := by
    rcases flushOp_next ((runs s).symm.trans h) with ⟨-, rfl⟩ | ⟨w, -, rfl⟩ | ⟨w, -, h⟩ | ⟨r, -, rfl⟩
    · split <;> exact .inl ⟨rfl, rfl, rfl, rfl⟩
    · exact .inl (flushWait_sameBuffers w s)
    · exact flushSend_sameBuffers h
    · exact .inl ⟨rfl, rfl, rfl, rfl⟩
  rcases buffers with ⟨txBuf, txCur, rxBuf, rxCur⟩ | ⟨txBuf, txCur, rxBuf, rxCur⟩
  · exact ⟨txBuf, rxBuf, rxCur, .inl txCur⟩
  · exact ⟨txBuf, rxBuf, rxCur, .inr txCur⟩

/-! ### Single edges (R161, R164) -/

theorem execWriteByte_decode {s : State} (b : Byte) (place : s.seq.phase = .decode) :
    execWriteByte b s = .next (writeDecode s) := by
  rw [execWriteByte, place]

theorem execWriteByte_append {s : State} (b : Byte) (place : s.seq.phase = .respond .append) (room : s.txCur < 31) :
    execWriteByte b s = .next (({ s with txBuf := s.txBuf.write s.txCur b } : State).goto (.respond .advance)) := by
  have written := (State.writeTx_ok s _ s.txCur b).mpr ⟨room, rfl⟩
  rw [execWriteByte, place]
  simp only [written, andThen_ok]

theorem execWriteByte_advance {s : State} (b : Byte) (place : s.seq.phase = .respond .advance) :
    execWriteByte b s = .next ((s.setTxCur (s.txCur + 1)).goto (.respond (.send Rsp.ack))) := by
  rw [execWriteByte, place]

/-- Settles O34: the three edges, with the written byte read back. -/
theorem writeByteAppends : Obligations.WriteByteAppends := by
  intro b s
  refine ⟨fun place => ?_, fun place room => ?_, fun place => ?_⟩
  · exact ⟨_, execWriteByte_decode b place, rfl, rfl, rfl, rfl, rfl, rfl⟩
  · exact ⟨_, execWriteByte_append b place room, Mem.read_write_same _ _ _,
      fun k other => Mem.read_write_other _ _ _ _ other, rfl, rfl, rfl, rfl, rfl⟩
  · exact ⟨_, execWriteByte_advance b place, rfl, rfl, rfl, rfl, rfl, rfl⟩

/-- A flush of an empty buffer responds at DECODE (R164). -/
theorem flushOp_empty {s : State} (ind : Byte) (place : s.seq.phase = .decode) (empty : s.txCur = 0) :
    flushOp ind s = .next (s.respond Rsp.ack) := by
  rw [flushOp, place]
  simp only [if_pos empty]

theorem flushOp_pending {s : State} (ind : Byte) (place : s.seq.phase = .decode) (pending : s.txCur ≠ 0) :
    flushOp ind s = .next (s.goto (.waitLoop .sampleT0)) := by
  rw [flushOp, place]
  simp only [if_neg pending]

/-- Settles O35: the edge at DECODE is `State.respond`. -/
theorem flushOfEmptyBufferIsSilent : Obligations.FlushOfEmptyBufferIsSilent := by
  intro i s flush place empty
  obtain ⟨ind, runs⟩ := exec_flush flush
  exact ⟨_, (runs s).trans (flushOp_empty ind place empty), ⟨rfl, rfl, rfl, rfl⟩, ⟨rfl, rfl, rfl, rfl⟩,
    ⟨rfl, rfl, rfl, rfl, rfl⟩, rfl, rfl⟩

/-! ### Whole flushes (R160, R162 to R164, R167) -/

/-- `Presents.accepted` with what is left of the request script. -/
theorem Presents.takes {s : State} {q : Req} {more : List (Option Req)} (h : Presents s q)
    (requests : s.env.requests = some q :: more) :
    ∃ t, Reaches s t ∧ SameBuffers s t ∧
      Stands q .decode ⟨.req q :: s.trace, more, s.env.serial, s.env.timer⟩ t := by
  obtain ⟨idle, -, ss, -⟩ := h
  exact ⟨_, reaches_accept idle requests, ⟨rfl, rfl, rfl, rfl⟩,
    { req := rfl, phase := rfl, ss := ss, trace := rfl, requests := rfl, serial := rfl, timer := rfl, noTxn := rfl }⟩

theorem decodeReq_flushFin {q : Req} (op : q.op = 0x9#4) : decodeReq q = .flushFin := by
  rw [decodeReq, op]
  rfl

theorem decodeReq_flushCont {q : Req} (op : q.op = 0xA#4) : decodeReq q = .flushCont := by
  rw [decodeReq, op]
  rfl

/-- A request whose operation is a flush with the indicator ind, followed by the response. -/
theorem flushesWith_of_flushOp {q : Req} {ind : Byte} (runs : ∀ v, exec (decodeReq q) v = flushOp ind v) :
    FlushesWith q ind (.respond (.send Rsp.ack)) where
  waits := ⟨fun w v place => by rw [runs, flushOp, place]; rfl, by simp⟩
  sends w v place := by rw [runs, flushOp, place]

/-- A flush of pending bytes, from its request to its response. -/
theorem flush_performs {s : State} {q : Req} {ind : Byte} {data : List Byte} {r : FlushRun}
    {more : List (Option Req)} {rest : List (Option Byte)} {ts : List Ms} (presented : Presents s q)
    (runs : ∀ v, exec (decodeReq q) v = flushOp ind v) (requests : s.env.requests = some q :: more)
    (pos : data ≠ []) (len : data.length ≤ 31) (cur : s.txCur = data.length) (holds : Holds s.txBuf data) (ok : r.ok)
    (serial : s.env.serial = r.gate.serial ++ (answers r.ws ++ rest)) (timer : s.env.timer = r.gate.timer ++ ts) :
    ∃ t, Performs s q (decodeReq q)
        (r.gate.events .rx ++ txnEvents (.writeData (muxFrame ind data)) (misoOf r.ws)) Rsp.ack t ∧
      SameBuffers (s.setTxCur 0) t ∧ t.env.requests = more ∧ t.env.serial = rest ∧ t.env.timer = ts := by
  obtain ⟨t, run, ⟨txBuf, txCur, rxBuf, rxCur⟩, decode⟩ := presented.takes requests
  rw [serial, timer] at decode
  have pending : t.clearPulses.txCur ≠ 0 := by
    rw [State.clearPulses_txCur, txCur, cur]
    exact fun e => pos (List.length_eq_zero_iff.mp e)
  have starts := decode.edge (by simp) ((runs _).trans (flushOp_pending ind decode.clearPulses.phase pending))
  obtain ⟨u, run', ⟨txBuf', txCur', rxBuf', rxCur'⟩, send⟩ := (flushesWith_of_flushOp runs).performs (data := data)
    (s := t.clearPulses.goto (.waitLoop .sampleT0)) r ok (txBuf ▸ holds) (txCur.trans cur) len
    { decode with phase := rfl }
  obtain ⟨x, performs, buffers, inputs⟩ := send.performs ((run.trans starts).trans run') rfl
    (fun v place => (runs v).trans (flushOp_send ind place))
  exact ⟨x, performs, .trans ⟨txBuf'.trans txBuf, txCur', rxBuf'.trans rxBuf, rxCur'.trans rxCur⟩ buffers, inputs⟩

/-- Settles O51: either flush is `flushOp` with its own indicator. -/
theorem flushesPerform : Obligations.FlushesPerform := by
  intro s q i ind data r rest ts presented which pos le len holds ok serial timer
  have flush : decodeReq q = i ∧ ∀ v, exec i v = flushOp ind v := by
    rcases which with ⟨op, rfl, rfl⟩ | ⟨op, rfl, rfl⟩
    · exact ⟨decodeReq_flushFin op, fun _ => rfl⟩
    · exact ⟨decodeReq_flushCont op, fun _ => rfl⟩
  obtain ⟨rfl, runs⟩ := flush
  have ⟨_, _, _, more, requests⟩ := presented
  obtain ⟨t, performs, ⟨txBuf, txCur, rxBuf, rxCur⟩, -, serial', timer'⟩ := flush_performs presented runs requests
    (List.ne_nil_of_length_pos (by omega)) (by omega) len.symm holds ok (by rw [serial, List.append_assoc]) timer
  exact ⟨t, performs, txCur, txBuf, rxBuf, rxCur, serial', timer'⟩

/-- Settles O57: the acceptance, then the response at DECODE. -/
theorem emptyFlushPerforms : Obligations.EmptyFlushPerforms := by
  intro s q i presented which empty
  have flush : decodeReq q = i ∧ (i = .flushFin ∨ i = .flushCont) := by
    rcases which with ⟨op, rfl⟩ | ⟨op, rfl⟩
    · exact ⟨decodeReq_flushFin op, .inl rfl⟩
    · exact ⟨decodeReq_flushCont op, .inr rfl⟩
  obtain ⟨rfl, flush⟩ := flush
  obtain ⟨ind, runs⟩ := exec_flush flush
  obtain ⟨t, reqs, run, buffers, decode⟩ := presented.accepted
  have ⟨_, txCur, _, _⟩ := buffers
  have answer := (runs _).trans (flushOp_empty ind decode.clearPulses.phase (txCur.trans empty))
  exact ⟨_, ⟨rfl, run.executes (decode.executes (by simp) answer), rfl, decode.noTxn, decode.ss, rfl, rfl,
    congrArg _ decode.trace⟩, buffers, decode.serial, decode.timer⟩

/-! ### Whole WRITE_BYTE operations (R161, R168) -/

/-- WRITE_BYTE with room in the buffer, from its request to its response. -/
theorem writeByte_performs_room {s : State} {q : Req} {more : List (Option Req)} (presented : Presents s q)
    (op : q.op = 0x8#4) (requests : s.env.requests = some q :: more) (room : s.txCur < 31) :
    ∃ t, Performs s q (.writeByte q.a8) [] Rsp.ack t ∧
      SameBuffers { s with txBuf := s.txBuf.write s.txCur q.a8, txCur := s.txCur + 1, rxCur := 0 } t ∧
      t.env.requests = more ∧ t.env.serial = s.env.serial ∧ t.env.timer = s.env.timer := by
  obtain ⟨t, run, ⟨txBuf, txCur, rxBuf, -⟩, decode⟩ := presented.takes requests
  have room' : t.clearPulses.txCur ≠ Config.txCap := by
    rw [State.clearPulses_txCur, txCur]
    exact room.ne
  have starts : exec (decodeReq q) t.clearPulses = .next ((t.clearPulses.setRxCur 0).goto (.respond .append)) := by
    rw [decodeReq_writeByte op, exec, execWriteByte_decode _ decode.clearPulses.phase, writeDecode, if_neg room']
  obtain ⟨u, performs, ⟨txBuf', txCur', rxBuf', rxCur'⟩, inputs⟩ := append_performs (evs := []) op
    (run.trans (decode.edge (by simp) starts)) { decode with phase := rfl } (txCur.trans_lt room)
  refine ⟨u, performs, ⟨txBuf'.trans ?_, txCur'.trans ?_, rxBuf'.trans rxBuf, rxCur'⟩, inputs⟩
  · simp [txBuf, txCur]
  · simp [txCur]

/-- Settles O49: the byte stored is read back, the others are as they were. -/
theorem writeBytePerforms : Obligations.WriteBytePerforms := by
  intro s q presented op room
  have ⟨_, _, _, more, requests⟩ := presented
  obtain ⟨t, performs, ⟨txBuf, txCur, rxBuf, rxCur⟩, -, serial, timer⟩ :=
    writeByte_performs_room presented op requests room
  refine ⟨t, performs, txCur, ?_, fun k other => ?_, rxCur, rxBuf, serial, timer⟩
  · rw [txBuf, Mem.read_write_same]
  · rw [txBuf, Mem.read_write_other _ _ _ _ other]

end Sys2Proof.Machine
end

section
/-! PROOFS. R165, R166: a message of WRITE_BYTE operations and a FLUSH_FIN is sent as ceil(N / 31) frames. -/

namespace Sys2Proof.Machine

/-! ### The frames of a message -/

theorem frameCount_pos {n : Nat} (pos : 1 ≤ n) : 1 ≤ frameCount n := by
  unfold frameCount
  omega

theorem frameCount_eq_one {n : Nat} (pos : 1 ≤ n) (le : n ≤ 31) : frameCount n = 1 := by
  unfold frameCount
  omega

theorem frameCount_add (n : Nat) : frameCount (31 + n) = frameCount n + 1 := by
  unfold frameCount
  omega

/-- Up to 31 bytes are one frame, the last. -/
theorem messageFrames_last {data : List Byte} (pos : data ≠ []) (len : data.length ≤ 31) :
    messageFrames data = [muxFrame 0xDF#8 data] := by
  have one : frameCount data.length = 1 := frameCount_eq_one (List.length_pos_iff.mpr pos) len
  simp [messageFrames, one, List.take_of_length_le len]

/-- The first 31 bytes of a longer message are a frame that is not the last. -/
theorem messageFrames_append {data more : List Byte} (len : data.length = 31) (left : more ≠ []) :
    messageFrames (data ++ more) = muxFrame 0xDC#8 data :: messageFrames more := by
  have count : frameCount (data ++ more).length = frameCount more.length + 1 := by
    rw [List.length_append, len, frameCount_add]
  have notLast : 0 + 1 ≠ frameCount more.length + 1 := by
    have := frameCount_pos (List.length_pos_iff.mpr left)
    omega
  have bytes (j : Nat) : (data ++ more).drop (31 * (j + 1)) = more.drop (31 * j) := by
    rw [show 31 * (j + 1) = data.length + 31 * j by omega, List.drop_length_add_append]
  rw [messageFrames, count, List.range_succ_eq_map, List.map_cons, List.map_map, if_neg notLast, Nat.mul_zero,
    List.drop_zero, List.take_left' len]
  refine congrArg _ (List.map_congr_left fun j _ => ?_)
  simp only [Function.comp_apply, bytes, Nat.succ_eq_add_one, Nat.add_right_cancel_iff]

/-! ### The frames among the events of a trace -/

/-- The exchanges of a body add its bytes to the open one. -/
theorem bodiesFrom_exchanges {body miso : List Byte} (len : miso.length = body.length) (cur : List Byte)
    (es : List Event) : bodiesFrom cur (List.zipWith Event.x body miso ++ es) = bodiesFrom (cur ++ body) es := by
  induction body generalizing miso cur with
  | nil => simp
  | cons m body ih =>
    cases miso with
    | nil => cases len
    | cons b miso => simpa [bodiesFrom] using ih (Nat.succ.inj len) (cur ++ [m])

/-- A whole transaction is one body. -/
theorem bodiesFrom_txnEvents {c : WireCmd} {miso : List Byte} (len : miso.length = (wireBody c).length)
    (cur : List Byte) (es : List Event) :
    bodiesFrom cur (txnEvents c miso ++ es) = wireBody c :: bodiesFrom [] es := by
  simp only [txnEvents, List.cons_append, List.append_assoc, bodiesFrom]
  rw [bodiesFrom_exchanges len]
  rfl

theorem sentFrames_writeData {payload miso : List Byte} (len : miso.length = payload.length + 2)
    (es : List Event) : sentFrames (txnEvents (.writeData payload) miso ++ es) = payload :: sentFrames es := by
  rw [sentFrames, bodiesFrom_txnEvents (by rw [len]; rfl)]
  rfl

theorem sentFrames_readStatus {miso : List Byte} (len : miso.length = 5) (es : List Event) :
    sentFrames (txnEvents .readStatus miso ++ es) = sentFrames es := by
  rw [sentFrames, bodiesFrom_txnEvents (by rw [len]; rfl)]
  rfl

/-- An event that is not of the wire sends nothing. -/
theorem sentFrames_offWire {e : Event} (off : e.onWire = false) (es : List Event) :
    sentFrames (e :: es) = sentFrames es := by
  cases e with
  | start => cases off
  | stop => cases off
  | x m b => cases off
  | _ => rfl

theorem sentFrames_turns {turns : List Turn} (read : ∀ p ∈ turns, ∃ v, statusAnswer p.ws v) (es : List Event) :
    sentFrames (turnEvents .readStatus turns ++ es) = sentFrames es := by
  induction turns with
  | nil => rfl
  | cons p turns ih =>
    obtain ⟨v, answered⟩ := read p List.mem_cons_self
    have len : (misoOf p.ws).length = 5 := (length_misoOf p.ws).trans (statusAnswer_length answered)
    simp only [turnEvents, List.append_assoc, List.cons_append, List.nil_append]
    rw [sentFrames_readStatus len, sentFrames_offWire rfl, sentFrames_offWire rfl,
      ih fun p mem => read p (List.mem_cons_of_mem _ mem)]

/-- A ready-polling wait sends no frame. -/
theorem sentFrames_wait {r : WaitRun} {sel : Sel} {budget : Nat} (ok : r.ok sel budget) (es : List Event) :
    sentFrames (r.events sel ++ es) = sentFrames es := by
  obtain ⟨turns, answered, -⟩ := ok
  have len : (misoOf r.ws).length = 5 := (length_misoOf r.ws).trans (statusAnswer_length answered)
  have warning : (waitWarning sel).onWire = false := by cases sel <;> rfl
  simp only [WaitRun.events, List.append_assoc, List.cons_append]
  rw [sentFrames_offWire rfl, sentFrames_turns fun p mem => (turns p mem).1.imp fun _ => And.left, sentFrames_readStatus len]
  cases r.late with
  | none => rfl
  | some t1 => exact (sentFrames_offWire rfl _).trans (sentFrames_offWire warning _)

theorem length_muxFrame (ind : Byte) {data : List Byte} (len : data.length ≤ 31) :
    (muxFrame ind data).length = 32 := by
  simp only [muxFrame, List.length_cons, List.length_append, List.length_replicate]
  omega

/-- The events of a flush of the bytes data with the indicator ind (R160). -/
def FlushRun.events (r : FlushRun) (ind : Byte) (data : List Byte) : List Event :=
  r.gate.events .rx ++ txnEvents (.writeData (muxFrame ind data)) (misoOf r.ws)

/-- A flush sends its one frame, whatever the gating wait meets. -/
theorem sentFrames_flush {r : FlushRun} (ok : r.ok) (ind : Byte) {data : List Byte} (len : data.length ≤ 31)
    (es : List Event) : sentFrames (r.events ind data ++ es) = muxFrame ind data :: sentFrames es := by
  obtain ⟨gate, answered⟩ := ok
  rw [FlushRun.events, List.append_assoc, sentFrames_wait gate,
    sentFrames_writeData (by rw [length_misoOf, answered, length_muxFrame ind len])]

/-! ### Bytes pending between operations -/

/-- The block is idle with the bytes data pending in tx_buf; the trace and the inputs have come as far as w says. -/
structure Pending (data : List Byte) (w : Course) (s : State) : Prop where
  idle : s.seq.phase = .idle
  noTxn : s.seq.txn = none
  ss : s.ss = .deasserted
  txCur : s.txCur = data.length
  holds : Holds s.txBuf data
  trace : s.trace = w.trace
  requests : s.env.requests = w.requests
  serial : s.env.serial = w.serial
  timer : s.env.timer = w.timer

/-- A byte appended to those a memory holds. -/
theorem Holds.append {m : Mem} {data : List Byte} (h : Holds m data) (b : Byte) :
    Holds (m.write data.length b) (data ++ [b]) := by
  intro k lt
  rw [List.length_append, List.length_singleton] at lt
  rw [Mem.read_write]
  by_cases last : k = data.length
  · simp [last]
  · rw [if_neg last, h k (by omega), List.getElem?_append_left (by omega)]

/-- The events of an operation, from its request to its response. -/
def opEvents (q : Req) (evs : List Event) (r : Rsp) : List Event := .req q :: evs ++ [.rsp r]

/-- An operation that only responds sends nothing. -/
theorem sentFrames_silent (q : Req) (a : Rsp) (es : List Event) :
    sentFrames (opEvents q [] a ++ es) = sentFrames es :=
  (sentFrames_offWire rfl _).trans (sentFrames_offWire rfl es)

/-- An operation that flushes sends the frame of its flush. -/
theorem sentFrames_flushing {r : FlushRun} (ok : r.ok) (q : Req) (ind : Byte) {data : List Byte}
    (len : data.length ≤ 31) (a : Rsp) (es : List Event) :
    sentFrames (opEvents q (r.events ind data) a ++ es) = muxFrame ind data :: sentFrames es := by
  simp only [opEvents, List.cons_append, List.append_assoc, List.nil_append]
  rw [sentFrames_offWire rfl, sentFrames_flush ok ind len, sentFrames_offWire rfl]

section Message

variable {data : List Byte} {tr : List Event} {reqs : List (Option Req)} {ser : List (Option Byte)} {ts : List Ms}
  {q : Req} {s : State}

theorem Pending.presents (h : Pending data ⟨tr, some q :: reqs, ser, ts⟩ s) : Presents s q :=
  ⟨h.idle, h.noTxn, h.ss, reqs, h.requests⟩

/-- After an operation that leaves the bytes data pending. -/
theorem Performs.pending {i : Instr} {evs : List Event} {r : Rsp} {t : State} (h : Performs s q i evs r t)
    (before : s.trace = tr) (txCur : t.txCur = data.length) (holds : Holds t.txBuf data)
    (inputs : t.env.requests = reqs ∧ t.env.serial = ser ∧ t.env.timer = ts) :
    Reaches s t ∧ Pending data ⟨(opEvents q evs r).reverse ++ tr, reqs, ser, ts⟩ t := by
  obtain ⟨-, executes, idle, noTxn, ss, -, -, trace⟩ := h
  obtain ⟨requests, serial, timer⟩ := inputs
  exact ⟨executes.reaches, idle, noTxn, ss, txCur, holds, by simp [trace, opEvents, before], requests, serial, timer⟩

/-- WRITE_BYTE with room in the buffer adds its byte to the pending ones. -/
theorem Pending.appends (op : q.op = 0x8#4) (h : Pending data ⟨tr, some q :: reqs, ser, ts⟩ s)
    (room : data.length < 31) : ∃ t, Reaches s t ∧
      Pending (data ++ [q.a8]) ⟨(opEvents q [] Rsp.ack).reverse ++ tr, reqs, ser, ts⟩ t := by
  obtain ⟨t, performs, ⟨txBuf, txCur, -, -⟩, requests, serial, timer⟩ :=
    writeByte_performs_room h.presents op h.requests (h.txCur.trans_lt room)
  refine ⟨t, performs.pending h.trace ?_ ?_ ⟨requests, serial.trans h.serial, timer.trans h.timer⟩⟩
  · rw [txCur, h.txCur, List.length_append, List.length_singleton]
  · rw [txBuf, h.txCur]
    exact h.holds.append q.a8

/-- WRITE_BYTE with a full buffer sends it under CONTINUES, and its byte alone is pending. The run is that of
`writeByteToFullBufferFlushes`, with what is left of the request script. -/
theorem Pending.continues {r : FlushRun} (op : q.op = 0x8#4) (full : data.length = 31) (ok : r.ok)
    (h : Pending data ⟨tr, some q :: reqs, r.gate.serial ++ (answers r.ws ++ ser), r.gate.timer ++ ts⟩ s) :
    ∃ t, Reaches s t ∧
      Pending [q.a8] ⟨(opEvents q (r.events 0xDC#8 data) Rsp.ack).reverse ++ tr, reqs, ser, ts⟩ t := by
  obtain ⟨t, run, ⟨txBuf, txCur, -, -⟩, decode⟩ := h.presents.takes h.requests
  rw [h.serial, h.timer] at decode
  have full' : t.clearPulses.txCur = Config.txCap := txCur.trans (h.txCur.trans full)
  have starts : exec (decodeReq q) t.clearPulses =
      .next ((t.clearPulses.setRxCur 0).goto (.waitLoop .sampleT0)) := by
    rw [decodeReq_writeByte op, exec, execWriteByte_decode _ decode.clearPulses.phase, writeDecode, if_pos full']
  obtain ⟨u, run', ⟨txBuf', txCur', -, -⟩, append⟩ := (writeByte_flushes op).performs (data := data)
    (s := (t.clearPulses.setRxCur 0).goto (.waitLoop .sampleT0)) r ok (txBuf ▸ h.holds) (txCur.trans h.txCur)
    full.le { decode with phase := rfl }
  have empty : u.txCur = 0 := txCur'
  obtain ⟨v, performs, ⟨txBuf'', txCur'', -, -⟩, inputs⟩ := append_performs op
    ((run.trans (decode.edge (by simp) starts)).trans run') append (by omega)
  refine ⟨v, performs.pending h.trace ?_ ?_ inputs⟩
  · simp [txCur'', empty]
  · have none' : Holds u.txBuf [] := fun k lt => absurd lt (Nat.not_lt_zero k)
    rw [txBuf'', empty]
    exact none'.append q.a8

/-- FLUSH_FIN sends the pending bytes under FINISHED, and none is left. -/
theorem Pending.finishes {r : FlushRun} (op : q.op = 0x9#4) (pos : data ≠ []) (len : data.length ≤ 31) (ok : r.ok)
    (h : Pending data ⟨tr, some q :: reqs, r.gate.serial ++ (answers r.ws ++ ser), r.gate.timer ++ ts⟩ s) :
    ∃ t, Reaches s t ∧
      Pending [] ⟨(opEvents q (r.events 0xDF#8 data) Rsp.ack).reverse ++ tr, reqs, ser, ts⟩ t := by
  obtain ⟨t, performs, ⟨-, txCur, -, -⟩, inputs⟩ := flush_performs (ind := 0xDF#8) h.presents
    (fun v => by rw [decodeReq_flushFin op]; rfl) h.requests pos len h.txCur h.holds ok h.serial h.timer
  exact ⟨t, performs.pending h.trace txCur (fun k lt => absurd lt (Nat.not_lt_zero k)) inputs⟩

end Message

/-! ### The whole message (R165) -/

/-- The request to write a byte of a message. -/
def writeReq (b : Byte) : Req := { Req.plain 0x8#4 with a8 := b }

/-- The request that ends a message. -/
def finReq : Req := Req.plain 0x9#4

/-- The requests of the rest of a message, and what the flushes meet, lead to the frames of the pending bytes and that
rest. -/
theorem Pending.framed (msg : List Byte) {data : List Byte} {tr : List Event} {rs : List FlushRun}
    {more : List (Option Req)} {rest : List (Option Byte)} {ts : List Ms} {s : State} (len : data.length ≤ 31)
    (pos : data ++ msg ≠ []) (frames : rs.length = frameCount (data ++ msg).length) (ok : ∀ r ∈ rs, r.ok)
    (h : Pending data ⟨tr, msg.map (fun b => some (writeReq b)) ++ some finReq :: more,
      rs.flatMap (fun r => r.gate.serial ++ answers r.ws) ++ rest, rs.flatMap (fun r => r.gate.timer) ++ ts⟩ s) :
    ∃ (t : State) (es : List Event), Reaches s t ∧ Pending [] ⟨es.reverse ++ tr, more, rest, ts⟩ t ∧
      sentFrames es = messageFrames (data ++ msg) := by
  induction msg generalizing s data tr rs with
  | nil =>
    rw [List.append_nil] at pos frames ⊢
    obtain ⟨r, rfl⟩ := List.length_eq_one_iff.mp
      (frames.trans (frameCount_eq_one (List.length_pos_iff.mpr pos) len))
    have okR := ok r (List.mem_singleton.mpr rfl)
    simp only [List.map_nil, List.nil_append, List.flatMap_cons, List.flatMap_nil, List.append_nil,
      List.append_assoc] at h
    obtain ⟨t, run, done⟩ := h.finishes rfl pos len okR
    refine ⟨t, _, run, done, ?_⟩
    rw [messageFrames_last pos len, ← List.append_nil (opEvents _ _ _), sentFrames_flushing okR _ _ len]
    rfl
  | cons b msg ih =>
    by_cases room : data.length < 31
    · obtain ⟨t, run, appended⟩ := h.appends rfl room
      have assoc : data ++ [b] ++ msg = data ++ b :: msg := by simp
      obtain ⟨u, es, run', done, sent⟩ := ih (data := data ++ [b]) (by rw [List.length_append]; exact room)
        (by simp) (by rw [assoc]; exact frames) ok appended
      refine ⟨u, opEvents (writeReq b) [] Rsp.ack ++ es, run.trans run', by simpa using done, ?_⟩
      rw [sentFrames_silent, sent, assoc]
    · have full : data.length = 31 := by omega
      have count : frameCount (data ++ b :: msg).length = frameCount (b :: msg).length + 1 := by
        rw [List.length_append, full, frameCount_add]
      obtain ⟨r, rs, rfl⟩ := List.exists_cons_of_length_eq_add_one (frames.trans count)
      have okR := ok r List.mem_cons_self
      simp only [List.flatMap_cons, List.append_assoc] at h
      obtain ⟨t, run, fresh⟩ := h.continues rfl full okR
      obtain ⟨u, es, run', done, sent⟩ := ih (data := [b]) (rs := rs) (by simp) (by simp)
        (Nat.succ.inj (frames.trans count)) (fun r mem => ok r (List.mem_cons_of_mem _ mem)) fresh
      refine ⟨u, opEvents (writeReq b) (r.events 0xDC#8 data) Rsp.ack ++ es, run.trans run', by simpa using done, ?_⟩
      rw [sentFrames_flushing okR _ _ len, sent, messageFrames_append full (by simp)]
      rfl

/-- Settles O59: the message as the rest of itself, with nothing pending. -/
theorem messageIsFramed : Obligations.MessageIsFramed := by
  intro s msg rs more rest ts idle noTxn ss empty pos frames ok requests serial timer
  have start : Pending [] ⟨s.trace, s.env.requests, s.env.serial, s.env.timer⟩ s :=
    ⟨idle, noTxn, ss, empty, fun k lt => absurd lt (Nat.not_lt_zero k), rfl, rfl, rfl, rfl⟩
  rw [requests, serial, timer] at start
  have left : [] ++ msg ≠ [] := List.ne_nil_of_length_pos pos
  obtain ⟨t, es, run, done, sent⟩ := start.framed msg (Nat.zero_le _) left frames ok
  exact ⟨t, es, run, done.idle, done.txCur, done.requests, done.serial, done.timer, done.trace, sent⟩

end Sys2Proof.Machine
end

section
/-! PROOFS. R51, R180 to R184: single edges of READ_BYTE and AVAIL: what they write, and the ways READ_BYTE takes. -/

namespace Sys2Proof.Machine

/-! ### What an edge of READ_BYTE writes (R51, R180) -/

/-- The two places of READ_BYTE at which a fetched frame is stored. -/
def StoresFrame (p : Phase) : Prop := p = .rxContFetch .store ∨ p = .rxPoll .store

/-- Of the buffers and the cursors, READ_BYTE writes away from the storing places at most the cursors. -/
def WritesCursors (s t : State) : Prop :=
  t.txBuf = s.txBuf ∧ (t.txCur = s.txCur ∨ t.txCur = 0) ∧ (t.rxCur = s.rxCur ∨ t.rxCur = 1 ∨ t.rxCur = s.rxCur + 1) ∧
    t.rxBuf = s.rxBuf

/-- At a storing place READ_BYTE writes the captured frame to rx_buf, and nothing else of the buffers and cursors. -/
def WritesFrame (s t : State) : Prop :=
  s.seq.asm.length = 32 ∧ SameBuffers { s with rxBuf := s.rxBuf.writeAll 0 s.seq.asm } t

theorem SameBuffers.writesCursors {s t : State} (h : SameBuffers s t) : WritesCursors s t := by
  obtain ⟨txBuf, txCur, rxBuf, rxCur⟩ := h
  exact ⟨txBuf, .inl txCur, .inl rxCur, rxBuf⟩

theorem readDecode_sameBuffers {s t : State} (h : readDecode s = .next t) : SameBuffers (s.setTxCur 0) t := by
  rcases readDecode_next h with ⟨-, ind, -, rfl⟩ | ⟨-, rfl⟩ | ⟨-, -, rfl⟩ <;> exact ⟨rfl, rfl, rfl, rfl⟩

theorem contFetch_writes {p : FetchAt} {s t : State} (h : contFetch p s = .next t) :
    (p ≠ .store ∧ WritesCursors s t) ∨ (p = .store ∧ WritesFrame s t) := by
  rcases contFetch_next h with ⟨rfl, rfl⟩ | ⟨rfl, len, rfl⟩ | ⟨rfl, rfl⟩
  · exact .inl ⟨by simp, rfl, .inl rfl, .inl rfl, rfl⟩
  · exact .inr ⟨rfl, len, rfl, rfl, rfl, rfl⟩
  · exact .inl ⟨by simp, rfl, .inl rfl, .inr (.inl rfl), rfl⟩

theorem pollFrame_writes {p : PollAt} {s t : State} (h : pollFrame p s = .next t) :
    (p ≠ .store ∧ WritesCursors s t) ∨ (p = .store ∧ WritesFrame s t) := by
  rcases pollFrame_next h with ⟨rfl, rfl⟩ | ⟨rfl, len, ind, -, rfl⟩ | ⟨rfl, rfl⟩ | ⟨rfl, rfl⟩ | ⟨rfl, rfl⟩
  · exact .inl ⟨by simp, SameBuffers.writesCursors (by simp [SameBuffers])⟩
  · exact .inr ⟨rfl, len, rfl, rfl, rfl, rfl⟩
  · exact .inl ⟨by simp, rfl, .inl rfl, .inr (.inl rfl), rfl⟩
  · exact .inl ⟨by simp, SameBuffers.writesCursors (by simp [SameBuffers])⟩
  · exact .inl ⟨by simp, rfl, .inl rfl, .inl rfl, rfl⟩

/-- Everything an edge of READ_BYTE can write. -/
theorem execReadByte_writes {s t : State} (h : execReadByte s = .next t) :
    (¬ StoresFrame s.seq.phase ∧ WritesCursors s t) ∨ (StoresFrame s.seq.phase ∧ WritesFrame s t) := by
  rcases execReadByte_next h with
    ⟨place, h⟩ | ⟨w, place, rfl⟩ | ⟨w, place, h⟩ | ⟨w, place, h⟩ | ⟨place, h⟩ | ⟨r, place, rfl⟩
  · obtain ⟨txBuf, txCur, rxBuf, rxCur⟩ := readDecode_sameBuffers h
    exact .inl ⟨by simp [StoresFrame, place], txBuf, .inr txCur, .inl rxCur, rxBuf⟩
  · exact .inl ⟨by simp [StoresFrame, place], (waitReady_sameBuffers _ _ _ _ _ _).writesCursors⟩
  · simpa [StoresFrame, place] using contFetch_writes h
  · simpa [StoresFrame, place] using pollFrame_writes h
  · obtain ⟨r, -, -, rfl⟩ := deliverByte_next h
    exact .inl ⟨by simp [StoresFrame, place], rfl, .inl rfl, .inr (.inr rfl), rfl⟩
  · exact .inl ⟨by simp [StoresFrame, place], rfl, .inl rfl, .inl rfl, rfl⟩

/-- Settles O27: away from the storing places only cursors change, and at them the frame is written whole. -/
theorem readByteFrame : Obligations.ReadByteFrame := by
  intro s t h
  rcases execReadByte_writes h with ⟨away, txBuf, txCur, rxCur, rxBuf⟩ | ⟨store, len, txBuf, txCur, rxBuf, rxCur⟩
  · exact ⟨txBuf, txCur, rxCur, fun store => absurd store away, fun _ _ => rxBuf⟩
  · refine ⟨txBuf, .inl txCur, .inl rxCur, fun _ => ⟨len, ?_⟩, fun notCont notPoll => ?_⟩
    · rw [rxBuf]
      exact holds_writeAll _ _
    · exact absurd store (not_or.mpr ⟨notCont, notPoll⟩)

/-! ### READ_BYTE at DECODE (R180, R183) -/

/-- Where READ_BYTE goes from DECODE, by rx_cur and the stored indicator. -/
def readPath (rxCur : Nat) (ind : Byte) : Phase :=
  if rxCur = 32 then if ind = 0xDC#8 then .rxContWait .sampleT0 else .respond (.send { byte := 0x00#8 })
  else if rxCur = 0 then .rxPoll .sampleT0
  else .respond .deliver

theorem execReadByte_decode {s : State} {ind : Byte} (place : s.seq.phase = .decode)
    (stored : s.rxCur = 32 → s.rxBuf.read 0 = some ind) :
    execReadByte s = .next ((s.setTxCur 0).goto (readPath s.rxCur ind)) := by
  have decodes : execReadByte s = readDecode s := by rw [execReadByte, place]
  rw [decodes, readDecode, readPath]
  by_cases consumed : s.rxCur = 32
  · have read : s.readRx 0 = .ok ind := (Mem.fetch_ok _ _ _ _).mpr ⟨by decide, stored consumed⟩
    rw [if_pos (show s.rxCur = Config.rxCurMax from consumed), if_pos consumed, read]
    rfl
  · rw [if_neg (show s.rxCur ≠ Config.rxCurMax from consumed), if_neg consumed]
    split <;> rfl

/-- Settles O37: the edge at DECODE sets tx_cur and the place. -/
theorem readByteChoosesItsPath : Obligations.ReadByteChoosesItsPath := by
  intro s ind place stored
  exact ⟨_, execReadByte_decode place stored, rfl, rfl, rfl, rfl, rfl, rfl, rfl⟩

/-! ### AVAIL (R184) -/

theorem execAvail_decode {s : State} (place : s.seq.phase = .decode) :
    execAvail s = .next (s.respond (availResponse s.rxCur)) := by
  rw [execAvail, place]

theorem availResponse_eq (n : Nat) :
    availResponse n = { byte := if n = 0 then 0 else BitVec.ofNat 8 (32 - n) } := by
  rw [availResponse, availCount]
  split <;> rfl

/-- Settles O28: the edge at DECODE is `State.respond` with the count. -/
theorem availAnswers : Obligations.AvailAnswers := by
  intro s place
  exact ⟨_, execAvail_decode place, ⟨rfl, availResponse_eq _, by rw [← availResponse_eq]; rfl, rfl⟩,
    ⟨rfl, rfl, rfl, rfl⟩, ⟨rfl, rfl, rfl, rfl, rfl⟩, rfl, rfl⟩

theorem decodeReq_avail {q : Req} (op : q.op = 0xC#4) : decodeReq q = .avail := by
  rw [decodeReq, op]
  rfl

/-- Between operations (R26) no more than 30 bytes are unread. -/
theorem availResponse_le {n : Nat} (range : n = 0 ∨ (2 ≤ n ∧ n ≤ 32)) : (availResponse n).byte.toNat ≤ 30 := by
  rw [availResponse, availCount, BitVec.toNat_ofNat, Config.rxCurMax]
  split <;> omega

/-- Settles O55: the acceptance, then the response at DECODE. -/
theorem availPerforms : Obligations.AvailPerforms := by
  intro s q presented op
  obtain ⟨t, reqs, run, buffers, decode⟩ := presented.accepted
  have ⟨_, _, _, rxCur⟩ := buffers
  have answer : exec (decodeReq q) t.clearPulses = .next (t.clearPulses.respond (availResponse s.rxCur)) := by
    rw [decodeReq_avail op, ← rxCur]
    exact execAvail_decode decode.clearPulses.phase
  rw [← availResponse_eq]
  have executes := run.executes (decode.executes (by simp) answer)
  rw [decodeReq_avail op] at executes
  exact ⟨_, ⟨decodeReq_avail op, executes, rfl, decode.noTxn, decode.ss, rfl, rfl, congrArg _ decode.trace⟩, buffers,
    decode.serial, decode.timer, availResponse_le⟩

end Sys2Proof.Machine
end

section
/-! PROOFS. R180 to R183, R186: whole READ_BYTE operations, from request to response: buffered, continued and polled. -/

namespace Sys2Proof.Machine

theorem decodeReq_readByte {q : Req} (op : q.op = 0xB#4) : decodeReq q = .readByte := by
  rw [decodeReq, op]
  rfl

/-! ### READ_BYTE at the places of its fetches (R181, R182) -/

theorem execReadByte_contFetch {s : State} {p : FetchAt} (place : s.seq.phase = .rxContFetch p) :
    execReadByte s = contFetch p s := by
  rw [execReadByte, place]

theorem execReadByte_pollFrame {s : State} {p : PollAt} (place : s.seq.phase = .rxPoll p) :
    execReadByte s = pollFrame p s := by
  rw [execReadByte, place]

/-- The captured frame stored whole. -/
def State.storeFrame (s : State) : State := { s with rxBuf := s.rxBuf.writeAll 0 s.seq.asm }

theorem State.storeFrame_holds (s : State) : Holds s.storeFrame.rxBuf s.seq.asm := holds_writeAll _ _

theorem State.writeRx_asm {s : State} (len : s.seq.asm.length = 32) : s.writeRx s.seq.asm = .ok s.storeFrame :=
  (State.writeRx_ok _ _ _).mpr ⟨len, rfl⟩

theorem contFetch_store {s : State} (len : s.seq.asm.length = 32) :
    contFetch .store s = .next (s.storeFrame.goto (.rxContFetch .setCur)) := by
  rw [contFetch, State.writeRx_asm len, andThen_ok]

theorem validFrame_cons {ind : Byte} {F : List Byte} : validFrame (ind :: F) ↔ validIndicator ind = true := by
  simp [validFrame, validIndicator_iff]

/-- A poll stores the captured frame, and its indicator decides where the loop goes. -/
theorem pollFrame_store {s : State} (len : s.seq.asm.length = 32) :
    ∃ p, pollFrame .store s = .next (s.storeFrame.goto (.rxPoll p)) ∧
      (validFrame s.seq.asm → p = .setCur) ∧ (¬ validFrame s.seq.asm → p = .expire) := by
  obtain ⟨ind, F, asm⟩ := List.exists_cons_of_length_eq_add_one len
  have read : s.storeFrame.readRx 0 = .ok ind :=
    (Mem.fetch_ok _ _ _ _).mpr ⟨by decide, (s.storeFrame_holds 0 (by omega)).trans (by rw [asm]; rfl)⟩
  have e : pollFrame .store s =
      .next (s.storeFrame.goto (.rxPoll (if validIndicator ind then .setCur else .expire))) := by
    rw [pollFrame, State.writeRx_asm len, andThen_ok, read, andThen_ok]
  rw [asm, validFrame_cons]
  exact ⟨_, e, fun valid => if_pos valid, fun bad => if_neg bad⟩

section Read

variable {q : Req} {tr : List Event} {reqs : List (Option Req)} {ser : List (Option Byte)} {ts : List Ms} {s : State}

/-! ### From the request, and to the response (R180) -/

/-- An edge of READ_BYTE. -/
theorem Stands.reads {p : Phase} {w : Course} {t : State} (h : Stands q p w s) (op : q.op = 0xB#4) (busy : p ≠ .idle)
    (e : execReadByte s.clearPulses = .next t) : Reaches s t :=
  h.edge busy (by rw [decodeReq_readByte op]; exact e)

/-- A presented READ_BYTE is accepted, drops the unsent bytes and takes its way. -/
theorem Presents.reads {ind : Byte} (h : Presents s q) (op : q.op = 0xB#4) (requests : s.env.requests = some q :: reqs)
    (stored : s.rxCur = 32 → s.rxBuf.read 0 = some ind) :
    ∃ t, Reaches s t ∧ SameBuffers (s.setTxCur 0) t ∧
      Stands q (readPath s.rxCur ind) ⟨.req q :: s.trace, reqs, s.env.serial, s.env.timer⟩ t := by
  obtain ⟨t, run, ⟨txBuf, txCur, rxBuf, rxCur⟩, decode⟩ := h.takes requests
  have e := execReadByte_decode decode.clearPulses.phase (ind := ind)
    (by rw [State.clearPulses_rxCur, State.clearPulses_rxBuf, rxCur, rxBuf]; exact stored)
  rw [State.clearPulses_rxCur, rxCur] at e
  exact ⟨_, run.trans (decode.reads op (by simp) e), ⟨txBuf, rfl, rxBuf, rxCur⟩, { decode with phase := rfl }⟩

/-- A READ_BYTE at the sending place performs with its response. -/
theorem Stands.responds {t : State} {r : Rsp} {evs : List Event} (op : q.op = 0xB#4) (run : Reaches s t)
    (h : Stands q (.respond (.send r)) ⟨evs.reverse ++ .req q :: s.trace, reqs, ser, ts⟩ t) :
    ∃ u, Performs s q .readByte evs r u ∧ SameBuffers t u ∧ u.env.requests = reqs ∧ u.env.serial = ser ∧
      u.env.timer = ts := by
  have isRead := decodeReq_readByte op
  obtain ⟨u, performs, same⟩ := h.performs run rfl (fun v place => by rw [isRead]; exact execReadByte_send place)
  exact ⟨u, isRead ▸ performs, same⟩

/-- The byte at the cursor is delivered, and the cursor advances. -/
theorem Stands.delivers {t : State} {b : Byte} {evs : List Event} (op : q.op = 0xB#4) (run : Reaches s t)
    (h : Stands q (.respond .deliver) ⟨evs.reverse ++ .req q :: s.trace, reqs, ser, ts⟩ t) (lt : t.rxCur < 32)
    (read : t.rxBuf.read t.rxCur = some b) :
    ∃ u, Performs s q .readByte evs { byte := b } u ∧ SameBuffers (t.setRxCur (t.rxCur + 1)) u ∧
      u.env.requests = reqs ∧ u.env.serial = ser ∧ u.env.timer = ts := by
  obtain ⟨v, e, phase, rxCur, rxBuf, txBuf, txCur, trace, ss, seq, -, env, -⟩ :=
    readByteDeliversAtCursor t.clearPulses b h.clearPulses.phase lt read
  have send : Stands q (.respond (.send { byte := b })) ⟨evs.reverse ++ .req q :: s.trace, reqs, ser, ts⟩ v :=
    { req := by rw [seq]; exact h.req
      phase := phase
      ss := ss.trans h.ss
      trace := trace.trans h.trace
      requests := by rw [env]; exact h.requests
      serial := by rw [env]; exact h.serial
      timer := by rw [env]; exact h.timer
      noTxn := by rw [seq]; exact h.noTxn }
  obtain ⟨u, performs, buffers, inputs⟩ := send.responds op (run.trans (h.reads op (by simp) e))
  exact ⟨u, performs, .trans ⟨txBuf, txCur, rxBuf, rxCur⟩ buffers, inputs⟩

/-! ### No fetch (R180, R183, R186) -/

/-- READ_BYTE within a frame, from its request to its response. -/
theorem read_performs_within {b : Byte} (presented : Presents s q) (op : q.op = 0xB#4)
    (requests : s.env.requests = some q :: reqs) (low : 1 ≤ s.rxCur) (high : s.rxCur ≤ 31)
    (read : s.rxBuf.read s.rxCur = some b) :
    ∃ t, Performs s q .readByte [] { byte := b } t ∧ SameBuffers { s with txCur := 0, rxCur := s.rxCur + 1 } t ∧
      t.env.requests = reqs ∧ t.env.serial = s.env.serial ∧ t.env.timer = s.env.timer := by
  obtain ⟨t, run, ⟨txBuf, txCur, rxBuf, rxCur⟩, deliver⟩ :=
    presented.reads (ind := 0) op requests (fun consumed => by omega)
  rw [State.setTxCur_rxBuf] at rxBuf
  rw [State.setTxCur_rxCur] at rxCur
  rw [readPath, if_neg (by omega), if_neg (by omega)] at deliver
  obtain ⟨u, performs, buffers, inputs⟩ :=
    deliver.delivers (evs := []) op run (by omega) (by rw [rxBuf, rxCur]; exact read)
  have delivered : SameBuffers { s with txCur := 0, rxCur := s.rxCur + 1 } (t.setRxCur (t.rxCur + 1)) :=
    ⟨txBuf, txCur, rxBuf, congrArg (· + 1) rxCur⟩
  exact ⟨u, performs, delivered.trans buffers, inputs⟩

/-- READ_BYTE past the end of a message, from its request to its response. -/
theorem read_performs_end {ind : Byte} (presented : Presents s q) (op : q.op = 0xB#4)
    (requests : s.env.requests = some q :: reqs) (consumed : s.rxCur = 32) (stored : s.rxBuf.read 0 = some ind)
    (last : ind ≠ 0xDC#8) :
    ∃ t, Performs s q .readByte [] { byte := 0x00#8 } t ∧ SameBuffers (s.setTxCur 0) t ∧
      t.env.requests = reqs ∧ t.env.serial = s.env.serial ∧ t.env.timer = s.env.timer := by
  obtain ⟨t, run, buffers, send⟩ := presented.reads op requests (fun _ => stored)
  rw [readPath, if_pos consumed, if_neg last] at send
  obtain ⟨u, performs, buffers', inputs⟩ := send.responds (evs := []) op run
  exact ⟨u, performs, buffers.trans buffers', inputs⟩

/-! ### A fetched frame (R79, R86, R181, R182) -/

/-- From s to t nothing but rx_buf has changed of the buffers and the cursors. -/
def OnlyRxBuf (s t : State) : Prop := t.txBuf = s.txBuf ∧ t.txCur = s.txCur ∧ t.rxCur = s.rxCur

theorem OnlyRxBuf.trans {s t u : State} (h1 : OnlyRxBuf s t) (h2 : OnlyRxBuf t u) : OnlyRxBuf s u := by
  obtain ⟨txBuf, txCur, rxCur⟩ := h1
  obtain ⟨txBuf', txCur', rxCur'⟩ := h2
  exact ⟨txBuf'.trans txBuf, txCur'.trans txCur, rxCur'.trans rxCur⟩

theorem SameBuffers.onlyRxBuf {s t : State} (h : SameBuffers s t) : OnlyRxBuf s t := by
  obtain ⟨txBuf, txCur, -, rxCur⟩ := h
  exact ⟨txBuf, txCur, rxCur⟩

theorem frameAnswer_length {ws : List (Nat × Byte)} {F : List Byte} (h : frameAnswer ws F) : ws.length = 34 := by
  obtain ⟨len, d, e, miso⟩ := h
  simpa [misoOf, len] using congrArg List.length miso

/-- A READDATA that returns the frame F. -/
theorem Calls.readsFrame {ws : List (Nat × Byte)} {F : List Byte} {p : Phase} (busy : p ≠ .idle)
    (answered : frameAnswer ws F) (h : Calls q .readData p ⟨tr, reqs, answers ws ++ ser, ts⟩ s) :
    ∃ t, Reaches s t ∧ SameBuffers s t ∧ t.seq.t0 = s.seq.t0 ∧ t.seq.asm = F ∧
      Stands q p ⟨(txnEvents .readData (misoOf ws)).reverse ++ tr, reqs, ser, ts⟩ t := by
  obtain ⟨t, run, buffers, stands, asm, t0⟩ := h.returns busy (frameAnswer_length answered)
  obtain ⟨-, d, e, miso⟩ := answered
  exact ⟨t, run, buffers, t0, asm.trans (by rw [miso]; rfl), stands⟩

/-- An accepted frame: rx_cur goes to 1, byte 1 is delivered, and rx_cur is 2. -/
theorem Stands.accepts {t : State} {p : Phase} {F : List Byte} {b : Byte} {evs : List Event} (op : q.op = 0xB#4)
    (run : Reaches s t) (h : Stands q p ⟨evs.reverse ++ .req q :: s.trace, reqs, ser, ts⟩ t)
    (accepting : p = .rxPoll .setCur ∨ p = .rxContFetch .setCur) (holds : Holds t.rxBuf F) (second : F[1]? = some b) :
    ∃ u, Performs s q .readByte evs { byte := b } u ∧ SameBuffers (t.setRxCur 2) u ∧
      u.env.requests = reqs ∧ u.env.serial = ser ∧ u.env.timer = ts := by
  have e : execReadByte t.clearPulses = .next ((t.clearPulses.setRxCur 1).goto (.respond .deliver)) := by
    rcases accepting with rfl | rfl
    · exact execReadByte_pollFrame h.clearPulses.phase
    · exact execReadByte_contFetch h.clearPulses.phase
  have busy : p ≠ .idle := by rcases accepting with rfl | rfl <;> simp
  have deliver : Stands q (.respond .deliver) ⟨evs.reverse ++ .req q :: s.trace, reqs, ser, ts⟩
      ((t.clearPulses.setRxCur 1).goto (.respond .deliver)) := { h with phase := rfl }
  obtain ⟨lt, -⟩ := List.getElem?_eq_some_iff.mp second
  exact deliver.delivers op (run.trans (h.reads op busy e)) (by simp) ((holds 1 lt).trans second)

/-! ### The continuation (R182) -/

/-- RX_CONT_FETCH stores the frame it reads, whatever its byte 0. -/
theorem Stands.fetches {ws : List (Nat × Byte)} {F : List Byte} (op : q.op = 0xB#4) (answered : frameAnswer ws F)
    (h : Stands q (.rxContFetch .issue) ⟨tr, reqs, answers ws ++ ser, ts⟩ s) :
    ∃ t, Reaches s t ∧ OnlyRxBuf s t ∧ Holds t.rxBuf F ∧
      Stands q (.rxContFetch .setCur) ⟨(txnEvents .readData (misoOf ws)).reverse ++ tr, reqs, ser, ts⟩ t := by
  have issue : execReadByte s.clearPulses = .next (s.clearPulses.call .readData (.rxContFetch .store)) :=
    execReadByte_contFetch h.clearPulses.phase
  have calls : Calls q .readData (.rxContFetch .store) ⟨tr, reqs, answers ws ++ ser, ts⟩
      (s.clearPulses.call .readData (.rxContFetch .store)) := { h with phase := rfl, txn := rfl, asm := rfl }
  obtain ⟨t, run, buffers, -, asm, store⟩ := calls.readsFrame (by simp) answered
  obtain ⟨len, -⟩ := answered
  have e := (execReadByte_contFetch store.clearPulses.phase).trans (contFetch_store (asm ▸ len))
  exact ⟨_, ((h.reads op (by simp) issue).trans run).trans (store.reads op (by simp) e), buffers.onlyRxBuf,
    asm ▸ t.clearPulses.storeFrame_holds, { store with phase := rfl }⟩

/-! ### The frame poll (R181) -/

/-- t0 is sampled, and the first READDATA starts. -/
theorem Stands.beginsPoll {t0 : Ms} (op : q.op = 0xB#4)
    (h : Stands q (.rxPoll .sampleT0) ⟨tr, reqs, ser, t0 :: ts⟩ s) :
    ∃ t, Reaches s t ∧ SameBuffers s t ∧ t.seq.t0 = t0 ∧
      Calls q .readData (.rxPoll .store) ⟨.now t0 :: tr, reqs, ser, ts⟩ t := by
  have e : execReadByte s.clearPulses = .next
      ((s.clearPulses.now.2.setT0 s.clearPulses.now.1).call .readData (.rxPoll .store)) :=
    execReadByte_pollFrame h.clearPulses.phase
  refine ⟨_, h.reads op (by simp) e, ?_⟩
  rw [State.now_scripted h.clearPulses.timer]
  exact ⟨⟨rfl, rfl, rfl, rfl⟩, rfl,
    { h with phase := rfl, trace := congrArg _ h.trace, timer := rfl, txn := rfl, asm := rfl }⟩

/-- A poll stores the frame it reads, and its indicator decides where the loop goes. -/
theorem Calls.polls {ws : List (Nat × Byte)} {F : List Byte} (op : q.op = 0xB#4) (answered : frameAnswer ws F)
    (h : Calls q .readData (.rxPoll .store) ⟨tr, reqs, answers ws ++ ser, ts⟩ s) :
    ∃ t p, Reaches s t ∧ OnlyRxBuf s t ∧ t.seq.t0 = s.seq.t0 ∧ Holds t.rxBuf F ∧
      Stands q (.rxPoll p) ⟨(txnEvents .readData (misoOf ws)).reverse ++ tr, reqs, ser, ts⟩ t ∧
      (validFrame F → p = .setCur) ∧ (¬ validFrame F → p = .expire) := by
  obtain ⟨t, run, buffers, t0, asm, store⟩ := h.readsFrame (by simp) answered
  obtain ⟨len, -⟩ := answered
  obtain ⟨p, e, goes⟩ := pollFrame_store (s := t.clearPulses) (asm ▸ len)
  rw [State.clearPulses_seq, asm] at goes
  exact ⟨_, p, run.trans (store.reads op (by simp) ((execReadByte_pollFrame store.clearPulses.phase).trans e)),
    buffers.onlyRxBuf, t0, asm ▸ t.clearPulses.storeFrame_holds, { store with phase := rfl }, goes⟩

/-- The Timer sample after a frame that is not valid. -/
theorem Stands.samplesPoll {t1 : Ms} (op : q.op = 0xB#4)
    (h : Stands q (.rxPoll .expire) ⟨tr, reqs, ser, t1 :: ts⟩ s) :
    ∃ t, Reaches s t ∧ SameBuffers s t ∧ t.seq.t0 = s.seq.t0 ∧
      Stands q (if 1000 ≤ (t1 - s.seq.t0).toNat then .respond (.send { byte := 0x00#8 }) else .rxPoll .yieldNext)
        ⟨.now t1 :: tr, reqs, ser, ts⟩ t := by
  have e := execReadByte_pollFrame h.clearPulses.phase
  rw [pollFrame, State.now_scripted h.clearPulses.timer] at e
  simp only [expired, decide_eq_true_eq] at e
  exact ⟨_, h.reads op (by simp) e, ⟨rfl, rfl, rfl, rfl⟩, rfl,
    { h with phase := rfl, trace := congrArg _ h.trace, timer := rfl }⟩

/-- Before the budget has expired the loop yields once, and the next READDATA starts. -/
theorem Stands.pollsAgain {t1 : Ms} (op : q.op = 0xB#4)
    (h : Stands q (.rxPoll .expire) ⟨tr, reqs, ser, t1 :: ts⟩ s) (early : (t1 - s.seq.t0).toNat < 1000) :
    ∃ t, Reaches s t ∧ SameBuffers s t ∧ t.seq.t0 = s.seq.t0 ∧
      Calls q .readData (.rxPoll .store) ⟨.yielded :: .now t1 :: tr, reqs, ser, ts⟩ t := by
  obtain ⟨t, run, buffers, t0, yields⟩ := h.samplesPoll op
  rw [if_neg (Nat.not_le.mpr early)] at yields
  have e : execReadByte t.clearPulses = .next (t.clearPulses.yieldNow.call .readData (.rxPoll .store)) :=
    execReadByte_pollFrame yields.clearPulses.phase
  exact ⟨_, run.trans (yields.reads op (by simp) e), buffers, t0,
    { yields with phase := rfl, trace := congrArg _ yields.trace, txn := rfl, asm := rfl }⟩

/-- Polls that go on lead to the start of the next one. -/
theorem Calls.pollsOn {t0 : Ms} (op : q.op = 0xB#4) (turns : List Turn)
    (goOn : ∀ p ∈ turns, (∃ F, frameAnswer p.ws F ∧ ¬ validFrame F) ∧ (p.t1 - t0).toNat < 1000) (h0 : s.seq.t0 = t0)
    (h : Calls q .readData (.rxPoll .store)
      ⟨tr, reqs, turnAnswers turns ++ ser, turns.map (fun p => p.t1) ++ ts⟩ s) :
    ∃ t, Reaches s t ∧ OnlyRxBuf s t ∧ t.seq.t0 = t0 ∧
      Calls q .readData (.rxPoll .store) ⟨(turnEvents .readData turns).reverse ++ tr, reqs, ser, ts⟩ t := by
  induction turns generalizing s tr with
  | nil => exact ⟨s, .refl s, ⟨rfl, rfl, rfl⟩, h0, h⟩
  | cons turn turns ih =>
    obtain ⟨⟨F, answered, bad⟩, early⟩ := goOn turn List.mem_cons_self
    simp only [turnAnswers, List.append_assoc, List.map_cons, List.cons_append] at h
    obtain ⟨t, p, run, only, t0', -, expire, -, atExpire⟩ := h.polls op answered
    rw [atExpire bad] at expire
    obtain ⟨u, run', buffers, t0'', calls⟩ := expire.pollsAgain op (by rw [t0', h0]; exact early)
    obtain ⟨v, run'', only', t0v, next⟩ :=
      ih (fun p mem => goOn p (List.mem_cons_of_mem _ mem)) (t0''.trans (t0'.trans h0)) calls
    refine ⟨v, (run.trans run').trans run'', (only.trans buffers.onlyRxBuf).trans only', t0v, ?_⟩
    simpa [turnEvents] using next

/-- A presented READ_BYTE with no frame yet comes through its polls that go on to the store of the last frame. -/
theorem Presents.pollsToLast {r : PollRun} (presented : Presents s q) (op : q.op = 0xB#4)
    (requests : s.env.requests = some q :: reqs) (fresh : s.rxCur = 0) (ok : r.ok)
    (serial : s.env.serial = r.serial ++ ser) (timer : s.env.timer = r.timer ++ ts) :
    ∃ t p, Reaches s t ∧ OnlyRxBuf (s.setTxCur 0) t ∧ t.seq.t0 = r.t0 ∧ Holds t.rxBuf r.frame ∧
      Stands q (.rxPoll p)
        ⟨({ r with late := none } : PollRun).events.reverse ++ .req q :: s.trace, reqs, ser, r.late.toList ++ ts⟩ t ∧
      (validFrame r.frame → p = .setCur) ∧ (¬ validFrame r.frame → p = .expire) := by
  obtain ⟨goOn, answered, -⟩ := ok
  obtain ⟨t, run, buffers, first⟩ := presented.reads (ind := 0) op requests (fun consumed => by omega)
  rw [readPath, if_neg (by omega), if_pos fresh, serial, timer] at first
  simp only [PollRun.serial, PollRun.timer, List.append_assoc, List.cons_append] at first
  obtain ⟨u, run', buffers', h0, calls⟩ := first.beginsPoll op
  obtain ⟨v, run'', only, h0', last⟩ := calls.pollsOn op r.turns goOn h0
  obtain ⟨w, p, run3, only', h0'', holds, stands, goes⟩ := last.polls op answered
  refine ⟨w, p, ((run.trans run').trans run'').trans run3, ((buffers.trans buffers').onlyRxBuf.trans only).trans only',
    h0''.trans h0', holds, ?_, goes⟩
  simpa [PollRun.events] using stands

/-- READ_BYTE with no frame yet, from its request to its response. -/
theorem read_performs_poll {r : PollRun} (presented : Presents s q) (op : q.op = 0xB#4)
    (requests : s.env.requests = some q :: reqs) (fresh : s.rxCur = 0) (ok : r.ok)
    (serial : s.env.serial = r.serial ++ ser) (timer : s.env.timer = r.timer ++ ts) :
    ∃ t b, Performs s q .readByte r.events { byte := b } t ∧ Holds t.rxBuf r.frame ∧ t.txCur = 0 ∧
      t.txBuf = s.txBuf ∧ (t.env.requests = reqs ∧ t.env.serial = ser ∧ t.env.timer = ts) ∧
      (r.late = none → r.frame[1]? = some b ∧ t.rxCur = 2) ∧ (r.late ≠ none → b = 0x00#8 ∧ t.rxCur = 0) := by
  obtain ⟨t, p, run, ⟨txBuf, txCur, rxCur⟩, h0, holds, stands, atSetCur, atExpire⟩ :=
    presented.pollsToLast op requests fresh ok serial timer
  obtain ⟨t0, turns, ws, F, late⟩ := r
  obtain ⟨-, ⟨(len : F.length = 32), -⟩, outcome⟩ := ok
  cases late with
  | none =>
    have second : F[1]? = some F[1] := List.getElem?_eq_getElem (by omega)
    obtain ⟨u, performs, ⟨txBuf', txCur', rxBuf', rxCur'⟩, inputs⟩ :=
      stands.accepts op run (.inl (congrArg _ (atSetCur outcome))) holds second
    exact ⟨u, F[1], performs, rxBuf' ▸ holds, txCur'.trans txCur, txBuf'.trans txBuf, inputs,
      fun _ => ⟨second, rxCur'⟩, by simp⟩
  | some t1 =>
    obtain ⟨bad, expired⟩ := outcome
    rw [atExpire bad] at stands
    obtain ⟨u, run', buffers, -, send⟩ := stands.samplesPoll op
    rw [if_pos (by rw [h0]; exact expired)] at send
    obtain ⟨v, performs, buffers', inputs⟩ := Stands.responds (evs := (⟨t0, turns, ws, F, some t1⟩ : PollRun).events)
      op (run.trans run') (by simpa [PollRun.events] using send)
    obtain ⟨txBuf', txCur', rxBuf', rxCur'⟩ := buffers.trans buffers'
    exact ⟨v, 0x00#8, performs, rxBuf' ▸ holds, txCur'.trans txCur, txBuf'.trans txBuf, inputs, by simp,
      fun _ => ⟨rfl, (rxCur'.trans rxCur).trans fresh⟩⟩

end Read

/-! ### The three kinds of READ_BYTE -/

/-- Settles O52: the two ways with no fetch. -/
theorem readByteWithoutFetch : Obligations.ReadByteWithoutFetch := by
  intro s q b presented op
  have ⟨_, _, _, reqs, requests⟩ := presented
  refine ⟨fun low high read => ?_, fun consumed stored last => ?_⟩
  · obtain ⟨t, performs, ⟨txBuf, txCur, rxBuf, rxCur⟩, -, inputs⟩ :=
      read_performs_within presented op requests low high read
    exact ⟨t, performs, rxCur, txCur, rxBuf, txBuf, inputs⟩
  · obtain ⟨t, performs, ⟨txBuf, txCur, rxBuf, rxCur⟩, -, inputs⟩ :=
      read_performs_end presented op requests consumed stored last
    exact ⟨t, performs, rxCur.trans consumed, txCur, rxBuf, txBuf, inputs⟩

/-- Settles O53: the wait, the fetch whatever the wait returned, and the delivery of byte 1. -/
theorem readByteContinuesMessage : Obligations.ReadByteContinuesMessage := by
  intro s q r ws G b rest ts presented op consumed stored ok answered second serial timer
  have ⟨_, _, _, reqs, requests⟩ := presented
  obtain ⟨t, run, buffers, first⟩ := presented.reads op requests (fun _ => stored)
  rw [readPath, if_pos consumed, if_pos rfl, serial, timer, List.append_assoc] at first
  have loop : Polls q .tx 3000 .rxContWait (fun _ => .rxContFetch .issue) :=
    ⟨fun w v place => by rw [decodeReq_readByte op, exec, execReadByte, place]; rfl, by simp⟩
  obtain ⟨u, run', buffers', issue⟩ := loop.performs r ok first
  obtain ⟨v, run'', only, holds, accept⟩ := issue.fetches op answered
  obtain ⟨txBuf, txCur, -⟩ := (buffers.trans buffers').onlyRxBuf.trans only
  rw [← List.append_assoc, ← List.reverse_append] at accept
  obtain ⟨x, performs, ⟨txBuf', txCur', rxBuf', rxCur'⟩, -, serial', timer'⟩ :=
    accept.accepts op ((run.trans run').trans run'') (.inr rfl) holds second
  exact ⟨x, performs, rxBuf' ▸ holds, rxCur', txCur'.trans txCur, txBuf'.trans txBuf, serial', timer'⟩

/-- Settles O54: the frame poll, for any request script. -/
theorem readBytePollsForFrame : Obligations.ReadBytePollsForFrame := by
  intro s q r rest ts presented op fresh ok serial timer
  have ⟨_, _, _, reqs, requests⟩ := presented
  obtain ⟨t, b, performs, holds, txCur, txBuf, ⟨-, serial', timer'⟩, ends⟩ :=
    read_performs_poll presented op requests fresh ok serial timer
  exact ⟨t, b, performs, holds, txCur, txBuf, serial', timer', ends⟩

end Sys2Proof.Machine
end

section
/-! PROOFS. R188: a FINISHED frame is read out byte by byte by READ_BYTE operations in a row. -/

namespace Sys2Proof.Machine

/-- The request READ_BYTE with no operand. -/
def readReq : Req := Req.plain 0xB#4

/-- Between READ_BYTE operations: rx_buf holds the frame F, of which the bytes below k are read, and nothing is
pending in tx_buf. -/
structure Reading (F : List Byte) (k : Nat) (w : Course) (s : State) : Prop extends Pending [] w s where
  frame : Holds s.rxBuf F
  rxCur : s.rxCur = k

section Frame

variable {F : List Byte} {tr : List Event} {reqs more : List (Option Req)} {ser : List (Option Byte)} {ts : List Ms}
  {s : State}

/-- After a READ_BYTE. -/
theorem Performs.reading {k : Nat} {evs : List Event} {r : Rsp} {t : State}
    (h : Performs s readReq .readByte evs r t) (before : s.trace = tr) (txCur : t.txCur = 0)
    (frame : Holds t.rxBuf F) (rxCur : t.rxCur = k)
    (inputs : t.env.requests = reqs ∧ t.env.serial = ser ∧ t.env.timer = ts) :
    Reaches s t ∧ Reading F k ⟨(opEvents readReq evs r).reverse ++ tr, reqs, ser, ts⟩ t := by
  obtain ⟨run, pending⟩ := h.pending (data := []) before txCur (fun k lt => absurd lt (Nat.not_lt_zero k)) inputs
  exact ⟨run, { pending with frame := frame, rxCur := rxCur }⟩

/-- A READ_BYTE within the frame responds the next byte. -/
theorem Reading.next {k : Nat} {b : Byte} (h : Reading F k ⟨tr, some readReq :: reqs, ser, ts⟩ s) (low : 1 ≤ k)
    (high : k ≤ 31) (byte : F[k]? = some b) :
    ∃ t, Reaches s t ∧ Reading F (k + 1) ⟨(opEvents readReq [] { byte := b }).reverse ++ tr, reqs, ser, ts⟩ t := by
  obtain ⟨pending, frame, rfl⟩ := h
  obtain ⟨lt, -⟩ := List.getElem?_eq_some_iff.mp byte
  obtain ⟨t, performs, ⟨-, txCur, rxBuf, rxCur⟩, requests, serial, timer⟩ := read_performs_within
    pending.presents rfl pending.requests low high ((frame _ lt).trans byte)
  exact ⟨t, performs.reading pending.trace txCur (rxBuf ▸ frame) rxCur
    ⟨requests, serial.trans pending.serial, timer.trans pending.timer⟩⟩

/-- READ_BYTE operations in a row respond the unread bytes in order. -/
theorem Reading.rest (left : List Byte) {done : List Byte} (len : F.length = 32) (parts : F = done ++ left)
    (pos : done ≠ [])
    (h : Reading F done.length ⟨tr, List.replicate left.length (some readReq) ++ more, ser, ts⟩ s) :
    ∃ t, Reaches s t ∧
      Reading F 32 ⟨(left.flatMap (fun b => opEvents readReq [] { byte := b })).reverse ++ tr, more, ser, ts⟩ t := by
  have lens := congrArg List.length parts
  rw [len, List.length_append] at lens
  induction left generalizing s tr done with
  | nil =>
    rw [show done.length = 32 from lens.symm] at h
    exact ⟨s, .refl s, h⟩
  | cons b left ih =>
    rw [List.length_cons] at lens
    obtain ⟨t, run, next⟩ := h.next (List.length_pos_iff.mpr pos) (by omega) (b := b) (by simp [parts])
    obtain ⟨u, run', last⟩ := ih (done := done ++ [b]) (by simp [parts]) (by simp) (by simpa using next)
      (by rw [List.length_append, List.length_singleton]; omega)
    exact ⟨u, run.trans run', by simpa using last⟩

/-- A READ_BYTE past the end of a frame that is not continued responds the sentinel. -/
theorem Reading.pastEnd {ind : Byte} (h : Reading F 32 ⟨tr, some readReq :: reqs, ser, ts⟩ s)
    (first : F[0]? = some ind) (last : ind ≠ 0xDC#8) :
    ∃ t, Reaches s t ∧
      Reading F 32 ⟨(opEvents readReq [] { byte := 0x00#8 }).reverse ++ tr, reqs, ser, ts⟩ t := by
  obtain ⟨pending, frame, consumed⟩ := h
  obtain ⟨lt, -⟩ := List.getElem?_eq_some_iff.mp first
  obtain ⟨t, performs, ⟨-, txCur, rxBuf, rxCur⟩, requests, serial, timer⟩ := read_performs_end
    pending.presents rfl pending.requests consumed ((frame 0 lt).trans first) last
  exact ⟨t, performs.reading pending.trace txCur (rxBuf ▸ frame) (rxCur.trans consumed)
    ⟨requests, serial.trans pending.serial, timer.trans pending.timer⟩⟩

end Frame

/-- Settles O58: the polled frame's byte 1, its other bytes in order, and the sentinel. -/
theorem finishedFrameReadsInOrder : Obligations.FinishedFrameReadsInOrder := by
  intro s ws F b more rest t0 ts idle noTxn ss fresh requests answered serial timer
  have ⟨len, _⟩ := answered
  have rests : F.length = 30 := by simpa using len
  have requests' : s.env.requests =
      some readReq :: (List.replicate F.length (some readReq) ++ some readReq :: more) := by
    rw [requests, rests]
    rfl
  have ok : (⟨t0, [], ws, 0xDF#8 :: b :: F, none⟩ : PollRun).ok := ⟨by simp, answered, .inl rfl⟩
  obtain ⟨t, b', performs, frame, txCur, -, inputs, accepted, -⟩ := read_performs_poll
    ⟨idle, noTxn, ss, _, requests'⟩ rfl requests' fresh ok serial timer
  obtain ⟨second, rxCur⟩ := accepted rfl
  obtain rfl : b = b' := by simpa using second
  obtain ⟨run, reading⟩ := performs.reading rfl txCur frame rxCur inputs
  obtain ⟨u, run', consumed⟩ := reading.rest F (done := [0xDF#8, b]) len rfl (by simp)
  obtain ⟨v, run'', done⟩ := consumed.pastEnd (ind := 0xDF#8) rfl (by decide)
  refine ⟨v, (run.trans run').trans run'', done.idle, done.rxCur, done.requests, done.serial, done.timer, ?_⟩
  simpa [opEvents, PollRun.events, turnEvents, readReq] using done.trace

end Sys2Proof.Machine
end

section
/-! PROOFS. R74, R201: a reserved op code, at its single edge and from its request to its response. -/

namespace Sys2Proof.Machine

/-- The instructions of the five reserved op codes (R74). -/
def IsReserved (i : Instr) : Prop :=
  i = .reserved0 ∨ i = .reserved7 ∨ i = .reservedD ∨ i = .reservedE ∨ i = .reservedF

/-- All five reserved codes have the one meaning (R201). -/
theorem IsReserved.exec_eq {i : Instr} (reserved : IsReserved i) (s : State) : exec i s = illegalStep s := by
  rcases reserved with rfl | rfl | rfl | rfl | rfl
  all_goals rfl

theorem illegalStep_decode {s : State} (place : s.seq.phase = .decode) :
    illegalStep s = .next s.raiseIllegalOp := by
  rw [illegalStep, place]

/-- Settles O29: the edge at DECODE is `State.raiseIllegalOp`. -/
theorem reservedCodesAnswerIllegal : Obligations.ReservedCodesAnswerIllegal := by
  intro i s reserved place
  exact ⟨_, (IsReserved.exec_eq reserved s).trans (illegalStep_decode place), ⟨rfl, rfl, rfl, rfl⟩,
    ⟨rfl, rfl, rfl, rfl⟩, ⟨rfl, rfl, rfl, rfl, rfl⟩, rfl, rfl⟩

/-- A request whose op code is reserved decodes to the instruction of that code (R71, R74). -/
theorem decodeReq_reserved {q : Req} {i : Instr}
    (which : (q.op = 0x0#4 ∧ i = .reserved0) ∨ (q.op = 0x7#4 ∧ i = .reserved7) ∨ (q.op = 0xD#4 ∧ i = .reservedD) ∨
      (q.op = 0xE#4 ∧ i = .reservedE) ∨ (q.op = 0xF#4 ∧ i = .reservedF)) : decodeReq q = i := by
  rcases which with ⟨op, rfl⟩ | ⟨op, rfl⟩ | ⟨op, rfl⟩ | ⟨op, rfl⟩ | ⟨op, rfl⟩
  all_goals
    rw [decodeReq, op]
    rfl

/-- Settles O56: the acceptance, then the illegal response at DECODE. -/
theorem reservedRequestsPerform : Obligations.ReservedRequestsPerform := by
  intro s q i presented which
  have reserved : IsReserved i := which.imp And.right (.imp And.right (.imp And.right (.imp And.right And.right)))
  obtain rfl := decodeReq_reserved which
  have ⟨_, _, deasserted, _⟩ := presented
  obtain ⟨t, reqs, run, buffers, decode⟩ := presented.accepted
  have answer := (reserved.exec_eq _).trans (illegalStep_decode decode.clearPulses.phase)
  exact ⟨_, ⟨rfl, run.executes (decode.executes (by simp) answer), rfl, decode.noTxn, decode.ss, rfl, rfl,
    congrArg _ decode.trace⟩, buffers, decode.ss.trans deasserted.symm, decode.serial, decode.timer⟩

end Sys2Proof.Machine
end

section
/-! PROOFS. R203, R230, R231: an edge with rst = 1. -/

namespace Sys2Proof.Machine

/-- req_ready in the cycle after a reset: low exactly while rst stays high (R230). -/
@[simp] theorem State.applyReset_reqReady (s : State) (rst : Bool) : s.applyReset.reqReady rst = !rst := rfl

/-- Settles O11: the edge is `State.applyReset` on the state with its rst sample taken. -/
theorem rstAbortsEverything : Obligations.RstAbortsEverything := by
  intro s rs rst
  have aborts : step s = .next ({ s with env := { s.env with rst := rs } } : State).applyReset :=
    step_of_quiet (fetch_reset rst)
  refine ⟨_, aborts, State.applyReset_trace _, State.applyReset_ss _, State.applyReset_txCur _,
    State.applyReset_rxCur _, ?_⟩
  simp [Sequencer.reset, Outputs.reset]

end Sys2Proof.Machine
end
